-- ==== Sys2Proof/Word.lean ====
section
/-! DEFINITION. The two widths the block handles: bus bytes and 32-bit registers (R6, R7, R50). -/

namespace Sys2Proof

/-- One byte of the bus address space (R50). -/
abbrev Byte := BitVec 8

/-- A register value, a command word or a bus address: 32 bits (R6, R22, R80). -/
abbrev Word := BitVec 32

end Sys2Proof
end

