-- ==== Sys2Proof/Syntax.lean ====
section
/-! DEFINITION. The six commands of the opcode map (R83). -/

namespace Sys2Proof

/-- A command. No command word carries an operand: every operand stands in a parameter register (R82). -/
inductive Instr where
  /-- NOP, 0x00000000 (R155). -/
  | nop
  /-- DESWZ8, 0x00000001: tiled to linear (R107). -/
  | deswz8
  /-- SWZ8, 0x00000002: linear to tiled (R108). -/
  | swz8
  /-- PALPERM, 0x00000003: palette filter and unfilter (R136). -/
  | palperm
  /-- AXLATE, 0x00000004: tiled byte offset of one pixel (R106). -/
  | axlate
  /-- PXLATE, 0x00000005: palette source index of one position (R135). -/
  | pxlate
  deriving DecidableEq, Repr

end Sys2Proof
end

