-- ==== Sys2Proof/Decode.lean ====
section
/-! DEFINITION. Command words: the total decoder (R85) and the encoder (R81, R83). -/

namespace Sys2Proof

/-- Why a word is no command; the block answers both with ILLEGAL_CMD (R84). -/
inductive Reject where
  /-- RSV, bits 31..8, is not zero. -/
  | reservedBits
  /-- RSV is zero and OP is in 0x06..0xFF. -/
  | reservedOpcode
  deriving DecidableEq, Repr

/-- Field OP of a command word (R81). -/
def opField (w : Word) : BitVec 8 := w.extractLsb' 0 8

/-- Field RSV of a command word (R81). -/
def rsvField (w : Word) : BitVec 24 := w.extractLsb' 8 24

/-- The command of an OP value (R83). -/
def decodeOp (op : BitVec 8) : Except Reject Instr :=
  match op.toNat with
  | 0x00 => .ok .nop
  | 0x01 => .ok .deswz8
  | 0x02 => .ok .swz8
  | 0x03 => .ok .palperm
  | 0x04 => .ok .axlate
  | 0x05 => .ok .pxlate
  | _ => .error .reservedOpcode

/-- The decoder of R85, total on every 32-bit word. -/
def decode (w : Word) : Except Reject Instr :=
  if rsvField w = 0 then decodeOp (opField w) else .error .reservedBits

/-- The OP value of a command (R83). -/
def Instr.opcode : Instr → BitVec 8
  | .nop => 0x00
  | .deswz8 => 0x01
  | .swz8 => 0x02
  | .palperm => 0x03
  | .axlate => 0x04
  | .pxlate => 0x05

/-- The word of a command: RSV = 0 above its OP (R81). -/
def encode (i : Instr) : Word := (0 : BitVec 24) ++ i.opcode

/-- The command the decoder reads from `nbits` bits numbered as the opcode table numbers them; the bits
above `nbits` are zero. -/
def decodeTableWord (nbits w : Nat) : Option Instr :=
  let v := w % 2 ^ nbits
  if v < 2 ^ 32 then
    match decode (BitVec.ofNat 32 v) with
    | .ok i => some i
    | .error _ => none
  else none

theorem decode_nop : decode 0b00000000000000000000000000000000 = .ok .nop := rfl
theorem decode_deswz8 : decode 0b00000000000000000000000000000001 = .ok .deswz8 := rfl
theorem decode_swz8 : decode 0b00000000000000000000000000000010 = .ok .swz8 := rfl
theorem decode_palperm : decode 0b00000000000000000000000000000011 = .ok .palperm := rfl
theorem decode_axlate : decode 0b00000000000000000000000000000100 = .ok .axlate := rfl
theorem decode_pxlate : decode 0b00000000000000000000000000000101 = .ok .pxlate := rfl

end Sys2Proof
end

