-- ==== Sys2Proof/Config.lean ====
section
/-! DEFINITION. What the platform fixes and the spec leaves open (R6): BASE, MemOK, COHERENT. -/

namespace Sys2Proof

/-- A run of bus addresses, both ends included. -/
structure Region where
  first : Nat
  last  : Nat
  deriving DecidableEq, Repr

/-- The model arguments of R6. They are data of a machine that no step changes, so a statement over all
states holds for every platform. -/
structure Platform where
  /-- `BASE`: the bus address of register offset 0x00. -/
  base     : Word
  /-- `MemOK`, by the regions where it is false. -/
  failing  : List Region
  /-- `COHERENT`. -/
  coherent : Bool
  deriving DecidableEq, Repr

/-- The platform State.reset names. DESIGN CHOICE (log entry 4): the spec leaves BASE and MemOK open;
COHERENT has the spec's default. -/
def Platform.initial : Platform := { base := 0x40000000, failing := [], coherent := true }

end Sys2Proof
end

