-- ==== Sys2Proof/Machine/State.lean ====
section
/-! DEFINITION. The state of the machine, its reset value, and the reasons a step can stop. -/

namespace Sys2Proof.Machine

/-- The error codes of R161, by name. -/
inductive ErrCode where
  | none
  | illegalCmd
  | badDim
  | badPallen
  | coordRange
  | addrRange
  | overlap
  | misaligned
  | busError
  deriving DecidableEq, Repr

/-- The STATUS register (R26); its reserved bits read 0 and hold nothing. -/
structure Status where
  busy  : Bool
  done  : Bool
  err   : Bool
  wbusy : Bool
  code  : ErrCode
  deriving DecidableEq, Repr

/-- The parameter registers (R34 to R40), each with the bits that are not reserved. -/
structure Params where
  src    : Word
  dst    : Word
  width  : BitVec 16
  height : BitVec 16
  palLen : BitVec 9
  coord  : Word
  index  : BitVec 16
  deriving DecidableEq, Repr

/-- The bulk commands (R83). -/
inductive BulkOp where
  | deswz8
  | swz8
  | palperm
  deriving DecidableEq, Repr

/-- One element transfer, a (read, write) pair of bus addresses (R45). `data` is what the element's read
returned, once it has answered; the element's write is then under way (R55, log entry 9). -/
structure Transfer where
  readAddr  : Nat
  writeAddr : Nat
  data      : Option (List Byte)
  deriving DecidableEq, Repr

/-- The engine while a bulk command runs (R45): the accepted opcode and the transfers not yet performed.
`oldSource` lists what bytes held before the host wrote them during the command: a read that races with
such a write may still return the old value (R63, log entry 15). -/
structure Engine where
  op        : BulkOp
  todo      : List Transfer
  oldSource : List Host.Cell
  deriving DecidableEq, Repr

/-- The names of the register map (R22). -/
inductive Reg where
  | ctrl
  | status
  | cmd
  | src
  | dst
  | width
  | height
  | palLen
  | coord
  | index
  | result
  | errAddr
  deriving DecidableEq, Repr

/-- How far the end of a bulk command has come to the host (R64, R196, R197). -/
inductive Phase where
  /-- It is the last accepted command, and no STATUS read has shown its end yet. -/
  | unseen
  /-- A STATUS read has shown its end; COHERENT is false and the host's cache maintenance is still to come. -/
  | shown
  /-- No STATUS read can show its end any more: another command was accepted first, or a reset came (log
  entries 12, 13). -/
  | lost
  deriving DecidableEq, Repr

/-- A value that a bulk command leaves in question at a byte of its destination, and how far the command's end
has come. -/
structure Trace where
  addr  : Nat
  value : Byte
  phase : Phase
  deriving DecidableEq, Repr

/-- What can happen to the block next. The numbers and Booleans beside an access are the free choices that
the spec leaves open for it (U1, U5 to U8); nothing constrains them (log entry 2). A host access has any number
of bytes (R23: 32-bit or "any other width"; log entry 27), its value the little-endian one of its bytes (R9). -/
inductive Event where
  /-- The host writes the `width` low bytes of `value` at bus address `addr`. `wins` says, byte by byte, who
  wins a race with a command's write (R63). -/
  | hostWrite (addr : Word) (width : Nat) (value : Nat) (wins : List Bool)
  /-- The host reads `width` bytes at `addr`. `picks` chooses, byte by byte, among the values a race admits
  (R63). -/
  | hostRead (addr : Word) (width : Nat) (picks : List Nat)
  /-- The bus answers one of the engine's accesses, the one `pick` names (R62); `picks` chooses among the
  values a racing read may return (R63). With no access left, the command completes (R154). -/
  | busAnswer (pick : Nat) (picks : List Nat)
  /-- A write issued before a reset ends: it lands, or it does not (R191). -/
  | lateWrite (pick : Nat) (lands : Bool)
  /-- The host's cache maintenance of a platform that is not coherent (R64). -/
  | maintain
  /-- The reset input is asserted (R190). -/
  | reset
  deriving DecidableEq, Repr

/-- System memory: (address, byte) pairs, addresses strictly rising, no entry equal to what an unlisted
address reads as. -/
abbrev Memory := List Host.Cell

/-- The block, the memory it masters, its platform, and what is still to happen to it. -/
structure State where
  /-- CTRL.IRQ_EN (R25). -/
  irqEn      : Bool
  /-- STATUS (R26). -/
  status     : Status
  /-- SRC, DST, WIDTH, HEIGHT, PALLEN, COORD, INDEX (R34 to R40). -/
  params     : Params
  /-- RESULT (R41). -/
  result     : Word
  /-- ERRADDR (R42). -/
  errAddr    : Word
  /-- The engine state, empty while no command runs (R45). -/
  engine     : Option Engine
  /-- What bulk commands have written whose end no STATUS read has shown, newest first: a host write of such a
  byte still races with the command's (R63, R196). -/
  written    : List Trace
  /-- Other values a host read of a destination byte may still return (R63, R64). -/
  stale      : List Trace
  /-- Bytes of writes issued before a reset that have not ended (R190, R191). -/
  late       : List Host.Cell
  /-- System memory (R50). -/
  mem        : Memory
  /-- The model's own field: what the last host read returned (R86). -/
  readData   : Nat
  /-- BASE, MemOK and COHERENT (R6). -/
  platform   : Platform
  /-- The model's own field: the events to come, the next one first. -/
  agenda     : List Event
  deriving DecidableEq, Repr

/-- Why a step stops the run. No command stops the machine: a failing command ends with R162's outcome,
which is a next state. -/
inductive Fault where
  /-- Raised by a host access that touches the register window and is not 32-bit and 4-byte aligned. The
  spec asks for it: "A model treats such an access as a fault of the host step" (R23, R170, U9). Safe. -/
  | hostAccess
  /-- Raised by a host access to memory at a byte where MemOK is false: the platform answers the host with
  a bus error, and what the host does then is outside the block (log entry 8). Safe. -/
  | hostBusError
  deriving DecidableEq, Repr

/-- Why a step has no meaning. -/
inductive Refusal where
  /-- Raised by an arm of `exec` for a command with no meaning yet; there is none. Safe. -/
  | notModelled (mnemonic : String)
  deriving DecidableEq, Repr

/-- The machine right after reset (R47). The registers have the values of the spec's table. Memory lists
nothing (log entry 3), the platform is `Platform.initial` (log entry 4), and nothing is to happen yet
(log entry 1). -/
def State.reset : State where
  irqEn := false
  status := { busy := false, done := false, err := false, wbusy := false, code := .none }
  params := { src := 0, dst := 0, width := 0, height := 0, palLen := 0x100, coord := 0, index := 0 }
  result := 0
  errAddr := 0
  engine := none
  written := []
  stale := []
  late := []
  mem := []
  readData := 0
  platform := Platform.initial
  agenda := []

end Sys2Proof.Machine
end

