-- ==== Sys2Proof/Machine/Ops.lean ====
section
/-! DEFINITION. The named operations over memory and state: memory bytes, accepting a command, ending it
with an error (the block's one exception entry, R162), and ending it well. -/

namespace Sys2Proof.Machine

/-! ## Memory -/

/-- What an address that memory does not list reads as. DESIGN CHOICE (log entry 3): the spec gives memory
no contents. -/
def Memory.blank : Byte := 0

/-- The byte at address `a`. -/
def Memory.read : Memory → Nat → Byte
  | [], _ => Memory.blank
  | (k, v) :: m, a => if k = a then v else Memory.read m a

/-- A cell before the rest of a memory, unless it holds what an unlisted address reads as. -/
def Memory.put (a : Nat) (b : Byte) (m : Memory) : Memory :=
  if b = Memory.blank then m else (a, b) :: m

/-- Memory with `b` at address `a`, in canonical form. -/
def Memory.write : Memory → Nat → Byte → Memory
  | [], a, b => Memory.put a b []
  | (k, v) :: m, a, b =>
    if a < k then Memory.put a b ((k, v) :: m)
    else if a = k then Memory.put a b m
    else (k, v) :: Memory.write m a b

/-- Canonical from address `lo` on: addresses strictly rising and on the bus, no blank entry. -/
def Memory.wfFrom (lo : Nat) : Memory → Bool
  | [] => true
  | (k, v) :: m => decide (lo ≤ k) && decide (k < 2 ^ 32) && decide (v ≠ Memory.blank) && Memory.wfFrom (k + 1) m

/-- Memory is in its one canonical form. -/
def Memory.wf (m : Memory) : Bool := Memory.wfFrom 0 m

/-- `n` bytes from address `a` on. -/
def readBytes (m : Memory) (a n : Nat) : List Byte := (List.range n).map fun k => m.read (a + k)

/-- Memory with the bytes `bs` from address `a` on. -/
def writeBytes : Memory → Nat → List Byte → Memory
  | m, _, [] => m
  | m, a, b :: bs => writeBytes (m.write a b) (a + 1) bs

/-- The cells of the bytes `bs` from address `a` on. -/
def cellsOf : Nat → List Byte → List Host.Cell
  | _, [] => []
  | a, b :: bs => (a, b) :: cellsOf (a + 1) bs

/-- The values that a list of cells gives for address `a`. -/
def valuesAt (cells : List Host.Cell) (a : Nat) : List Byte :=
  (cells.filter fun c => c.1 == a).map fun c => c.2

/-- The values that a list of traces gives for address `a`. -/
def tracesAt (l : List Trace) (a : Nat) : List Byte := (l.filter fun t => t.addr == a).map fun t => t.value

/-- Traces of the bytes `bs` from address `a` on, of the last accepted command. -/
def tracesOf (a : Nat) (bs : List Byte) : List Trace :=
  (cellsOf a bs).map fun c => { addr := c.1, value := c.2, phase := .unseen }

/-- No STATUS read can show the end of this trace's command any more. -/
def Trace.miss (t : Trace) : Trace := if t.phase = .unseen then { t with phase := .lost } else t

/-- The cells outside the `n` bytes from `a` on. -/
def cellsOutside (cells : List Host.Cell) (a n : Nat) : List Host.Cell :=
  cells.filter fun c => !(decide (a ≤ c.1) && decide (c.1 < a + n))

/-- One of the values `first :: rest`, as `pick` says: the free choice of a race (U6, U7). -/
def choose (first : Byte) (rest : List Byte) (pick : Nat) : Byte :=
  (first :: rest).getD (pick % (rest.length + 1)) first

/-- `MemOK` (R6): the address is on the bus and in no failing region. -/
def memOK (p : Platform) (a : Nat) : Bool :=
  decide (a < 2 ^ 32) && p.failing.all fun r => !(decide (r.first ≤ a) && decide (a ≤ r.last))

/-- The bus answers an `n`-byte access at `a` without error: MemOK holds at every byte of it (R71). -/
def accessOK (p : Platform) (a n : Nat) : Bool := (List.range n).all fun k => memOK p (a + k)

/-! ## The life of a command -/

/-- A host write that BUSY drops: nothing changes but WBUSY (R30, R43). -/
def dropWrite (s : State) : State := { s with status := { s.status with wbusy := true } }

/-- What acceptance does before the command runs: the previous outcome is cleared (R150, R151), so that no
STATUS read can show the end of an earlier command any more (R197, log entry 12). -/
def accept (s : State) : State :=
  { s with
    status := { s.status with done := false, err := false, code := .none }
    errAddr := 0
    written := s.written.map Trace.miss
    stale := s.stale.map Trace.miss }

/-- `raise Error(code, addr)`: the command ends with the outcome of R162. -/
def raiseError (code : ErrCode) (addr : Word) (s : State) : State :=
  { s with
    status := { s.status with busy := false, done := false, err := true, code := code }
    errAddr := addr
    engine := none }

/-- A host acknowledges an outcome, the nearest the block has to a return (R169): the W1C effect on STATUS
of the three bits given (R32). -/
def acknowledge (clearDone clearErr clearWbusy : Bool) (s : State) : State :=
  { s with
    status :=
      { busy := s.status.busy
        done := s.status.done && !clearDone
        err := s.status.err && !clearErr
        wbusy := s.status.wbusy && !clearWbusy
        code := if clearErr then .none else s.status.code } }

/-- An immediate command completes inside its acceptance (R153). -/
def finish (s : State) : State := { s with status := { s.status with done := true } }

/-- A bulk command has passed its checks: BUSY is set and the engine holds its transfers (R150, R154). -/
def startEngine (op : BulkOp) (todo : List Transfer) (s : State) : State :=
  { s with
    status := { s.status with busy := true }
    engine := some { op := op, todo := todo, oldSource := [] } }

/-- A bulk command completes: BUSY falls and DONE rises in one step (R154). -/
def complete (s : State) : State :=
  { s with status := { s.status with busy := false, done := true }, engine := none }

/-- A write to CMD: dropped while BUSY = 1, else accepted, and the command's own part runs (R33, R150). -/
def command (body : State → State) (s : State) : State :=
  if s.status.busy then dropWrite s else body (accept s)

/-- The trace is settled by the end of the last accepted command: it is that command's own, or at a byte which
that command has written. -/
def settles (s : State) (t : Trace) : Bool :=
  decide (t.phase = .unseen) || s.written.any fun w => decide (w.phase = .unseen) && w.addr == t.addr

/-- The completion point of R64: a STATUS read has shown the end of the last accepted command, so nothing races
with its writes any more. On a coherent platform nothing older can be read of them either; on one that is not,
the host's maintenance must follow. -/
def observe (s : State) : State :=
  { s with
    written := s.written.filter fun t => !settles s t
    stale :=
      if s.platform.coherent then s.stale.filter fun t => !settles s t
      else s.stale.map fun t => if settles s t then { t with phase := .shown } else t }

/-- The host's cache maintenance ends the older values of every command whose end a STATUS read has shown
before it, and of no other (R64, R197). -/
def maintain (s : State) : State := { s with stale := s.stale.filter fun t => decide (t.phase ≠ .shown) }

end Sys2Proof.Machine
end

