-- ==== Sys2Proof/Machine/Control.lean ====
section
/-! DEFINITION. The control family: NOP (R155), and what an illegal word does (R84). -/

namespace Sys2Proof.Machine

/-- NOP (R155). -/
def execNop (s : State) : Host.Outcome State Fault Refusal := .next (command finish s)

/-- A CMD write of a word that is no command: ILLEGAL_CMD and nothing else (R84). -/
def illegalWord (s : State) : State := command (raiseError .illegalCmd 0) s

end Sys2Proof.Machine
end

