-- ==== Sys2Proof/Machine/Operands.lean ====
section
/-! DEFINITION. The operands of the commands (R82), their legality (R60, R61, R100, R130), the address and
index functions A and P (R101, R131), and the transfers of each bulk command (R107, R108, R136). -/

namespace Sys2Proof.Machine

/-! ## Operand fields (R82): unbounded integers, zero-extended -/

/-- WIDTH.W (R36). -/
def Params.w (p : Params) : Nat := p.width.toNat
/-- HEIGHT.H (R37). -/
def Params.h (p : Params) : Nat := p.height.toNat
/-- PALLEN.L (R38). -/
def Params.l (p : Params) : Nat := p.palLen.toNat
/-- COORD.X (R39). -/
def Params.x (p : Params) : Nat := (p.coord.extractLsb' 0 16).toNat
/-- COORD.Y (R39). -/
def Params.y (p : Params) : Nat := (p.coord.extractLsb' 16 16).toNat
/-- INDEX.I (R40). -/
def Params.i (p : Params) : Nat := p.index.toNat

/-! ## Legality -/

/-- DimOK (R100). -/
def dimOK (w h : Nat) : Bool :=
  decide (1 ≤ w ∧ w ≤ 4096 ∧ w % 16 = 0 ∧ 1 ≤ h ∧ h ≤ 4096 ∧ h % 4 = 0)

/-- PalLenOK (R130). -/
def palLenOK (l : Nat) : Bool := decide (32 ≤ l ∧ l ≤ 256 ∧ l % 32 = 0)

/-- ADDR_RANGE (R60): a buffer of `n` bytes would pass the top of the bus. -/
def outOfRange (src dst : Word) (n : Nat) : Bool :=
  decide (src.toNat + n > 2 ^ 32 ∨ dst.toNat + n > 2 ^ 32)

/-- OVERLAP (R61): the two buffers share a byte. -/
def overlapping (src dst : Word) (n : Nat) : Bool :=
  decide (src.toNat < dst.toNat + n ∧ dst.toNat < src.toNat + n)

/-- MISALIGNED (R54): SRC or DST is not a multiple of 4. -/
def misaligned (src dst : Word) : Bool := decide (src.toNat % 4 ≠ 0 ∨ dst.toNat % 4 ≠ 0)

/-! ## The address function A and the index function P -/

/-- `A(x, y, W)`, the byte offset of pixel (x, y) in the tiled buffer (R101). The spec marks the exact
formula as general knowledge (G1, log entry 5); `v & ~0xF` is `v - (v mod 16)` (R8). -/
def swizzleOffset (x y w : Nat) : Nat :=
  let blockLocation := (y - y % 16) * w + (x - x % 16) * 2
  let swapSelector := (((y + 2) >>> 2) &&& 1) * 4
  let posY := (((y - y % 4) >>> 1) + (y &&& 1)) &&& 7
  let columnLocation := posY * w * 2 + ((x + swapSelector) &&& 7) * 4
  let byteNum := ((y >>> 1) &&& 1) + ((x >>> 2) &&& 2)
  blockLocation + columnLocation + byteNum

/-- `P(o)`, the input position of output position `o` (R131): `o` counts part, block, stripe and color in
that nesting order, and the stride of a part is 32 (90_conflicts.md C1, log entry 6). -/
def paletteIndex (o : Nat) : Nat :=
  let part := o / 32
  let block := o / 16 % 2
  let stripe := o / 8 % 2
  let color := o % 8
  part * 32 + block * 8 + stripe * 16 + color

/-! ## Bulk commands -/

/-- The bytes of one engine access (R55). -/
def BulkOp.accessBytes : BulkOp → Nat
  | .deswz8 => 1
  | .swz8 => 1
  | .palperm => 4

/-- The number of elements of a bulk command: pixels or palette entries. -/
def BulkOp.elements : BulkOp → Params → Nat
  | .deswz8, p => p.w * p.h
  | .swz8, p => p.w * p.h
  | .palperm, p => p.l

/-- The buffer length in bytes, N of R60: `N_swz` or `N_pal` (R10). -/
def BulkOp.length (op : BulkOp) (p : Params) : Nat := op.accessBytes * op.elements p

/-- Where element `e` stands in the source buffer. For the images `e = y*W + x` (R107, R108, R136). -/
def BulkOp.sourceOffset : BulkOp → Params → Nat → Nat
  | .deswz8, p, e => swizzleOffset (e % p.w) (e / p.w) p.w
  | .swz8, _, e => e
  | .palperm, _, e => 4 * paletteIndex e

/-- Where element `e` goes in the destination buffer (R107, R108, R136). -/
def BulkOp.destOffset : BulkOp → Params → Nat → Nat
  | .deswz8, _, e => e
  | .swz8, p, e => swizzleOffset (e % p.w) (e / p.w) p.w
  | .palperm, _, e => 4 * e

/-- The transfer of element `e`, not yet begun. -/
def BulkOp.transfer (op : BulkOp) (p : Params) (e : Nat) : Transfer :=
  { readAddr := p.src.toNat + op.sourceOffset p e
    writeAddr := p.dst.toNat + op.destOffset p e
    data := none }

/-- All the transfers of a bulk command (R45), in the order of its elements. -/
def plan (op : BulkOp) (p : Params) : List Transfer :=
  (List.range (op.elements p)).map (op.transfer p)

/-- The checks the bulk commands share, in the order of R164, and the start of the engine. -/
def startChecked (op : BulkOp) (s : State) : State :=
  if outOfRange s.params.src s.params.dst (op.length s.params) then raiseError .addrRange 0 s
  else if overlapping s.params.src s.params.dst (op.length s.params) then raiseError .overlap 0 s
  else startEngine op (plan op s.params) s

end Sys2Proof.Machine
end

