-- ==== Sys2Proof/Machine/Palette.lean ====
section
/-! DEFINITION. The palette family: PXLATE (R135) and PALPERM (R136). -/

namespace Sys2Proof.Machine

/-- PXLATE, once accepted (R135). -/
def runPxlate (s : State) : State :=
  if !palLenOK s.params.l then raiseError .badPallen 0 s
  else if s.params.l ≤ s.params.i then raiseError .coordRange 0 s
  else finish { s with result := BitVec.ofNat 32 (paletteIndex s.params.i) }

/-- PALPERM, once accepted: its checks and the start of the engine (R136). -/
def runPalperm (s : State) : State :=
  if !palLenOK s.params.l then raiseError .badPallen 0 s
  else if misaligned s.params.src s.params.dst then raiseError .misaligned 0 s
  else startChecked .palperm s

/-- PXLATE (R135). -/
def execPxlate (s : State) : Host.Outcome State Fault Refusal := .next (command runPxlate s)

/-- PALPERM (R136): the checks and the start; the engine does the transfers (R154). -/
def execPalperm (s : State) : Host.Outcome State Fault Refusal := .next (command runPalperm s)

end Sys2Proof.Machine
end

