-- ==== Sys2Proof/Machine/Swizzle.lean ====
section
/-! DEFINITION. The swizzle family: AXLATE (R106), DESWZ8 (R107), SWZ8 (R108). -/

namespace Sys2Proof.Machine

/-- AXLATE, once accepted (R106). -/
def runAxlate (s : State) : State :=
  if !dimOK s.params.w s.params.h then raiseError .badDim 0 s
  else if s.params.w ≤ s.params.x ∨ s.params.h ≤ s.params.y then raiseError .coordRange 0 s
  else finish { s with result := BitVec.ofNat 32 (swizzleOffset s.params.x s.params.y s.params.w) }

/-- The checks of DESWZ8 and SWZ8, and the start of the engine (R107, R108). -/
def runImage (op : BulkOp) (s : State) : State :=
  if !dimOK s.params.w s.params.h then raiseError .badDim 0 s else startChecked op s

/-- AXLATE (R106). -/
def execAxlate (s : State) : Host.Outcome State Fault Refusal := .next (command runAxlate s)

/-- DESWZ8 (R107): the checks and the start; the engine does the transfers (R154). -/
def execDeswz8 (s : State) : Host.Outcome State Fault Refusal := .next (command (runImage .deswz8) s)

/-- SWZ8 (R108): the checks and the start; the engine does the transfers (R154). -/
def execSwz8 (s : State) : Host.Outcome State Fault Refusal := .next (command (runImage .swz8) s)

end Sys2Proof.Machine
end

