-- ==== Sys2Proof/Machine/Dispatch.lean ====
section
/-! DEFINITION. The meaning of each command: what a CMD write of its word does (R33, R150). -/

namespace Sys2Proof.Machine

def exec (i : Instr) (s : State) : Host.Outcome State Fault Refusal :=
  match i with
  | .nop => Sys2Proof.Machine.execNop s
  | .deswz8 => Sys2Proof.Machine.execDeswz8 s
  | .swz8 => Sys2Proof.Machine.execSwz8 s
  | .palperm => Sys2Proof.Machine.execPalperm s
  | .axlate => Sys2Proof.Machine.execAxlate s
  | .pxlate => Sys2Proof.Machine.execPxlate s

end Sys2Proof.Machine
end

