-- ==== Sys2Proof/Machine/Flags.lean ====
section
/-! DEFINITION. STATUS as the host sees it (R26, R32, R161) and the IRQ output (R44). -/

namespace Sys2Proof.Machine

/-- The value of an error code (R161). -/
def ErrCode.toByte : ErrCode → Byte
  | .none => 0x00
  | .illegalCmd => 0x01
  | .badDim => 0x02
  | .badPallen => 0x03
  | .coordRange => 0x04
  | .addrRange => 0x05
  | .overlap => 0x06
  | .misaligned => 0x07
  | .busError => 0x08

/-- STATUS as a word (R26): bits 31..16 and 7..4 read 0. -/
def Status.toWord (s : Status) : Word :=
  (0 : BitVec 16) ++ s.code.toByte ++ (0 : BitVec 4) ++ BitVec.ofBool s.wbusy ++ BitVec.ofBool s.err
    ++ BitVec.ofBool s.done ++ BitVec.ofBool s.busy

/-- CTRL as a word (R25). -/
def ctrlWord (irqEn : Bool) : Word := (BitVec.ofBool irqEn).setWidth 32

/-- A host write of `v` to STATUS (R32). -/
def writeStatus (v : Word) (s : State) : State :=
  acknowledge (v.getLsbD 1) (v.getLsbD 2) (v.getLsbD 3) s

/-- A STATUS value that shows the end of a bulk command: DONE, or ERR with BUS_ERROR (R64). -/
def Status.showsEnd (s : Status) : Bool := s.done || (s.err && decide (s.code = .busError))

/-- The IRQ output, at every instant (R44). -/
def State.irq (s : State) : Bool := s.irqEn && (s.status.done || s.status.err)

end Sys2Proof.Machine
end

