-- ==== Sys2Proof/Machine/Engine.lean ====
section
/-! DEFINITION. The bus-master engine: what one answer of the bus does (R55, R62, R71, R154), and what a
reset leaves on the bus (R190, R191). -/

namespace Sys2Proof.Machine

/-- The bytes an element read returns: memory's, or, for a byte the host wrote during the command, one of
its older values (R63). What an earlier command wrote is read as memory holds it, also if a host read may still
return an older value because that command's end was never observed (R196, log entry 29). -/
def engineRead (g : Engine) (m : Memory) (a : Nat) (picks : List Nat) : List Byte :=
  (List.range g.op.accessBytes).map fun k =>
    choose (m.read (a + k)) (valuesAt g.oldSource (a + k)) (picks.getD k 0)

/-- An element write lands. A host write of the bytes races with it, and a host read may return the old bytes,
until the end of the command is observed (R63, R64, R196); a late write to them is over (R191, log entry 11). -/
def landWrite (a : Nat) (bs : List Byte) (s : State) : State :=
  { s with
    mem := writeBytes s.mem a bs
    written := tracesOf a bs ++ s.written
    stale := tracesOf a (readBytes s.mem a bs.length) ++ s.stale
    late := cellsOutside s.late a bs.length }

/-- The bus answers access number `i` of the engine, the next access of transfer `t`: its read, or its write
once the read has answered (R55). A failing access ends the command with BUS_ERROR at its first byte and
changes no memory (R71). -/
def answerTransfer (g : Engine) (i : Nat) (t : Transfer) (picks : List Nat) (s : State) : State :=
  match t.data with
  | none =>
    if accessOK s.platform t.readAddr g.op.accessBytes then
      { s with engine := some { g with todo := g.todo.set i { t with data := some (engineRead g s.mem t.readAddr picks) } } }
    else raiseError .busError (BitVec.ofNat 32 t.readAddr) s
  | some bs =>
    if accessOK s.platform t.writeAddr g.op.accessBytes then
      { landWrite t.writeAddr bs s with engine := some { g with todo := g.todo.eraseIdx i } }
    else raiseError .busError (BitVec.ofNat 32 t.writeAddr) s

/-- One answer of the bus to the engine. `pick` names the transfer, counted round the ones not yet
performed, so every number names one: any order is admitted (R62). With none left the command completes
(R154). An idle engine has no access to answer. -/
def busAnswer (pick : Nat) (picks : List Nat) (s : State) : State :=
  match s.engine with
  | none => s
  | some g =>
    match g.todo[pick % g.todo.length]? with
    | none => complete s
    | some t => answerTransfer g (pick % g.todo.length) t picks s

/-- The bytes of the writes under way that the bus would take without error. -/
def issuedCells (s : State) : List Host.Cell :=
  match s.engine with
  | none => []
  | some g => g.todo.flatMap fun t =>
      match t.data with
      | none => []
      | some bs =>
        if accessOK s.platform t.writeAddr g.op.accessBytes then cellsOf t.writeAddr bs else []

/-- Reset (R190): every register as R47 says and the engine empty. Memory is not written, and a write
already issued may still land (R191). STATUS says nothing of an earlier command any more, so the values a host
read may still return stay, without a completion point, until the host rewrites the byte or observes the end of a
new command over it; and a host write after the reset races with no write of before it (R191, log entry 13). -/
def resetBlock (s : State) : State :=
  { State.reset with
    stale := s.stale.map Trace.miss
    late := issuedCells s ++ s.late
    mem := s.mem
    readData := s.readData
    platform := s.platform
    agenda := s.agenda }

/-- A write issued before a reset ends, byte by byte: it lands, or it never does (R191). No rule says when a
landing is visible to the host, so a host read may still return the older byte (log entry 13). -/
def lateWrite (pick : Nat) (lands : Bool) (s : State) : State :=
  match s.late[pick % s.late.length]? with
  | none => s
  | some c =>
    let ended := { s with late := s.late.eraseIdx (pick % s.late.length) }
    if lands && memOK s.platform c.1 then
      { ended with
        mem := s.mem.write c.1 c.2
        stale := { addr := c.1, value := s.mem.read c.1, phase := .lost } :: s.stale }
    else ended

end Sys2Proof.Machine
end

