-- ==== Sys2Proof/Machine/HostMemory.lean ====
section
/-! DEFINITION. Host accesses to system memory, with every value that a race with the running command
admits (R63, R64, R196). -/

namespace Sys2Proof.Machine

/-- The bus address of byte `k` of a host access at `addr` (log entry 22). -/
def byteAddr (addr : Word) (k : Nat) : Nat := (addr + BitVec.ofNat 32 k).toNat

/-- The transfer writes the byte at address `a`. -/
def Transfer.covers (t : Transfer) (n a : Nat) : Bool :=
  decide (t.writeAddr ≤ a) && decide (a < t.writeAddr + n)

/-- The values the running command may write to address `a` in transfers it has not yet performed. An element whose
read or write the bus will not answer without error counts too, with what memory lists at its source: the spec does
not say what value such a command "writes" (R63, R71), and the model admits this one (log entry 28). -/
def incoming (s : State) (a : Nat) : List Byte :=
  match s.engine with
  | none => []
  | some g => (g.todo.filter fun t => t.covers g.op.accessBytes a).flatMap fun t =>
      match t.data with
      | some bs => [bs.getD (a - t.writeAddr) 0]
      | none =>
        s.mem.read (t.readAddr + (a - t.writeAddr)) :: valuesAt g.oldSource (t.readAddr + (a - t.writeAddr))

/-- What a host read of the byte at `a` returns: memory's value, or during a race the value before the
command or the value the command writes, a free choice of each read (R63). -/
def hostByte (s : State) (a pick : Nat) : Byte :=
  choose (s.mem.read a) (tracesAt s.stale a ++ incoming s a) pick

/-- A bulk command whose end has not been observed has written the byte at address `a`, or is to write it: a
host write of it races (R63, R196). -/
def racing (s : State) (a : Nat) : Bool := !(incoming s a).isEmpty || !(tracesAt s.written a).isEmpty

/-- The command a host write of address `a` races with: the last accepted one, or only earlier ones. -/
def racePhase (s : State) (a : Nat) : Phase :=
  if (incoming s a).isEmpty && !(s.written.any fun w => decide (w.phase = .unseen) && w.addr == a) then .lost
  else .unseen

/-- What a host write leaves the engine: a read that races with it may still return the old byte (R63). -/
def noteOldSource (a : Nat) (old : Byte) (g : Engine) : Engine := { g with oldSource := (a, old) :: g.oldSource }

/-- A host write of one byte. In a race with a write that has landed `wins` says whose value memory keeps; one
still to come lands over the host's value later, so the host's wins if its write comes after (R63, log entry 14).
The others stay readable until the end of the command is observed. Without a race the byte is written and nothing
older is left of it (R191). -/
def hostWriteByte (a : Nat) (b : Byte) (wins : Bool) (s : State) : State :=
  let old := s.mem.read a
  let t := { s with
    late := cellsOutside s.late a 1
    engine := s.engine.map (noteOldSource a old) }
  if racing s a then
    { t with
      mem := s.mem.write a (if wins then b else (tracesAt s.written a).headD b)
      stale := { addr := a, value := old, phase := racePhase s a }
        :: { addr := a, value := b, phase := racePhase s a } :: s.stale }
  else { t with mem := s.mem.write a b, stale := s.stale.filter fun t => t.addr != a }

/-- Byte `k` of a value, little-endian (R9). -/
def byteOf (v k : Nat) : Byte := BitVec.ofNat 8 (v / 256 ^ k)

/-- A host write of the bytes `ks` of a wider access, one after the other. -/
def hostWriteBytes (addr : Word) (v : Nat) (wins : List Bool) : List Nat → State → State
  | [], s => s
  | k :: ks, s => hostWriteBytes addr v wins ks (hostWriteByte (byteAddr addr k) (byteOf v k) (wins.getD k true) s)

/-- The little-endian value of some bytes (R9). -/
def valueOf : List Byte → Nat
  | [] => 0
  | b :: bs => b.toNat + 256 * valueOf bs

/-- The bus answers every byte of a host access without error (R6). -/
def hostAccessOK (s : State) (addr : Word) (width : Nat) : Bool :=
  (List.range width).all fun k => memOK s.platform (byteAddr addr k)

/-- A host read of memory. -/
def memoryRead (addr : Word) (width : Nat) (picks : List Nat) (s : State) : Host.Outcome State Fault Refusal :=
  if hostAccessOK s addr width then
    .next { s with readData := valueOf ((List.range width).map fun k => hostByte s (byteAddr addr k) (picks.getD k 0)) }
  else .fault .hostBusError

/-- A host write of memory. -/
def memoryWrite (addr : Word) (width v : Nat) (wins : List Bool) (s : State) : Host.Outcome State Fault Refusal :=
  if hostAccessOK s addr width then .next (hostWriteBytes addr v wins (List.range width) s)
  else .fault .hostBusError

end Sys2Proof.Machine
end

