-- ==== Sys2Proof/Machine/Window.lean ====
section
/-! DEFINITION. The register window (R22 to R43) and the delivery of an event to the machine. -/

namespace Sys2Proof.Machine

/-- The register at an offset of the window; none in the reserved space (R22, R24). -/
def regAt (offset : Nat) : Option Reg :=
  match offset with
  | 0x00 => some .ctrl
  | 0x04 => some .status
  | 0x08 => some .cmd
  | 0x0C => some .src
  | 0x10 => some .dst
  | 0x14 => some .width
  | 0x18 => some .height
  | 0x1C => some .palLen
  | 0x20 => some .coord
  | 0x24 => some .index
  | 0x28 => some .result
  | 0x2C => some .errAddr
  | _ => none

/-- What a read of a register returns (R22, R24 to R42): reserved bits read 0, and CMD reads 0. -/
def readReg (s : State) : Reg → Word
  | .ctrl => ctrlWord s.irqEn
  | .status => s.status.toWord
  | .cmd => 0
  | .src => s.params.src
  | .dst => s.params.dst
  | .width => s.params.width.setWidth 32
  | .height => s.params.height.setWidth 32
  | .palLen => s.params.palLen.setWidth 32
  | .coord => s.params.coord
  | .index => s.params.index.setWidth 32
  | .result => s.result
  | .errAddr => s.errAddr

/-- A write of a parameter register: dropped while BUSY = 1 (R43). -/
def writeParams (f : Params → Params) (s : State) : State :=
  if s.status.busy then dropWrite s else { s with params := f s.params }

/-- A write to CMD (R33): the word's command runs, or the word is illegal (R84). -/
def writeCmd (w : Word) (s : State) : Host.Outcome State Fault Refusal :=
  match decode w with
  | .ok i => exec i s
  | .error _ => .next (illegalWord s)

/-- A host write of `v` to a register (R24 to R43): reserved bits are ignored, and so are writes to RESULT
and ERRADDR. -/
def writeReg (r : Reg) (v : Word) (s : State) : Host.Outcome State Fault Refusal :=
  match r with
  | .ctrl => .next { s with irqEn := v.getLsbD 0 }
  | .status => .next (writeStatus v s)
  | .cmd => writeCmd v s
  | .src => .next (writeParams (fun p => { p with src := v }) s)
  | .dst => .next (writeParams (fun p => { p with dst := v }) s)
  | .width => .next (writeParams (fun p => { p with width := v.setWidth 16 }) s)
  | .height => .next (writeParams (fun p => { p with height := v.setWidth 16 }) s)
  | .palLen => .next (writeParams (fun p => { p with palLen := v.setWidth 9 }) s)
  | .coord => .next (writeParams (fun p => { p with coord := v }) s)
  | .index => .next (writeParams (fun p => { p with index := v.setWidth 16 }) s)
  | .result => .next s
  | .errAddr => .next s

/-- A STATUS read that shows the end of the last accepted command is its completion point (R64, R197). -/
def observeRead (r : Reg) (s : State) : State :=
  match r with
  | .status => if s.status.showsEnd then observe s else s
  | _ => s

/-- A host read at an offset of the window: the value returned, and what the host has then observed. -/
def windowRead (offset : Nat) (s : State) : State :=
  match regAt offset with
  | some r => { observeRead r s with readData := (readReg s r).toNat }
  | none => { s with readData := 0 }

/-- A host write at an offset of the window; reserved offsets ignore it (R24). -/
def windowWrite (offset : Nat) (v : Word) (s : State) : Host.Outcome State Fault Refusal :=
  match regAt offset with
  | some r => writeReg r v s
  | none => .next s

/-! ## Host accesses -/

/-- The offset of a bus address from BASE; below 256 inside the window (R22). -/
def windowOffset (p : Platform) (addr : Word) : Nat := (addr - p.base).toNat

/-- The address of a host access or one of its bytes lies in the window. -/
def touchesWindow (p : Platform) (addr : Word) (width : Nat) : Bool :=
  (List.range (max width 1)).any fun k => decide (windowOffset p (addr + BitVec.ofNat 32 k) < 256)

/-- The access is one the window takes: 32-bit, at a 4-byte-aligned offset (R23). -/
def registerAccess (p : Platform) (addr : Word) (width : Nat) : Bool :=
  decide (width = 4) && decide (windowOffset p addr < 256) && decide (windowOffset p addr % 4 = 0)

/-- A host read: of a register, of memory, or one the window answers with a bus error (R23, R170). -/
def hostRead (addr : Word) (width : Nat) (picks : List Nat) (s : State) : Host.Outcome State Fault Refusal :=
  if registerAccess s.platform addr width then .next (windowRead (windowOffset s.platform addr) s)
  else if touchesWindow s.platform addr width then .fault .hostAccess
  else memoryRead addr width picks s

/-- A host write: of a register, of memory, or one the window answers with a bus error (R23, R170). -/
def hostWrite (addr : Word) (width v : Nat) (wins : List Bool) (s : State) : Host.Outcome State Fault Refusal :=
  if registerAccess s.platform addr width then windowWrite (windowOffset s.platform addr) (BitVec.ofNat 32 v) s
  else if touchesWindow s.platform addr width then .fault .hostAccess
  else memoryWrite addr width v wins s

/-- What an event does. -/
def deliver (e : Event) (s : State) : Host.Outcome State Fault Refusal :=
  match e with
  | .hostWrite addr width v wins => hostWrite addr width v wins s
  | .hostRead addr width picks => hostRead addr width picks s
  | .busAnswer pick picks => .next (busAnswer pick picks s)
  | .lateWrite pick lands => .next (lateWrite pick lands s)
  | .maintain => .next (maintain s)
  | .reset => .next (resetBlock s)

/-- The host write of `w` to CMD, at `BASE + 0x08` (R22). -/
def cmdWrite (s : State) (w : Nat) : Event := .hostWrite (s.platform.base + 0x08) 4 w []

end Sys2Proof.Machine
end

