-- ==== Sys2Proof/Machine/Step.lean ====
section
/-! DEFINITION. One step of the machine: the next event of the agenda happens. -/

namespace Sys2Proof.Machine

/-- One step. The block fetches nothing (R21): it waits for what the host and the bus do next, and with
nothing to come it stays as it is (R192, R201). -/
def step (s : State) : Host.Outcome State Fault Refusal :=
  match s.agenda with
  | [] => .next s
  | e :: rest => deliver e { s with agenda := rest }

/-- `s` with a CMD write of the word as the very next event: where this block takes its next command from
(R21, R33). -/
def State.withFetchWord (s : State) (nbits w : Nat) : State :=
  { s with agenda := cmdWrite s (w % 2 ^ nbits) :: s.agenda }

end Sys2Proof.Machine
end

