-- ==== Sys2Proof/Safety.lean ====
section
/-! DEFINITION. What claims are stated in terms of: the legality of a bulk command, the invariant that every
step keeps, and the runs of a command with what the host may do meanwhile. -/

namespace Sys2Proof.Machine

/-- The checks a bulk command passes before its engine starts, all of them (R107, R108, R136). -/
def BulkOp.legal (op : BulkOp) (p : Params) : Bool :=
  (match op with
    | .deswz8 => dimOK p.w p.h
    | .swz8 => dimOK p.w p.h
    | .palperm => palLenOK p.l && !misaligned p.src p.dst)
  && !outOfRange p.src p.dst (op.length p) && !overlapping p.src p.dst (op.length p)

/-- The command word of a bulk command. -/
def BulkOp.instr : BulkOp → Instr
  | .deswz8 => .deswz8
  | .swz8 => .swz8
  | .palperm => .palperm

/-- A transfer without the data its read returned: the (read, write) pair of R45. -/
def Transfer.pair (t : Transfer) : Transfer := { t with data := none }

/-- The invariants of R26: no two of BUSY, DONE and ERR at once, and a nonzero ERRCODE exactly with ERR. -/
def Status.Coherent (st : Status) : Prop :=
  ¬(st.busy = true ∧ st.done = true) ∧ ¬(st.busy = true ∧ st.err = true) ∧ ¬(st.done = true ∧ st.err = true)
    ∧ (st.code ≠ .none ↔ st.err = true)

/-- What the engine holds belongs to the command that the parameter registers describe (R43, R45): its
checks hold of them, the transfers left are transfers of it, each at most once, and the data of a transfer
has the width of its access (R55). -/
structure Engine.Fits (g : Engine) (p : Params) : Prop where
  legal : g.op.legal p = true
  todo : (g.todo.map Transfer.pair).Sublist (plan g.op p)
  data : ∀ t ∈ g.todo, ∀ bs, t.data = some bs → bs.length = g.op.accessBytes

/-- The invariant of the machine. -/
structure State.Inv (s : State) : Prop where
  /-- Memory is in its canonical form. -/
  mem : s.mem.wf = true
  /-- STATUS is coherent (R26). -/
  status : s.status.Coherent
  /-- The engine state is empty exactly while BUSY = 0 (R45). -/
  idle : s.engine = none ↔ s.status.busy = false
  /-- The engine runs the command of the parameter registers (R43, R45). -/
  engine : ∀ g, s.engine = some g → g.Fits s.params
  /-- ERRADDR is 0 unless a BUS_ERROR wrote it (R42, R161). -/
  errAddr : (s.status.busy = true ∨ s.status.done = true ∨ (s.status.err = true ∧ s.status.code ≠ .busError)) →
    s.errAddr = 0
  /-- RESULT is a tiled offset or a palette index (R106, R135). -/
  result : s.result.toNat < 2 ^ 24
  /-- What still races with a host write is of a command whose end no STATUS read has shown (R64, R196). -/
  written : ∀ w ∈ s.written, w.phase ≠ .shown
  /-- Only a platform that is not coherent waits for the host's maintenance (R64). -/
  stale : s.platform.coherent = true → ∀ t ∈ s.stale, t.phase ≠ .shown

/-! ## Runs -/

/-- Bus answers, each with its free choices, as events. -/
def answers (l : List (Nat × List Nat)) : List Event := l.map fun c => .busAnswer c.1 c.2

/-- Some bus answers, one after the other. -/
def answerAll : List (Nat × List Nat) → State → State
  | [], s => s
  | c :: l, s => answerAll l (busAnswer c.1 c.2 s)

/-- The parameter registers. -/
def Reg.isParam : Reg → Bool
  | .src => true
  | .dst => true
  | .width => true
  | .height => true
  | .palLen => true
  | .coord => true
  | .index => true
  | _ => false

/-- A bus answer. -/
def Event.isAnswer : Event → Bool
  | .busAnswer _ _ => true
  | _ => false

/-- A host read of a register, such as the poll of STATUS (R87). -/
def Event.isPoll (p : Platform) : Event → Bool
  | .hostRead addr width _ => registerAccess p addr width
  | _ => false

/-- A host write that BUSY drops: of CMD or a parameter register (R43). -/
def Event.isDropped (p : Platform) : Event → Bool
  | .hostWrite addr width _ _ => registerAccess p addr width &&
      match regAt (windowOffset p addr) with
      | some r => decide (r = .cmd) || r.isParam
      | none => false
  | _ => false

/-- What may stand between a bulk command's acceptance and its end without touching its buffers. -/
def Event.isQuiet (p : Platform) (e : Event) : Bool := e.isAnswer || e.isPoll p || e.isDropped p

/-- `t` is reached from `u` by bus answers, in any order, host reads of registers and memory, and host writes
that BUSY drops. -/
inductive Underway (u : State) : State → Prop where
  | start : Underway u u
  | answer (pick : Nat) (picks : List Nat) {t : State} (h : Underway u t) : Underway u (busAnswer pick picks t)
  | poll (offset : Nat) {t : State} (h : Underway u t) : Underway u (windowRead offset t)
  | read (v : Nat) {t : State} (h : Underway u t) : Underway u { t with readData := v }
  | drop {t : State} (h : Underway u t) (hb : t.status.busy = true) : Underway u (dropWrite t)

/-- `t` is reached from `u` by bus answers, host reads, writes of STATUS, host writes that BUSY drops and, if
`maintained`, the host's cache maintenance, and none of the reads was a STATUS read that shows the end of a command:
BUSY may have fallen, and DONE may have been cleared, but there was no completion point (R64). -/
inductive Unread (maintained : Bool) (u : State) : State → Prop where
  | start : Unread maintained u u
  | answer (pick : Nat) (picks : List Nat) {t : State} (h : Unread maintained u t) :
      Unread maintained u (busAnswer pick picks t)
  | poll (offset : Nat) {t : State} (h : Unread maintained u t) (hs : offset = 0x04 → t.status.showsEnd = false) :
      Unread maintained u (windowRead offset t)
  | read (v : Nat) {t : State} (h : Unread maintained u t) : Unread maintained u { t with readData := v }
  | clear (v : Word) {t : State} (h : Unread maintained u t) : Unread maintained u (writeStatus v t)
  | drop {t : State} (h : Unread maintained u t) (hb : t.status.busy = true) : Unread maintained u (dropWrite t)
  | maintain {t : State} (h : Unread maintained u t) (hm : maintained = true) :
      Unread maintained u (Machine.maintain t)

/-- The next access of a transfer is one the bus answers without error. -/
def nextAccessOK (g : Engine) (t : Transfer) (s : State) : Bool :=
  accessOK s.platform (if t.data = none then t.readAddr else t.writeAddr) g.op.accessBytes

/-- `v` is reached from `u` while the bus never answers the access of transfer `t`, answers others without error,
and the host does what it likes; there is no reset. -/
inductive Withheld (t : Transfer) (u : State) : State → Prop where
  | start : Withheld t u u
  | answer (pick : Nat) (picks : List Nat) {v : State} (g : Engine) (t' : Transfer) (h : Withheld t u v)
      (hg : v.engine = some g) (ht : g.todo[pick % g.todo.length]? = some t') (hne : t' ≠ t)
      (hok : nextAccessOK g t' v = true) : Withheld t u (busAnswer pick picks v)
  | other (e : Event) {v w : State} (h : Withheld t u v) (ha : e.isAnswer = false) (hr : e ≠ .reset)
      (hd : deliver e v = .next w) : Withheld t u w

/-- MemOK holds over both buffers of a bulk command (R71). -/
def buffersOK (op : BulkOp) (s : State) : Prop :=
  ∀ k, k < op.length s.params →
    memOK s.platform (s.params.src.toNat + k) = true ∧ memOK s.platform (s.params.dst.toNat + k) = true

/-- Address `a` is in the destination buffer of a bulk command (R51). -/
def inDest (op : BulkOp) (p : Params) (a : Nat) : Prop :=
  p.dst.toNat ≤ a ∧ a < p.dst.toNat + op.length p

/-! ## Outcomes of an accepted command, field by field -/

/-- An accepted command that completed without error (R151, R153). The end of an earlier command can no longer
be shown (R197, log entry 12); no register tells of that. -/
def afterDone (s : State) : State :=
  { s with
    status := { busy := false, done := true, err := false, wbusy := s.status.wbusy, code := .none }
    errAddr := 0
    written := s.written.map Trace.miss
    stale := s.stale.map Trace.miss }

/-- A command that failed a check at its acceptance (R162, R165). -/
def afterError (c : ErrCode) (s : State) : State :=
  { s with
    status := { busy := false, done := false, err := true, wbusy := s.status.wbusy, code := c }
    errAddr := 0
    engine := none
    written := s.written.map Trace.miss
    stale := s.stale.map Trace.miss }

/-- A bulk command accepted with every check passed (R150, R154). -/
def afterStart (op : BulkOp) (s : State) : State :=
  { s with
    status := { busy := true, done := false, err := false, wbusy := s.status.wbusy, code := .none }
    errAddr := 0
    engine := some { op := op, todo := plan op s.params, oldSource := [] }
    written := s.written.map Trace.miss
    stale := s.stale.map Trace.miss }

/-- The bulk command `op`, accepted at `s`, has completed without error at `t`, whatever order the bus answered in
and whatever the host polled meanwhile. -/
def runsTo (op : BulkOp) (s t : State) : Prop :=
  s.status.busy = false ∧ ∃ u, exec op.instr s = .next u ∧ Underway u t ∧ t.status.done = true

/-- Late writes ending, one after the other. -/
def endLate : List (Nat × Bool) → State → State
  | [], s => s
  | c :: l, s => endLate l (lateWrite c.1 c.2 s)

/-! ## The event a step delivers -/

/-- The next event is a host write of `v` to register `r`. -/
def writesReg (s : State) (r : Reg) (v : Word) : Prop :=
  ∃ addr n wins, s.agenda.head? = some (.hostWrite addr 4 n wins) ∧ v = BitVec.ofNat 32 n ∧
    registerAccess s.platform addr 4 = true ∧ regAt (windowOffset s.platform addr) = some r

/-- The next event is a bus answer. -/
def busAnswers (s : State) : Prop := ∃ pick picks, s.agenda.head? = some (.busAnswer pick picks)

/-- The next event is a reset. -/
def resets (s : State) : Prop := s.agenda.head? = some .reset

end Sys2Proof.Machine
end

