-- ==== Sys2Proof/WellFormed.lean ====
section
/-! DEFINITION. The checks on what a machine is given: its commands and its platform. -/

namespace Sys2Proof

/-- Every command is well formed: a command word holds no register number and no immediate (R82), so there
is nothing in it to check. -/
def Instr.wf : Instr → Bool
  | .nop => true
  | .deswz8 => true
  | .swz8 => true
  | .palperm => true
  | .axlate => true
  | .pxlate => true

/-- A region lies in the bus address space and is not empty (R50). -/
def Region.wf (r : Region) : Bool := decide (r.first ≤ r.last) && decide (r.last < 2 ^ 32)

/-- `BASE` is 256-byte aligned and the regions are regions of the bus (R6, R50). -/
def Platform.wf (p : Platform) : Bool := p.base.toNat % 256 == 0 && p.failing.all Region.wf

end Sys2Proof
end

