-- ==== Sys2Proof/Certificates/Slice0/Obligations.lean ====
section
/-! DEFINITION. The statements for the provers. -/

open Sys2Proof Sys2Proof.Machine

/-! ## Encoding -/

/-- R83, R85: the opcode map is exactly the six words 0 to 5, and every other word is illegal. -/
def Obligations.OpcodeMapIsSixWords : Prop :=
  ∀ w : Word,
    (decode w = .ok .nop ↔ w = 0x00000000) ∧ (decode w = .ok .deswz8 ↔ w = 0x00000001) ∧
    (decode w = .ok .swz8 ↔ w = 0x00000002) ∧ (decode w = .ok .palperm ↔ w = 0x00000003) ∧
    (decode w = .ok .axlate ↔ w = 0x00000004) ∧ (decode w = .ok .pxlate ↔ w = 0x00000005) ∧
    ((∃ r, decode w = .error r) ↔ (rsvField w ≠ 0 ∨ 0x06 ≤ (opField w).toNat))

/-- Decoder and encoder agree: a word decodes to a well-formed command exactly if it is that command's word. -/
def Obligations.DecodeEncodeAgree : Prop :=
  (∀ i : Instr, i.wf = true → decode (encode i) = .ok i) ∧
  (∀ (w : Word) (i : Instr), decode w = .ok i → i.wf = true ∧ encode i = w) ∧
  (∀ i j : Instr, encode i = encode j → i = j)

/-- Words of V-C1, read from the opcode map. -/
def Obligations.SampleWordsDecode : Prop :=
  decode 0x00000000 = .ok .nop ∧ decode 0x00000001 = .ok .deswz8 ∧ decode 0x00000003 = .ok .palperm ∧
  decode 0x00000005 = .ok .pxlate ∧ decode 0x00000006 = .error .reservedOpcode ∧
  decode 0x000000FF = .error .reservedOpcode ∧ decode 0x00000100 = .error .reservedBits ∧
  decode 0x80000001 = .error .reservedBits ∧ decode 0xFFFFFFFF = .error .reservedBits

/-- A step that delivers a CMD write runs the decoded command at the state with that event taken off the
agenda; nothing else is added around `exec`. `withFetchWord` puts such a write first. -/
def Obligations.StepRunsDecodedCommand : Prop :=
  (∀ (s : State) (n : Nat) (i : Instr) (wins : List Bool) (rest : List Event),
    s.agenda = .hostWrite (s.platform.base + 0x08) 4 n wins :: rest → decode (BitVec.ofNat 32 n) = .ok i →
    step s = exec i { s with agenda := rest }) ∧
  (∀ (s : State) (w : Nat) (i : Instr), decodeTableWord 32 w = some i → step (s.withFetchWord 32 w) = exec i s)

/-! ## Commands: acceptance, results and errors -/

/-- R84: an accepted word that is no command ends with ILLEGAL_CMD and has no other effect. (Here and below, that an
accepted command takes from an earlier one its completion point, in `afterError`, `afterDone` and `afterStart`, is the
model's reading, log entry 12.) -/
def Obligations.IllegalWordEndsWithIllegalCmd : Prop :=
  ∀ (s : State) (w : Word) (wins : List Bool) (rest : List Event),
    s.agenda = .hostWrite (s.platform.base + 0x08) 4 w.toNat wins :: rest → s.status.busy = false →
    (rsvField w ≠ 0 ∨ 0x06 ≤ (opField w).toNat) →
    step s = .next (afterError .illegalCmd { s with agenda := rest })

/-- R43: what BUSY does to each host write of the window. -/
def Obligations.BusyWritesAreDropped : Prop :=
  ∀ (s : State) (v : Word), s.status.busy = true →
    (∀ r, r = .cmd ∨ r = .src ∨ r = .dst ∨ r = .width ∨ r = .height ∨ r = .palLen ∨ r = .coord ∨ r = .index →
      writeReg r v s = .next { s with status := { s.status with wbusy := true } }) ∧
    (∃ t, writeReg .ctrl v s = .next t ∧ t.irqEn = v.getLsbD 0 ∧ t.status = s.status) ∧
    (∃ t, writeReg .status v s = .next t ∧ t.status.done = (s.status.done && !v.getLsbD 1) ∧
      t.status.err = (s.status.err && !v.getLsbD 2) ∧ t.status.wbusy = (s.status.wbusy && !v.getLsbD 3)) ∧
    writeReg .result v s = .next s ∧ writeReg .errAddr v s = .next s ∧
    (∀ offset, 0x30 ≤ offset → offset < 0x100 → windowWrite offset v s = .next s)

/-- R33, R152: every command written while BUSY = 1 is turned away, and only WBUSY tells of it. -/
def Obligations.BusyCommandsAreTurnedAway : Prop :=
  ∀ (i : Instr) (s : State), s.status.busy = true →
    exec i s = .next { s with status := { s.status with wbusy := true } }

/-- R155: NOP (and log entry 12 for an earlier command's completion point). -/
def Obligations.NopCompletes : Prop :=
  encode .nop = 0x00000000 ∧
  (∀ s : State, s.status.busy = false → exec .nop s = .next (afterDone s) ∧ (afterDone s).irq = s.irqEn) ∧
  (∀ w : Word, opField w = 0 → rsvField w ≠ 0 → decode w = .error .reservedBits) ∧
  (∀ s : State, s.status = { busy := false, done := false, err := true, wbusy := false, code := .badDim } →
    readReg (afterDone s) .status = 0x00000002)

/-- R106, R100, R82: AXLATE, its operands, its result and its errors in their order, and its example (and log entry 12
for an earlier command's completion point). -/
def Obligations.AxlateComputesTiledOffset : Prop :=
  encode .axlate = 0x00000004 ∧
  (∀ (s : State) (w h x y : Nat), s.status.busy = false →
    w = s.params.width.toNat → h = s.params.height.toNat →
    x = s.params.coord.toNat % 2 ^ 16 → y = s.params.coord.toNat / 2 ^ 16 →
    (¬(1 ≤ w ∧ w ≤ 4096 ∧ w % 16 = 0 ∧ 1 ≤ h ∧ h ≤ 4096 ∧ h % 4 = 0) →
      exec .axlate s = .next (afterError .badDim s)) ∧
    (1 ≤ w ∧ w ≤ 4096 ∧ w % 16 = 0 ∧ 1 ≤ h ∧ h ≤ 4096 ∧ h % 4 = 0 →
      (x ≥ w ∨ y ≥ h → exec .axlate s = .next (afterError .coordRange s)) ∧
      (x < w → y < h →
        exec .axlate s = .next { afterDone s with result := BitVec.ofNat 32 (swizzleOffset x y w) } ∧
        swizzleOffset x y w ≤ w * h - 1 ∧ w * h - 1 ≤ 2 ^ 24 - 1))) ∧
  swizzleOffset 5 2 16 = 5

/-- R135, R130, R82: PXLATE, its operands, its result and its errors in their order, and its examples (and log entry
12 for an earlier command's completion point). -/
def Obligations.PxlateComputesSourceIndex : Prop :=
  encode .pxlate = 0x00000005 ∧
  (∀ (s : State) (l i : Nat), s.status.busy = false → l = s.params.palLen.toNat → i = s.params.index.toNat →
    (¬(32 ≤ l ∧ l ≤ 256 ∧ l % 32 = 0) → exec .pxlate s = .next (afterError .badPallen s)) ∧
    (32 ≤ l ∧ l ≤ 256 ∧ l % 32 = 0 →
      (i ≥ l → exec .pxlate s = .next (afterError .coordRange s)) ∧
      (i < l → exec .pxlate s = .next { afterDone s with result := BitVec.ofNat 32 (paletteIndex i) } ∧
        paletteIndex i < l))) ∧
  paletteIndex 8 = 16 ∧ paletteIndex 200 = 208

/-- R107, R100, R60, R61, R164: what accepting DESWZ8 does, its checks in their order, and the transfers the engine
then holds (and log entry 12 for an earlier command's completion point). -/
def Obligations.Deswz8StartsItsTransfers : Prop :=
  ∀ (s : State) (w h src dst : Nat), w = s.params.width.toNat → h = s.params.height.toNat →
    src = s.params.src.toNat → dst = s.params.dst.toNat →
    (s.status.busy = false →
      exec .deswz8 s = .next (
        if ¬(1 ≤ w ∧ w ≤ 4096 ∧ w % 16 = 0 ∧ 1 ≤ h ∧ h ≤ 4096 ∧ h % 4 = 0) then afterError .badDim s
        else if src + w * h > 2 ^ 32 ∨ dst + w * h > 2 ^ 32 then afterError .addrRange s
        else if src < dst + w * h ∧ dst < src + w * h then afterError .overlap s
        else afterStart .deswz8 s)) ∧
    (∀ t : Transfer, t ∈ plan .deswz8 s.params ↔ ∃ x y, x < w ∧ y < h ∧
      t = { readAddr := src + swizzleOffset x y w, writeAddr := dst + (y * w + x), data := none })

/-- R108, R100, R60, R61, R164: what accepting SWZ8 does (and log entry 12). -/
def Obligations.Swz8StartsItsTransfers : Prop :=
  ∀ (s : State) (w h src dst : Nat), w = s.params.width.toNat → h = s.params.height.toNat →
    src = s.params.src.toNat → dst = s.params.dst.toNat →
    (s.status.busy = false →
      exec .swz8 s = .next (
        if ¬(1 ≤ w ∧ w ≤ 4096 ∧ w % 16 = 0 ∧ 1 ≤ h ∧ h ≤ 4096 ∧ h % 4 = 0) then afterError .badDim s
        else if src + w * h > 2 ^ 32 ∨ dst + w * h > 2 ^ 32 then afterError .addrRange s
        else if src < dst + w * h ∧ dst < src + w * h then afterError .overlap s
        else afterStart .swz8 s)) ∧
    (∀ t : Transfer, t ∈ plan .swz8 s.params ↔ ∃ x y, x < w ∧ y < h ∧
      t = { readAddr := src + (y * w + x), writeAddr := dst + swizzleOffset x y w, data := none })

/-- R136, R130, R54, R60, R61, R164: what accepting PALPERM does (and log entry 12). -/
def Obligations.PalpermStartsItsTransfers : Prop :=
  ∀ (s : State) (l src dst : Nat), l = s.params.palLen.toNat → src = s.params.src.toNat → dst = s.params.dst.toNat →
    (s.status.busy = false →
      exec .palperm s = .next (
        if ¬(32 ≤ l ∧ l ≤ 256 ∧ l % 32 = 0) then afterError .badPallen s
        else if src % 4 ≠ 0 ∨ dst % 4 ≠ 0 then afterError .misaligned s
        else if src + 4 * l > 2 ^ 32 ∨ dst + 4 * l > 2 ^ 32 then afterError .addrRange s
        else if src < dst + 4 * l ∧ dst < src + 4 * l then afterError .overlap s
        else afterStart .palperm s)) ∧
    (∀ t : Transfer, t ∈ plan .palperm s.params ↔ ∃ o, o < l ∧
      t = { readAddr := src + 4 * paletteIndex o, writeAddr := dst + 4 * o, data := none })

/-- R163: no command raises a code outside its row, at its acceptance or from the engine. -/
def Obligations.CommandsRaiseOnlyTheirCodes : Prop :=
  (∀ (i : Instr) (s t : State), s.status.busy = false → exec i s = .next t → t.status.err = true →
    (i = .deswz8 ∧ (t.status.code = .badDim ∨ t.status.code = .addrRange ∨ t.status.code = .overlap)) ∨
    (i = .swz8 ∧ (t.status.code = .badDim ∨ t.status.code = .addrRange ∨ t.status.code = .overlap)) ∨
    (i = .palperm ∧ (t.status.code = .badPallen ∨ t.status.code = .misaligned ∨ t.status.code = .addrRange ∨
      t.status.code = .overlap)) ∨
    (i = .axlate ∧ (t.status.code = .badDim ∨ t.status.code = .coordRange)) ∨
    (i = .pxlate ∧ (t.status.code = .badPallen ∨ t.status.code = .coordRange))) ∧
  (∀ (s : State) (pick : Nat) (picks : List Nat), s.Inv → s.status.busy = true →
    (busAnswer pick picks s).status.err = true → (busAnswer pick picks s).status.code = .busError) ∧
  (∀ (s t : State) (w : Word) (r : Reject), s.status.busy = false → decode w = .error r → writeCmd w s = .next t →
    t.status.code = .illegalCmd)

/-- R165: a command refused at its acceptance has touched no memory, and BUSY was never set for it. -/
def Obligations.AcceptanceErrorsTouchNoMemory : Prop :=
  ∀ (w : Word) (s t : State), s.status.busy = false → writeCmd w s = .next t → t.status.err = true →
    t.mem = s.mem ∧ t.engine = none ∧ t.status.busy = false ∧ t.errAddr = 0 ∧
      t.status.code ≠ .none ∧ t.status.code ≠ .busError

/-- The frame of all six commands, accepted or turned away: what a CMD write leaves as it was. The values that host
reads may return besides memory's stay (that an accepted command leaves them without a completion point is log entry
12); a bulk command adds those it is to write. Its transfers come later, from the engine; `EngineAnswerFrame` is
their frame. -/
def Obligations.CommandFrame : Prop :=
  ∀ (i : Instr) (s t : State), exec i s = .next t →
    t.params = s.params ∧ t.irqEn = s.irqEn ∧ t.platform = s.platform ∧ t.agenda = s.agenda ∧
    t.readData = s.readData ∧ t.late = s.late ∧ (∀ a, t.mem.read a = s.mem.read a) ∧
    (∀ a, tracesAt t.stale a = tracesAt s.stale a ∧ tracesAt t.written a = tracesAt s.written a) ∧
    (s.status.busy = false → t.status.wbusy = s.status.wbusy) ∧
    (s.status.busy = true → t.errAddr = s.errAddr ∧ t.engine = s.engine ∧ t.status.busy = true ∧
      t.status.done = s.status.done ∧ t.status.err = s.status.err ∧ t.status.code = s.status.code ∧
      t.result = s.result ∧ t.stale = s.stale ∧ t.written = s.written) ∧
    (i ≠ .axlate → i ≠ .pxlate → t.result = s.result) ∧
    (t.status.err = true → t.result = s.result) ∧
    (i = .nop ∨ i = .axlate ∨ i = .pxlate → t.status.busy = s.status.busy) ∧
    (s.engine = none → (i = .nop ∨ i = .axlate ∨ i = .pxlate → t.engine = none))

/-! ## The engine -/

/-- The frame of a bus answer: no register but STATUS and ERRADDR, and no byte of memory, nor a value a host read may
return for it, but the element that the answered transfer writes; a completion (an answer of its own, log entry 17)
ends no race (R64). -/
def Obligations.EngineAnswerFrame : Prop :=
  ∀ (s : State) (pick : Nat) (picks : List Nat), s.Inv →
    (busAnswer pick picks s).params = s.params ∧ (busAnswer pick picks s).irqEn = s.irqEn ∧
    (busAnswer pick picks s).result = s.result ∧ (busAnswer pick picks s).status.wbusy = s.status.wbusy ∧
    (busAnswer pick picks s).platform = s.platform ∧ (busAnswer pick picks s).readData = s.readData ∧
    (busAnswer pick picks s).agenda = s.agenda ∧
    ((busAnswer pick picks s).status.err = s.status.err → (busAnswer pick picks s).errAddr = s.errAddr) ∧
    (∀ g t, s.engine = some g → g.todo[pick % g.todo.length]? = some t →
      (t.data = none → (busAnswer pick picks s).mem = s.mem ∧ (busAnswer pick picks s).stale = s.stale ∧
        (busAnswer pick picks s).written = s.written ∧ (busAnswer pick picks s).late = s.late) ∧
      (∀ a, a < t.writeAddr ∨ t.writeAddr + g.op.accessBytes ≤ a →
        (busAnswer pick picks s).mem.read a = s.mem.read a ∧
        tracesAt (busAnswer pick picks s).stale a = tracesAt s.stale a ∧
        tracesAt (busAnswer pick picks s).written a = tracesAt s.written a ∧
        valuesAt (busAnswer pick picks s).late a = valuesAt s.late a)) ∧
    (∀ g, s.engine = some g → g.todo = [] → (busAnswer pick picks s).mem = s.mem ∧
      (busAnswer pick picks s).stale = s.stale ∧ (busAnswer pick picks s).written = s.written ∧
      (busAnswer pick picks s).late = s.late) ∧
    (s.engine = none → busAnswer pick picks s = s)

/-- R55, R63: the two accesses of an element. Its read returns what memory holds, byte by byte, or, for a byte the host
wrote during the command, an older value (log entry 15), and each of these for some choice; its write follows and
carries what the read returned. That STATUS stays at the write of the last transfer too, the completion being an answer
of its own, is log entry 17. -/
def Obligations.ElementReadThenWrite : Prop :=
  ∀ (s : State) (g : Engine) (t : Transfer) (pick : Nat), s.Inv → s.engine = some g →
    g.todo[pick % g.todo.length]? = some t →
    (t.data = none → accessOK s.platform t.readAddr g.op.accessBytes = true → ∀ bs : List Byte,
      (bs.length = g.op.accessBytes ∧ ∀ k (hk : k < bs.length),
        bs[k] = s.mem.read (t.readAddr + k) ∨ bs[k] ∈ valuesAt g.oldSource (t.readAddr + k)) ↔
      ∃ picks, busAnswer pick picks s = { s with
        engine := some { g with todo := g.todo.set (pick % g.todo.length) { t with data := some bs } } }) ∧
    (g.oldSource = [] → t.data = none → accessOK s.platform t.readAddr g.op.accessBytes = true → ∀ picks,
      busAnswer pick picks s = { s with
        engine := some { g with
          todo := g.todo.set (pick % g.todo.length)
            { t with data := some (readBytes s.mem t.readAddr g.op.accessBytes) } } }) ∧
    (∀ bs picks, t.data = some bs → accessOK s.platform t.writeAddr g.op.accessBytes = true →
      ∃ u, busAnswer pick picks s = u ∧ u.status = s.status ∧
        u.engine = some { g with todo := g.todo.eraseIdx (pick % g.todo.length) } ∧
        ∀ k (hk : k < bs.length), u.mem.read (t.writeAddr + k) = bs[k])

/-- R71: the first failing access of a command ends it with BUS_ERROR at the access's first byte. It changes no
memory, and no access follows. Which of several failing accesses is reported is the free `pick`. -/
def Obligations.BusErrorEndsTheCommand : Prop :=
  ∀ (s : State) (g : Engine) (t : Transfer) (pick : Nat) (picks : List Nat), s.engine = some g →
    g.todo[pick % g.todo.length]? = some t →
    ∀ a, a = (if t.data = none then t.readAddr else t.writeAddr) →
    (∃ k, k < g.op.accessBytes ∧ memOK s.platform (a + k) = false) →
    busAnswer pick picks s =
      { s with
        status := { busy := false, done := false, err := true, wbusy := s.status.wbusy, code := .busError }
        errAddr := BitVec.ofNat 32 a
        engine := none } ∧
    ∀ l, answerAll l (busAnswer pick picks s) = busAnswer pick picks s

/-- R27: what sets and what clears BUSY, both ways round: it rises with an accepted bulk command that passes every
check and with nothing else, and falls with the completion, with BUS_ERROR and at reset and with nothing else. That
the completion is a bus answer of its own, with no transfer left, is the model's reading (log entry 17). -/
def Obligations.BusyLifetime : Prop :=
  (∀ (op : BulkOp) (s t : State), s.status.busy = false → exec op.instr s = .next t →
    (t.status.busy = true ↔ op.legal s.params = true)) ∧
  (∀ (i : Instr) (s t : State), i = .nop ∨ i = .axlate ∨ i = .pxlate → exec i s = .next t →
    t.status.busy = s.status.busy) ∧
  (∀ (s : State) (pick : Nat) (picks : List Nat) (g : Engine), s.engine = some g → s.status.busy = true →
    ((busAnswer pick picks s).status.busy = false ↔
      g.todo = [] ∨ ∃ t, g.todo[pick % g.todo.length]? = some t ∧
        accessOK s.platform (if t.data = none then t.readAddr else t.writeAddr) g.op.accessBytes = false)) ∧
  (∀ s : State, resets s → ∃ t, step s = .next t ∧ t.status.busy = false) ∧
  ∀ s t : State, step s = .next t →
    (s.status.busy = false → t.status.busy = true →
      ∃ op : BulkOp, writesReg s .cmd (encode op.instr) ∧ op.legal s.params = true) ∧
    (s.status.busy = true → t.status.busy = false →
      (busAnswers s ∧ (t.status.done = true ∨ (t.status.err = true ∧ t.status.code = .busError))) ∨ resets s)

/-- R201: an access the bus never answers keeps BUSY = 1, whatever the host does, until reset: while other accesses
are answered without error, and while nothing is answered at all. That another access may be answered meanwhile, and
end the command if it fails, is log entry 18; that BUSY stays with no access left, until one answer more, is log
entry 17. -/
def Obligations.SilentBusHangsTheBlock : Prop :=
  (∀ (u v : State) (g : Engine) (t : Transfer), u.engine = some g → t ∈ g.todo → u.status.busy = true →
    Withheld t u v → v.status.busy = true ∧ ∃ g', v.engine = some g' ∧ t ∈ g'.todo) ∧
  (∀ (k : Nat) (s t : State), s.status.busy = true → (∀ e ∈ s.agenda, e ≠ .reset ∧ e.isAnswer = false) →
    core.run k s = .next t → t.status.busy = true) ∧
  (∀ s : State, resets s → ∃ t, step s = .next t ∧ t.status.busy = false)

/-! ## Bulk commands as a whole -/

/-- R107, R154, R62: DESWZ8 on answering memory. Whatever order the bus answers in, and whatever registers the host
reads or writes in vain meanwhile, after one read and one write of every pixel and one answer more (log entry 17)
DONE is set and the destination holds the deswizzled image. -/
def Obligations.Deswz8CompletesInEveryOrder : Prop :=
  ∀ (s : State) (evs : List Event) (pick : Nat) (picks : List Nat) (rest : List Event), s.Inv →
    s.status.busy = false → s.agenda = cmdWrite s 0x00000001 :: (evs ++ .busAnswer pick picks :: rest) →
    BulkOp.deswz8.legal s.params = true → buffersOK .deswz8 s → (∀ e ∈ evs, e.isQuiet s.platform = true) →
    (evs.filter Event.isAnswer).length = 2 * (s.params.w * s.params.h) →
    ∃ t : State, core.run (evs.length + 2) s = .next t ∧
      t.status = { busy := false, done := true, err := false,
                   wbusy := s.status.wbusy || evs.any (Event.isDropped s.platform), code := .none } ∧
      t.errAddr = 0 ∧ t.engine = none ∧ t.params = s.params ∧ t.irqEn = s.irqEn ∧ t.result = s.result ∧ t.agenda = rest ∧
      (∀ x y, x < s.params.w → y < s.params.h →
        t.mem.read (s.params.dst.toNat + (y * s.params.w + x)) =
          s.mem.read (s.params.src.toNat + swizzleOffset x y s.params.w)) ∧
      (∀ a, ¬inDest .deswz8 s.params a → t.mem.read a = s.mem.read a)

/-- R108, R154, R62: SWZ8, in the same way (log entry 17 for the last answer). -/
def Obligations.Swz8CompletesInEveryOrder : Prop :=
  ∀ (s : State) (evs : List Event) (pick : Nat) (picks : List Nat) (rest : List Event), s.Inv →
    s.status.busy = false → s.agenda = cmdWrite s 0x00000002 :: (evs ++ .busAnswer pick picks :: rest) →
    BulkOp.swz8.legal s.params = true → buffersOK .swz8 s → (∀ e ∈ evs, e.isQuiet s.platform = true) →
    (evs.filter Event.isAnswer).length = 2 * (s.params.w * s.params.h) →
    ∃ t : State, core.run (evs.length + 2) s = .next t ∧
      t.status = { busy := false, done := true, err := false,
                   wbusy := s.status.wbusy || evs.any (Event.isDropped s.platform), code := .none } ∧
      t.errAddr = 0 ∧ t.engine = none ∧ t.params = s.params ∧ t.irqEn = s.irqEn ∧ t.result = s.result ∧ t.agenda = rest ∧
      (∀ x y, x < s.params.w → y < s.params.h →
        t.mem.read (s.params.dst.toNat + swizzleOffset x y s.params.w) =
          s.mem.read (s.params.src.toNat + (y * s.params.w + x))) ∧
      (∀ a, ¬inDest .swz8 s.params a → t.mem.read a = s.mem.read a)

/-- R136, R154, R62: PALPERM, in the same way (log entry 17); entries move with their four bytes in order (R52). -/
def Obligations.PalpermCompletesInEveryOrder : Prop :=
  ∀ (s : State) (evs : List Event) (pick : Nat) (picks : List Nat) (rest : List Event), s.Inv →
    s.status.busy = false → s.agenda = cmdWrite s 0x00000003 :: (evs ++ .busAnswer pick picks :: rest) →
    BulkOp.palperm.legal s.params = true → buffersOK .palperm s → (∀ e ∈ evs, e.isQuiet s.platform = true) →
    (evs.filter Event.isAnswer).length = 2 * s.params.l →
    ∃ t : State, core.run (evs.length + 2) s = .next t ∧
      t.status = { busy := false, done := true, err := false,
                   wbusy := s.status.wbusy || evs.any (Event.isDropped s.platform), code := .none } ∧
      t.errAddr = 0 ∧ t.engine = none ∧ t.params = s.params ∧ t.irqEn = s.irqEn ∧ t.result = s.result ∧ t.agenda = rest ∧
      (∀ o k, o < s.params.l → k < 4 →
        t.mem.read (s.params.dst.toNat + 4 * o + k) = s.mem.read (s.params.src.toNat + 4 * paletteIndex o + k)) ∧
      (∀ a, ¬inDest .palperm s.params a → t.mem.read a = s.mem.read a)

/-- R72, R62, R165: at every moment of a bulk command, so after BUS_ERROR too, each destination byte holds its old
value or the value the command writes, and no other byte is written, the source's among them. The host may read, and
write in vain, meanwhile. -/
def Obligations.PartialCommandLeavesOldOrNew : Prop :=
  ∀ (op : BulkOp) (s u t : State), s.Inv → s.status.busy = false → exec op.instr s = .next u → Underway u t →
    (∀ e k a, e < op.elements s.params → k < op.accessBytes → a = s.params.dst.toNat + op.destOffset s.params e + k →
      t.mem.read a = s.mem.read a ∨
      t.mem.read a = s.mem.read (s.params.src.toNat + op.sourceOffset s.params e + k)) ∧
    (∀ a, ¬inDest op s.params a → t.mem.read a = s.mem.read a) ∧
    (op.legal s.params = true → ∀ k, k < op.length s.params →
      t.mem.read (s.params.src.toNat + k) = s.mem.read (s.params.src.toNat + k))

/-- R191, R190: a reset in the middle of a bulk command writes no memory, and whichever writes already issued land
after it, each destination byte holds its old value or the value the command writes. Which writes are already issued
is the model's over-estimate (log entry 9). A byte that a write from before an earlier reset may still reach is
left out. -/
def Obligations.ResetLeavesOldOrNew : Prop :=
  ∀ (op : BulkOp) (s u t : State) (late : List (Nat × Bool)), s.Inv → s.status.busy = false →
    exec op.instr s = .next u → Underway u t →
    (resetBlock t).mem = t.mem ∧
    (∀ e k a, e < op.elements s.params → k < op.accessBytes → a = s.params.dst.toNat + op.destOffset s.params e + k →
      valuesAt s.late a = [] →
      (endLate late (resetBlock t)).mem.read a = s.mem.read a ∨
      (endLate late (resetBlock t)).mem.read a =
        s.mem.read (s.params.src.toNat + op.sourceOffset s.params e + k)) ∧
    (∀ a, ¬inDest op s.params a → valuesAt s.late a = [] → (endLate late (resetBlock t)).mem.read a = s.mem.read a)

/-- R57, R51: over one run of a bulk command's transfers, each byte of the source range is read by exactly one
element and each byte of the destination range is written by exactly one, and none lies outside. -/
def Obligations.EveryByteMovesExactlyOnce : Prop :=
  ∀ (op : BulkOp) (p : Params), op.legal p = true →
    (∀ k, k < op.length p → ∃! e, e < op.elements p ∧ op.sourceOffset p e ≤ k ∧ k < op.sourceOffset p e + op.accessBytes) ∧
    (∀ k, k < op.length p → ∃! e, e < op.elements p ∧ op.destOffset p e ≤ k ∧ k < op.destOffset p e + op.accessBytes) ∧
    (∀ e, e < op.elements p → op.sourceOffset p e + op.accessBytes ≤ op.length p ∧
      op.destOffset p e + op.accessBytes ≤ op.length p)

/-- R109: DESWZ8 and SWZ8 undo each other, in both orders. -/
def Obligations.SwizzleRoundTrip : Prop :=
  ∀ (first second : BulkOp) (s t s' t' : State),
    (first = .deswz8 ∧ second = .swz8) ∨ (first = .swz8 ∧ second = .deswz8) →
    s.Inv → s'.Inv → runsTo first s t → runsTo second s' t' →
    s'.params.width = s.params.width → s'.params.height = s.params.height →
    (∀ k, k < s.params.w * s.params.h →
      s'.mem.read (s'.params.src.toNat + k) = t.mem.read (s.params.dst.toNat + k)) →
    ∀ k, k < s.params.w * s.params.h →
      t'.mem.read (s'.params.dst.toNat + k) = s.mem.read (s.params.src.toNat + k)

/-- R137: PALPERM undoes itself. -/
def Obligations.PaletteRoundTrip : Prop :=
  ∀ s t s' t' : State, s.Inv → s'.Inv → runsTo .palperm s t → runsTo .palperm s' t' →
    s'.params.palLen = s.params.palLen →
    (∀ k, k < 4 * s.params.l → s'.mem.read (s'.params.src.toNat + k) = t.mem.read (s.params.dst.toNat + k)) →
    ∀ k, k < 4 * s.params.l → t'.mem.read (s'.params.dst.toNat + k) = s.mem.read (s.params.src.toNat + k)

/-! ## The address and index functions -/

/-- R103: A is a bijection from the pixels onto the offsets. -/
def Obligations.SwizzleIsBijective : Prop :=
  ∀ w h, dimOK w h = true →
    (∀ x y, x < w → y < h → swizzleOffset x y w < w * h) ∧
    (∀ x y x' y', x < w → y < h → x' < w → y' < h → swizzleOffset x y w = swizzleOffset x' y' w → x = x' ∧ y = y') ∧
    (∀ k, k < w * h → ∃ x y, x < w ∧ y < h ∧ swizzleOffset x y w = k)

/-- R104: the closed form of A. -/
def Obligations.SwizzleClosedForm : Prop :=
  ∀ x y w : Nat,
    swizzleOffset x y w =
      16 * w * (y >>> 4) + 32 * (x >>> 4) + 2 * w * (2 * ((y >>> 2) &&& 3) + (y &&& 1))
        + 4 * ((x &&& 7) ^^^ (4 * (((y + 2) >>> 2) &&& 1))) + ((y >>> 1) &&& 1) + 2 * ((x >>> 3) &&& 1)

/-- R131: the loop nest that defines P. -/
def Obligations.PaletteLoopNest : Prop :=
  ∀ part block stripe color : Nat, block < 2 → stripe < 2 → color < 8 →
    paletteIndex (part * 32 + block * 16 + stripe * 8 + color) = part * 32 + block * 8 + stripe * 16 + color

/-- R132: P exchanges bits 3 and 4 and keeps every other bit, as the formula, bit by bit, in groups of 32, and by
its first 32 values. -/
def Obligations.PaletteClosedForm : Prop :=
  (∀ o : Nat, paletteIndex o = (o - (o &&& 0x18)) ||| (((o >>> 3) &&& 1) <<< 4) ||| (((o >>> 4) &&& 1) <<< 3)) ∧
  (∀ o k : Nat, (paletteIndex o).testBit k = o.testBit (if k = 3 then 4 else if k = 4 then 3 else k)) ∧
  (∀ g j : Nat, j < 8 → paletteIndex (32 * g + j) = 32 * g + j ∧ paletteIndex (32 * g + 8 + j) = 32 * g + 16 + j ∧
    paletteIndex (32 * g + 16 + j) = 32 * g + 8 + j ∧ paletteIndex (32 * g + 24 + j) = 32 * g + 24 + j) ∧
  (List.range 32).map paletteIndex =
    [0, 1, 2, 3, 4, 5, 6, 7, 16, 17, 18, 19, 20, 21, 22, 23, 8, 9, 10, 11, 12, 13, 14, 15, 24, 25, 26, 27, 28, 29, 30, 31]

/-- R133: P is its own inverse, keeps every aligned group of 32, and is a bijection on every legal length. -/
def Obligations.PaletteIsInvolution : Prop :=
  (∀ o, paletteIndex (paletteIndex o) = o) ∧ (∀ o, paletteIndex o / 32 = o / 32) ∧
  (∀ l, palLenOK l = true → (∀ o, o < l → paletteIndex o < l) ∧
    (∀ o o', paletteIndex o = paletteIndex o' → o = o') ∧ (∀ k, k < l → ∃ o, o < l ∧ paletteIndex o = k))

/-! ## Registers -/

/-- R47, R190, R191: reset gives every register its value, empties the engine, lowers IRQ and leaves memory. -/
def Obligations.ResetValues : Prop :=
  (∀ r, readReg State.reset r = if r = .palLen then 0x00000100 else 0) ∧ State.reset.engine = none ∧
  State.reset.irq = false ∧
  ∀ s : State, resets s → ∃ t, step s = .next t ∧
    (∀ r, readReg t r = if r = .palLen then 0x00000100 else 0) ∧ t.engine = none ∧ t.irq = false ∧ t.mem = s.mem

/-- R26, R161: STATUS as the host reads it, field by field, and the value of each error code. -/
def Obligations.StatusWordLayout : Prop :=
  (∀ s : State,
    (readReg s .status).getLsbD 0 = s.status.busy ∧ (readReg s .status).getLsbD 1 = s.status.done ∧
    (readReg s .status).getLsbD 2 = s.status.err ∧ (readReg s .status).getLsbD 3 = s.status.wbusy ∧
    (readReg s .status).extractLsb' 4 4 = 0 ∧ (readReg s .status).extractLsb' 8 8 = s.status.code.toByte ∧
    (readReg s .status).extractLsb' 16 16 = 0) ∧
  ErrCode.none.toByte = 0x00 ∧ ErrCode.illegalCmd.toByte = 0x01 ∧ ErrCode.badDim.toByte = 0x02 ∧
  ErrCode.badPallen.toByte = 0x03 ∧ ErrCode.coordRange.toByte = 0x04 ∧ ErrCode.addrRange.toByte = 0x05 ∧
  ErrCode.overlap.toByte = 0x06 ∧ ErrCode.misaligned.toByte = 0x07 ∧ ErrCode.busError.toByte = 0x08

/-- R32: a host write to STATUS, BUSY or not. -/
def Obligations.StatusWriteOneToClear : Prop :=
  ∀ (s : State) (v : Word), ∃ t : State, writeReg .status v s = .next t ∧
    t.status.done = (if v.getLsbD 1 = true then false else s.status.done) ∧
    t.status.err = (if v.getLsbD 2 = true then false else s.status.err) ∧
    t.status.code = (if v.getLsbD 2 = true then .none else s.status.code) ∧
    t.status.wbusy = (if v.getLsbD 3 = true then false else s.status.wbusy) ∧
    t.status.busy = s.status.busy ∧ t = { s with status := t.status } ∧
    (v.getLsbD 1 = false → v.getLsbD 2 = false → v.getLsbD 3 = false → t = s)

/-- R24: reserved offsets and bits, CMD, RESULT and ERRADDR, none of which raises an error. -/
def Obligations.ReservedSpaceReadsZero : Prop :=
  ∀ (s : State) (v : Word),
    (∀ offset, 0x30 ≤ offset → offset < 0x100 →
      windowRead offset s = { s with readData := 0 } ∧ windowWrite offset v s = .next s) ∧
    readReg s .cmd = 0 ∧ writeReg .result v s = .next s ∧ writeReg .errAddr v s = .next s ∧
    (readReg s .ctrl).extractLsb' 1 31 = 0 ∧ (readReg s .status).extractLsb' 4 4 = 0 ∧
    (readReg s .status).extractLsb' 16 16 = 0 ∧ (readReg s .width).extractLsb' 16 16 = 0 ∧
    (readReg s .height).extractLsb' 16 16 = 0 ∧ (readReg s .palLen).extractLsb' 9 23 = 0 ∧
    (readReg s .index).extractLsb' 16 16 = 0 ∧
    writeReg .ctrl v s = writeReg .ctrl (v &&& 0x1) s ∧ writeReg .status v s = writeReg .status (v &&& 0xE) s ∧
    writeReg .width v s = writeReg .width (v &&& 0xFFFF) s ∧ writeReg .height v s = writeReg .height (v &&& 0xFFFF) s ∧
    writeReg .palLen v s = writeReg .palLen (v &&& 0x1FF) s ∧ writeReg .index v s = writeReg .index (v &&& 0xFFFF) s

/-- R22, R25, R34 to R40: the register map for writes, by offset. While BUSY = 0 a host write stores the bits that are
not reserved, the register reads them back, and nothing else changes. -/
def Obligations.ParameterRegistersReadBack : Prop :=
  (∀ (s : State) (offset v : Word) (wins : List Bool) (rest : List Event) (t : State), s.status.busy = false →
    s.agenda = .hostWrite (s.platform.base + offset) 4 v.toNat wins :: rest →
    (offset, t) ∈ [
      ((0x00 : Word), { s with agenda := rest, irqEn := v.getLsbD 0 }),
      (0x0C, { s with agenda := rest, params := { s.params with src := v } }),
      (0x10, { s with agenda := rest, params := { s.params with dst := v } }),
      (0x14, { s with agenda := rest, params := { s.params with width := v.setWidth 16 } }),
      (0x18, { s with agenda := rest, params := { s.params with height := v.setWidth 16 } }),
      (0x1C, { s with agenda := rest, params := { s.params with palLen := v.setWidth 9 } }),
      (0x20, { s with agenda := rest, params := { s.params with coord := v } }),
      (0x24, { s with agenda := rest, params := { s.params with index := v.setWidth 16 } })] →
    step s = .next t) ∧
  (∀ (s : State) (v : Word), s.status.busy = false →
    ∀ r mask, r = .ctrl ∧ mask = 0x1 ∨ (r = .src ∨ r = .dst ∨ r = .coord) ∧ mask = 0xFFFFFFFF ∨
        (r = .width ∨ r = .height ∨ r = .index) ∧ mask = 0xFFFF ∨ r = .palLen ∧ mask = (0x1FF : Word) →
      ∃ t, writeReg r v s = .next t ∧ readReg t r = v &&& mask ∧ (∀ r', r' ≠ r → readReg t r' = readReg s r'))

/-- R23, R170: an access to the window that is not 32-bit and 4-byte aligned, of whatever other width, faults the
host's step. -/
def Obligations.IllegalRegisterAccessFaults : Prop :=
  ∀ (s : State) (addr : Word) (width v : Nat) (wins : List Bool) (picks : List Nat) (rest : List Event),
    windowOffset s.platform addr < 256 → (width ≠ 4 ∨ windowOffset s.platform addr % 4 ≠ 0) →
    (s.agenda = .hostWrite addr width v wins :: rest → step s = .fault .hostAccess) ∧
    (s.agenda = .hostRead addr width picks :: rest → step s = .fault .hostAccess)

/-- R28, R29, R151: what sets and what clears DONE and ERR. That DONE rises at a bus answer of its own, with no transfer
left before it, is the model's reading (log entry 17). -/
def Obligations.OutcomeFlagsLifetime : Prop :=
  ∀ s t : State, s.Inv → step s = .next t →
    (s.status.done = false → t.status.done = true →
      (s.status.busy = false ∧ ∃ i, writesReg s .cmd (encode i)) ∨ (busAnswers s ∧ ∃ g, s.engine = some g ∧ g.todo = [])) ∧
    (s.status.err = false → t.status.err = true →
      (s.status.busy = false ∧ ∃ w, writesReg s .cmd w) ∨ (busAnswers s ∧ t.status.code = .busError)) ∧
    (s.status.done = true → t.status.done = false →
      (∃ v, writesReg s .status v ∧ v.getLsbD 1 = true) ∨ (∃ w, writesReg s .cmd w) ∨ resets s) ∧
    (s.status.err = true → t.status.err = false →
      (∃ v, writesReg s .status v ∧ v.getLsbD 2 = true) ∨ (∃ w, writesReg s .cmd w) ∨ resets s)

/-- R30: WBUSY is set by a dropped write alone, and cleared by a write of bit 3 to STATUS or by reset alone. -/
def Obligations.WbusyLifetime : Prop :=
  ∀ s t : State, step s = .next t →
    (s.status.wbusy = false → t.status.wbusy = true →
      s.status.busy = true ∧ ∃ r v, writesReg s r v ∧
        (r = .cmd ∨ r = .src ∨ r = .dst ∨ r = .width ∨ r = .height ∨ r = .palLen ∨ r = .coord ∨ r = .index)) ∧
    (s.status.busy = true → (∃ r v, writesReg s r v ∧
        (r = .cmd ∨ r = .src ∨ r = .dst ∨ r = .width ∨ r = .height ∨ r = .palLen ∨ r = .coord ∨ r = .index)) →
      t.status.wbusy = true) ∧
    (s.status.wbusy = true → t.status.wbusy = false →
      (∃ v, writesReg s .status v ∧ v.getLsbD 3 = true) ∨ resets s)

/-- R41: RESULT is written by AXLATE and PXLATE alone, when they complete without error, and by reset. -/
def Obligations.ResultWriters : Prop :=
  ∀ s t : State, step s = .next t → t.result ≠ s.result →
    ((writesReg s .cmd (encode .axlate) ∨ writesReg s .cmd (encode .pxlate)) ∧ t.status.done = true ∧
      t.status.err = false) ∨ resets s

/-- R42: ERRADDR is written by a bus error, by acceptance (with 0) and by reset. -/
def Obligations.ErrAddrWriters : Prop :=
  ∀ s t : State, step s = .next t → t.errAddr ≠ s.errAddr →
    (busAnswers s ∧ t.status.err = true ∧ t.status.code = .busError) ∨
    (s.status.busy = false ∧ (∃ w, writesReg s .cmd w) ∧ t.errAddr = 0) ∨ (resets s ∧ t.errAddr = 0)

/-- R20, R25, R43: the parameter registers and CTRL change by a host write to them or by reset alone, the parameter
registers never while BUSY = 1; no step changes the platform (R6). -/
def Obligations.HostRegistersAreTheHosts : Prop :=
  ∀ s t : State, step s = .next t →
    (t.params ≠ s.params →
      (s.status.busy = false ∧ ∃ r v, writesReg s r v ∧
        (r = .src ∨ r = .dst ∨ r = .width ∨ r = .height ∨ r = .palLen ∨ r = .coord ∨ r = .index)) ∨ resets s) ∧
    (t.irqEn ≠ s.irqEn → (∃ v, writesReg s .ctrl v ∧ t.irqEn = v.getLsbD 0) ∨ resets s) ∧
    t.platform = s.platform

/-- R44, R166: what IRQ does at the events that move it: the acceptance of a command, the bus answer that ends a bulk
command, with DONE or with BUS_ERROR, and the STATUS write that clears the cause. -/
def Obligations.IrqFollowsTheOutcome : Prop :=
  ∀ s : State,
    (s.irqEn = false → s.irq = false) ∧
    (s.Inv → s.status.busy = true → s.irq = false) ∧
    (∀ i t, s.irqEn = true → s.status.busy = false → exec i s = .next t → (t.irq = true ↔ t.status.busy = false)) ∧
    (∀ v t, v.getLsbD 1 = true → v.getLsbD 2 = true → writeReg .status v s = .next t → t.irq = false) ∧
    (∀ v t, v.getLsbD 1 = true → s.status.err = false → writeReg .status v s = .next t → t.irq = false) ∧
    (∀ v t, v.getLsbD 2 = true → s.status.done = false → writeReg .status v s = .next t → t.irq = false) ∧
    (∀ v t, v.getLsbD 1 = false → v.getLsbD 2 = false → writeReg .status v s = .next t → t.irq = s.irq) ∧
    (∀ pick picks, s.Inv → s.irqEn = true → s.status.busy = true →
      ((busAnswer pick picks s).irq = true ↔ (busAnswer pick picks s).status.busy = false)) ∧
    (∀ b, State.irq { s with status := { s.status with wbusy := b } } = s.irq)

/-! ## Memory and the host -/

/-- R51, R70, R190: a byte of memory changes only by an answer of the bus to the engine, by a late write, or by a host
write outside the window; never by a register access, a CMD write among them, nor by reset. -/
def Obligations.MemoryWriters : Prop :=
  ∀ (s t : State) (a : Nat), step s = .next t → t.mem.read a ≠ s.mem.read a →
    busAnswers s ∨ (∃ pick lands, s.agenda.head? = some (.lateWrite pick lands)) ∨
    (∃ addr width v wins, s.agenda.head? = some (.hostWrite addr width v wins) ∧
      touchesWindow s.platform addr width = false)

/-- R63: while a bulk command runs, a host read of a byte of its destination may return what it might have returned
before the command, may return the value the command writes, and returns nothing else; host reads of any other byte
return what they would have. What a read may return is a free choice beside the event (log entries 2 and
13); for an element that will not move without error the value to come is log entry 28. -/
def Obligations.RacingReadReturnsOldOrNew : Prop :=
  ∀ (op : BulkOp) (s u t : State), s.Inv → s.status.busy = false →
    exec op.instr s = .next u → Underway u t → t.status.busy = true →
    (∀ e k a, e < op.elements s.params → k < op.accessBytes → a = s.params.dst.toNat + op.destOffset s.params e + k →
      ∀ b : Byte, (∃ pick, hostByte t a pick = b) ↔
        (∃ pick, hostByte s a pick = b) ∨ b = s.mem.read (s.params.src.toNat + op.sourceOffset s.params e + k)) ∧
    (∀ a pick, ¬inDest op s.params a → hostByte t a pick = hostByte s a pick)

/-- R63, R64, R197: as long as no STATUS read has shown the end of a bulk command, also after its completion or its
BUS_ERROR and with DONE cleared unread, a host read of a byte of its destination may return what it might have
returned before the command, and returns nothing but that or the value the command writes; that value it may return
while BUSY or DONE is 1. Host reads of any other byte return what they would have. BUSY = 0 on its own ends none of
this, and neither does the host's cache maintenance before that STATUS read; it ends only what an earlier command,
whose end was shown, left at a byte (log entries 2, 12, 13 and 28). -/
def Obligations.UnreadEndKeepsTheRaces : Prop :=
  ∀ (maintained : Bool) (op : BulkOp) (s u t : State), s.Inv → s.status.busy = false → exec op.instr s = .next u →
    op.legal s.params = true → Unread maintained u t →
    (∀ e k a, e < op.elements s.params → k < op.accessBytes → a = s.params.dst.toNat + op.destOffset s.params e + k →
      (∀ pick, (∃ pick', hostByte s a pick' = hostByte t a pick) ∨
        hostByte t a pick = s.mem.read (s.params.src.toNat + op.sourceOffset s.params e + k)) ∧
      ((maintained = true → ∀ x ∈ s.stale, x.addr = a → x.phase ≠ .shown) →
        ∀ pick', ∃ pick, hostByte t a pick = hostByte s a pick') ∧
      (t.status.busy = true ∨ t.status.done = true →
        ∃ pick, hostByte t a pick = s.mem.read (s.params.src.toNat + op.sourceOffset s.params e + k))) ∧
    (∀ a, ¬inDest op s.params a →
      (∀ pick, ∃ pick', hostByte t a pick = hostByte s a pick') ∧
      ((maintained = true → ∀ x ∈ s.stale, x.addr = a → x.phase ≠ .shown) →
        ∀ pick, hostByte t a pick = hostByte s a pick))

/-- R64, R197: a STATUS read has shown the end of the last accepted command. At a byte that command has written, or
that no other command left in question, every host read returns what memory holds, whatever was chosen for it: on a
coherent platform at once, on one that is not after the host's maintenance, which may come later too, with another
CMD write between that does not reach the byte; before the maintenance such a platform may still return all it might
have returned before the STATUS read (log entry 13). A host write of the byte races with no command any more (R196).
That the DONE must be that command's own is the model's reading (log entry 12). -/
def Obligations.CompletionPointEndsTheRaces : Prop :=
  ∀ (s : State) (a pick : Nat) (rest : List Event) (picks : List Nat), s.Inv → s.status.showsEnd = true →
    (((∃ w ∈ s.written, w.phase = .unseen ∧ w.addr = a) ∨ ∀ t ∈ s.stale, t.addr = a → t.phase = .unseen) →
      (s.platform.coherent = true →
        s.agenda = .hostRead (s.platform.base + 0x04) 4 picks :: rest →
        ∃ t, step s = .next t ∧ t.readData = (readReg s .status).toNat ∧ t.mem = s.mem ∧
          hostByte t a pick = s.mem.read a) ∧
      (s.platform.coherent = false →
        s.agenda = .hostRead (s.platform.base + 0x04) 4 picks :: .maintain :: rest →
        ∃ t, core.run 2 s = .next t ∧ t.mem = s.mem ∧ hostByte t a pick = s.mem.read a) ∧
      (∀ w, s.platform.coherent = false →
        s.agenda = .hostRead (s.platform.base + 0x04) 4 picks :: cmdWrite s w :: .maintain :: rest →
        ∃ t, core.run 3 s = .next t ∧ t.mem = s.mem ∧ (incoming t a = [] → hostByte t a pick = s.mem.read a))) ∧
    (s.platform.coherent = false →
      s.agenda = .hostRead (s.platform.base + 0x04) 4 picks :: rest →
      ∃ t, step s = .next t ∧ hostByte t a pick = hostByte s a pick) ∧
    (((∃ w ∈ s.written, w.phase = .unseen ∧ w.addr = a) ∨ ∀ w ∈ s.written, w.addr = a → w.phase = .unseen) →
      s.agenda = .hostRead (s.platform.base + 0x04) 4 picks :: rest →
      ∃ t, step s = .next t ∧ racing t a = false)

/-- What the host gets: a byte read outside the window returns `hostByte`; and the register map for reads (R22), by
offset, the reserved space and CMD reading 0 (R24). -/
def Obligations.HostReadReturnsItsValue : Prop :=
  (∀ (s : State) (addr : Word) (pick : Nat) (rest : List Event), s.agenda = .hostRead addr 1 [pick] :: rest →
    256 ≤ windowOffset s.platform addr → memOK s.platform addr.toNat = true →
    step s = .next { s with agenda := rest, readData := (hostByte s addr.toNat pick).toNat }) ∧
  (∀ (s : State) (offset : Word) (v : Nat) (picks : List Nat) (rest : List Event),
    s.agenda = .hostRead (s.platform.base + offset) 4 picks :: rest →
    (offset, v) ∈ [((0x00 : Word), if s.irqEn then 1 else 0), (0x04, s.status.toWord.toNat), (0x08, 0),
      (0x0C, s.params.src.toNat), (0x10, s.params.dst.toNat), (0x14, s.params.width.toNat),
      (0x18, s.params.height.toNat), (0x1C, s.params.palLen.toNat), (0x20, s.params.coord.toNat),
      (0x24, s.params.index.toNat), (0x28, s.result.toNat), (0x2C, s.errAddr.toNat)] ∨
      (0x30 ≤ offset.toNat ∧ offset.toNat < 0x100 ∧ offset.toNat % 4 = 0 ∧ v = 0) →
    ∃ t, step s = .next t ∧ t.readData = v ∧ (offset ≠ 0x04 → t = { s with agenda := rest, readData := v }))

/-- A host write of one byte outside the window. With no race it is kept; in a race with a write that has landed
memory holds the host's value or the command's, as the event says, and in one with a write still to come the host's
(R63). No other byte changes. That the writes of an earlier command which a reset left behind no longer reach that
byte is the model's reading of R191 (log entry 11). -/
def Obligations.QuietHostWriteIsKept : Prop :=
  ∀ (s : State) (addr : Word) (v : Nat) (wins : Bool) (rest : List Event), s.Inv →
    s.agenda = .hostWrite addr 1 v [wins] :: rest → 256 ≤ windowOffset s.platform addr →
    memOK s.platform addr.toNat = true →
    ∃ t, step s = .next t ∧
      (racing s addr.toNat = false ∨ wins = true ∨ tracesAt s.written addr.toNat = [] →
        t.mem.read addr.toNat = BitVec.ofNat 8 v) ∧
      (∀ c l, wins = false → tracesAt s.written addr.toNat = c :: l → t.mem.read addr.toNat = c) ∧
      (racing s addr.toNat = false → ∀ pick, hostByte t addr.toNat pick = BitVec.ofNat 8 v) ∧
      (∀ a, a ≠ addr.toNat → t.mem.read a = s.mem.read a) ∧ (∀ c ∈ t.late, c.1 ≠ addr.toNat) ∧
      (∀ g, s.engine = some g → ∃ g', t.engine = some g' ∧ g'.todo = g.todo ∧
        s.mem.read addr.toNat ∈ valuesAt g'.oldSource addr.toNat)

/-! ## Races over a whole command -/

/-- R63: a host write of a byte of the destination, at any moment of a bulk command. Whatever the bus answers and the
host reads afterwards, the byte holds the host's value or the command's, after BUS_ERROR too; and once the command's
write has landed, until its end is observed, each of the two is kept for some choice. A byte that an earlier command
has written, whose end was never observed, is left out. -/
def Obligations.RacingWriteKeepsHostsOrCommands : Prop :=
  ∀ (op : BulkOp) (s u t v w : State) (e k : Nat) (addr : Word) (n : Nat) (wins : Bool), s.Inv →
    s.status.busy = false → exec op.instr s = .next u → op.legal s.params = true → Underway u t →
    e < op.elements s.params → k < op.accessBytes →
    addr.toNat = s.params.dst.toNat + op.destOffset s.params e + k → tracesAt s.written addr.toNat = [] →
    256 ≤ windowOffset s.platform addr → deliver (.hostWrite addr 1 n [wins]) t = .next v → Underway v w →
    (w.mem.read addr.toNat = BitVec.ofNat 8 n ∨
      w.mem.read addr.toNat = s.mem.read (s.params.src.toNat + op.sourceOffset s.params e + k)) ∧
    (tracesAt t.written addr.toNat ≠ [] → v.mem.read addr.toNat =
      if wins then BitVec.ofNat 8 n else s.mem.read (s.params.src.toNat + op.sourceOffset s.params e + k)) ∧
    (∀ a, a ≠ addr.toNat → ¬inDest op s.params a → w.mem.read a = s.mem.read a)

/-- R63: a host write of a byte of the source, at any moment of a bulk command. Whatever the bus answers and the host
reads afterwards, the byte that the command moves is the old or the new value, every other byte moves as before, and
the host's value stands. A byte that an earlier command has written, whose end was never observed, is left out. -/
def Obligations.RacingSourceWriteMovesOldOrNew : Prop :=
  ∀ (op : BulkOp) (s u t v w : State) (addr : Word) (n : Nat) (wins : Bool), s.Inv →
    s.status.busy = false → exec op.instr s = .next u → op.legal s.params = true → Underway u t →
    s.params.src.toNat ≤ addr.toNat → addr.toNat < s.params.src.toNat + op.length s.params →
    tracesAt s.written addr.toNat = [] → 256 ≤ windowOffset s.platform addr →
    deliver (.hostWrite addr 1 n [wins]) t = .next v → Underway v w →
    w.mem.read addr.toNat = BitVec.ofNat 8 n ∧
    (∀ e k a b, e < op.elements s.params → k < op.accessBytes →
      a = s.params.dst.toNat + op.destOffset s.params e + k →
      b = s.params.src.toNat + op.sourceOffset s.params e + k →
      w.mem.read a = s.mem.read a ∨ w.mem.read a = s.mem.read b ∨ (b = addr.toNat ∧ w.mem.read a = BitVec.ofNat 8 n))

/-- R64, R197: a bulk command has completed, and the host reads STATUS. On a coherent platform every host read of the
destination then returns the byte the command moved there, whatever was chosen for it; on one that is not, after the
host's maintenance. -/
def Obligations.CompletedCommandIsVisible : Prop :=
  ∀ (op : BulkOp) (s t : State) (e k a pick : Nat), s.Inv → runsTo op s t → e < op.elements s.params →
    k < op.accessBytes → a = s.params.dst.toNat + op.destOffset s.params e + k →
    (s.platform.coherent = true → hostByte (windowRead 0x04 t) a pick =
      s.mem.read (s.params.src.toNat + op.sourceOffset s.params e + k)) ∧
    hostByte (maintain (windowRead 0x04 t)) a pick =
      s.mem.read (s.params.src.toNat + op.sourceOffset s.params e + k)

/-- R191: after a reset the host can rely on a byte it has rewritten, whatever a new command does elsewhere and
whichever writes of before the reset land. That such a landing no longer reaches the byte is log entry 11. -/
def Obligations.RewrittenByteIsReliableAfterReset : Prop :=
  ∀ (s t v : State) (addr : Word) (n : Nat) (wins : Bool) (late : List (Nat × Bool)), s.Inv → resets s →
    step s = .next t → 256 ≤ windowOffset s.platform addr →
    deliver (.hostWrite addr 1 n [wins]) t = .next v →
    (∀ pick, hostByte (endLate late v) addr.toNat pick = BitVec.ofNat 8 n) ∧
    (∀ (op : BulkOp) (p : Params) (u w : State), exec op.instr { endLate late v with params := p } = .next u →
      Underway u w → ¬inDest op p addr.toNat → ∀ pick, hostByte w addr.toNat pick = BitVec.ofNat 8 n)

/-! ## The invariant -/

/-- The machine right after reset meets the invariant. -/
def Obligations.InvariantHoldsAtReset : Prop := State.reset.Inv

/-- Every step keeps the invariant (R26, R42, R43, R45, R106): canonical memory, coherent STATUS, the engine empty
exactly while BUSY = 0 and else running the legal command that the parameter registers describe. -/
def Obligations.StepKeepsInvariant : Prop := ∀ s t : State, s.Inv → step s = .next t → t.Inv
end

