-- ==== Sys2Proof/Laws/Arithmetic.lean ====
section
/-! SUPPORT. The address function A and the legality checks as plain arithmetic, so that no later proof unfolds the
bit operations of R101. -/

namespace Sys2Proof.Machine

theorem and_two_eq (n : Nat) : n &&& 2 = 2 * (n / 2 % 2) := by
  have h : (n &&& 2) % 2 ^ 2 = (n % 2 ^ 2) &&& (2 % 2 ^ 2) := Nat.and_mod_two_pow
  have hle : n &&& 2 ≤ 2 := Nat.and_le_right
  rw [Nat.mod_eq_of_lt (by omega)] at h
  have hr : n % 2 ^ 2 < 4 := Nat.mod_lt _ (by decide)
  rw [h, show n / 2 % 2 = (n % 2 ^ 2) / 2 by omega]
  generalize n % 2 ^ 2 = r at hr
  interval_cases r <;> decide

/-- A as quotients and remainders. The column `2*(y/4) + y mod 2` counts runs of `2*W` bytes; the other terms lie
below `2*W`. -/
theorem swizzleOffset_eq (x y w : Nat) :
    swizzleOffset x y w =
      2 * w * (2 * (y / 4) + y % 2) + 32 * (x / 16) + 4 * ((x + 4 * ((y + 2) / 4 % 2)) % 8) + 2 * (x / 8 % 2) + y / 2 % 2 := by
  have h7 : ∀ n : Nat, n &&& 7 = n % 8 := fun n => Nat.and_two_pow_sub_one_eq_mod n 3
  have h1 : ∀ n : Nat, n &&& 1 = n % 2 := fun n => Nat.and_two_pow_sub_one_eq_mod n 1
  simp only [swizzleOffset, h7, h1, and_two_eq, Nat.shiftRight_eq_div_pow]
  have hy : y - y % 16 = 16 * (y / 16) := by omega
  have hp : ((y - y % 4) / 2 ^ 1 + y % 2) % 8 = 2 * (y / 4 % 4) + y % 2 := by omega
  have hq : 2 * (y / 4) + y % 2 = 8 * (y / 16) + (2 * (y / 4 % 4) + y % 2) := by omega
  rw [hy, hp, hq]
  have hx : (x - x % 16) * 2 = 32 * (x / 16) := by omega
  have hs : (x + (y + 2) / 2 ^ 2 % 2 * 4) % 8 * 4 = 4 * ((x + 4 * ((y + 2) / 4 % 2)) % 8) := by omega
  have hb : y / 2 ^ 1 % 2 + 2 * (x / 2 ^ 2 / 2 % 2) = 2 * (x / 8 % 2) + y / 2 % 2 := by omega
  rw [hx, hs, hb]
  ring

theorem dimOK_iff {w h : Nat} :
    dimOK w h = true ↔ 1 ≤ w ∧ w ≤ 4096 ∧ w % 16 = 0 ∧ 1 ≤ h ∧ h ≤ 4096 ∧ h % 4 = 0 := by
  simp [dimOK]

theorem palLenOK_iff {l : Nat} : palLenOK l = true ↔ 32 ≤ l ∧ l ≤ 256 ∧ l % 32 = 0 := by simp [palLenOK]

theorem outOfRange_eq_false {src dst : Word} {n : Nat} :
    outOfRange src dst n = false ↔ src.toNat + n ≤ 2 ^ 32 ∧ dst.toNat + n ≤ 2 ^ 32 := by
  simp [outOfRange]

theorem overlapping_eq_false {src dst : Word} {n : Nat} :
    overlapping src dst n = false ↔ dst.toNat + n ≤ src.toNat ∨ src.toNat + n ≤ dst.toNat := by
  simp only [overlapping, decide_eq_false_iff_not]
  omega

end Sys2Proof.Machine
end

