-- ==== Sys2Proof/Laws/State.lean ====
section
/-! SUPPORT. What each update of the state leaves in each field, one lemma per field, so that no later proof
unfolds a record update. -/

namespace Sys2Proof.Machine

section
variable (s : State)

/-! ### dropWrite -/

@[simp] theorem dropWrite_irqEn : (dropWrite s).irqEn = s.irqEn := rfl
@[simp] theorem dropWrite_status : (dropWrite s).status = { s.status with wbusy := true } := rfl
@[simp] theorem dropWrite_params : (dropWrite s).params = s.params := rfl
@[simp] theorem dropWrite_result : (dropWrite s).result = s.result := rfl
@[simp] theorem dropWrite_errAddr : (dropWrite s).errAddr = s.errAddr := rfl
@[simp] theorem dropWrite_engine : (dropWrite s).engine = s.engine := rfl
@[simp] theorem dropWrite_written : (dropWrite s).written = s.written := rfl
@[simp] theorem dropWrite_stale : (dropWrite s).stale = s.stale := rfl
@[simp] theorem dropWrite_late : (dropWrite s).late = s.late := rfl
@[simp] theorem dropWrite_mem : (dropWrite s).mem = s.mem := rfl
@[simp] theorem dropWrite_readData : (dropWrite s).readData = s.readData := rfl
@[simp] theorem dropWrite_platform : (dropWrite s).platform = s.platform := rfl
@[simp] theorem dropWrite_agenda : (dropWrite s).agenda = s.agenda := rfl

/-! ### accept -/

@[simp] theorem accept_irqEn : (accept s).irqEn = s.irqEn := rfl
@[simp] theorem accept_status : (accept s).status = { s.status with done := false, err := false, code := .none } := rfl
@[simp] theorem accept_params : (accept s).params = s.params := rfl
@[simp] theorem accept_result : (accept s).result = s.result := rfl
@[simp] theorem accept_errAddr : (accept s).errAddr = 0 := rfl
@[simp] theorem accept_engine : (accept s).engine = s.engine := rfl
@[simp] theorem accept_written : (accept s).written = s.written.map Trace.miss := rfl
@[simp] theorem accept_stale : (accept s).stale = s.stale.map Trace.miss := rfl
@[simp] theorem accept_late : (accept s).late = s.late := rfl
@[simp] theorem accept_mem : (accept s).mem = s.mem := rfl
@[simp] theorem accept_readData : (accept s).readData = s.readData := rfl
@[simp] theorem accept_platform : (accept s).platform = s.platform := rfl
@[simp] theorem accept_agenda : (accept s).agenda = s.agenda := rfl

/-! ### raiseError -/

@[simp] theorem raiseError_irqEn (c : ErrCode) (a : Word) : (raiseError c a s).irqEn = s.irqEn := rfl
@[simp] theorem raiseError_status (c : ErrCode) (a : Word) : (raiseError c a s).status = { s.status with busy := false, done := false, err := true, code := c } := rfl
@[simp] theorem raiseError_params (c : ErrCode) (a : Word) : (raiseError c a s).params = s.params := rfl
@[simp] theorem raiseError_result (c : ErrCode) (a : Word) : (raiseError c a s).result = s.result := rfl
@[simp] theorem raiseError_errAddr (c : ErrCode) (a : Word) : (raiseError c a s).errAddr = a := rfl
@[simp] theorem raiseError_engine (c : ErrCode) (a : Word) : (raiseError c a s).engine = none := rfl
@[simp] theorem raiseError_written (c : ErrCode) (a : Word) : (raiseError c a s).written = s.written := rfl
@[simp] theorem raiseError_stale (c : ErrCode) (a : Word) : (raiseError c a s).stale = s.stale := rfl
@[simp] theorem raiseError_late (c : ErrCode) (a : Word) : (raiseError c a s).late = s.late := rfl
@[simp] theorem raiseError_mem (c : ErrCode) (a : Word) : (raiseError c a s).mem = s.mem := rfl
@[simp] theorem raiseError_readData (c : ErrCode) (a : Word) : (raiseError c a s).readData = s.readData := rfl
@[simp] theorem raiseError_platform (c : ErrCode) (a : Word) : (raiseError c a s).platform = s.platform := rfl
@[simp] theorem raiseError_agenda (c : ErrCode) (a : Word) : (raiseError c a s).agenda = s.agenda := rfl

/-! ### acknowledge -/

@[simp] theorem acknowledge_irqEn (d e w : Bool) : (acknowledge d e w s).irqEn = s.irqEn := rfl
@[simp] theorem acknowledge_status (d e w : Bool) : (acknowledge d e w s).status = { busy := s.status.busy, done := s.status.done && !d, err := s.status.err && !e, wbusy := s.status.wbusy && !w, code := if e then .none else s.status.code } := rfl
@[simp] theorem acknowledge_params (d e w : Bool) : (acknowledge d e w s).params = s.params := rfl
@[simp] theorem acknowledge_result (d e w : Bool) : (acknowledge d e w s).result = s.result := rfl
@[simp] theorem acknowledge_errAddr (d e w : Bool) : (acknowledge d e w s).errAddr = s.errAddr := rfl
@[simp] theorem acknowledge_engine (d e w : Bool) : (acknowledge d e w s).engine = s.engine := rfl
@[simp] theorem acknowledge_written (d e w : Bool) : (acknowledge d e w s).written = s.written := rfl
@[simp] theorem acknowledge_stale (d e w : Bool) : (acknowledge d e w s).stale = s.stale := rfl
@[simp] theorem acknowledge_late (d e w : Bool) : (acknowledge d e w s).late = s.late := rfl
@[simp] theorem acknowledge_mem (d e w : Bool) : (acknowledge d e w s).mem = s.mem := rfl
@[simp] theorem acknowledge_readData (d e w : Bool) : (acknowledge d e w s).readData = s.readData := rfl
@[simp] theorem acknowledge_platform (d e w : Bool) : (acknowledge d e w s).platform = s.platform := rfl
@[simp] theorem acknowledge_agenda (d e w : Bool) : (acknowledge d e w s).agenda = s.agenda := rfl

/-! ### finish -/

@[simp] theorem finish_irqEn : (finish s).irqEn = s.irqEn := rfl
@[simp] theorem finish_status : (finish s).status = { s.status with done := true } := rfl
@[simp] theorem finish_params : (finish s).params = s.params := rfl
@[simp] theorem finish_result : (finish s).result = s.result := rfl
@[simp] theorem finish_errAddr : (finish s).errAddr = s.errAddr := rfl
@[simp] theorem finish_engine : (finish s).engine = s.engine := rfl
@[simp] theorem finish_written : (finish s).written = s.written := rfl
@[simp] theorem finish_stale : (finish s).stale = s.stale := rfl
@[simp] theorem finish_late : (finish s).late = s.late := rfl
@[simp] theorem finish_mem : (finish s).mem = s.mem := rfl
@[simp] theorem finish_readData : (finish s).readData = s.readData := rfl
@[simp] theorem finish_platform : (finish s).platform = s.platform := rfl
@[simp] theorem finish_agenda : (finish s).agenda = s.agenda := rfl

/-! ### startEngine -/

@[simp] theorem startEngine_irqEn (op : BulkOp) (l : List Transfer) : (startEngine op l s).irqEn = s.irqEn := rfl
@[simp] theorem startEngine_status (op : BulkOp) (l : List Transfer) : (startEngine op l s).status = { s.status with busy := true } := rfl
@[simp] theorem startEngine_params (op : BulkOp) (l : List Transfer) : (startEngine op l s).params = s.params := rfl
@[simp] theorem startEngine_result (op : BulkOp) (l : List Transfer) : (startEngine op l s).result = s.result := rfl
@[simp] theorem startEngine_errAddr (op : BulkOp) (l : List Transfer) : (startEngine op l s).errAddr = s.errAddr := rfl
@[simp] theorem startEngine_engine (op : BulkOp) (l : List Transfer) : (startEngine op l s).engine = some { op := op, todo := l, oldSource := [] } := rfl
@[simp] theorem startEngine_written (op : BulkOp) (l : List Transfer) : (startEngine op l s).written = s.written := rfl
@[simp] theorem startEngine_stale (op : BulkOp) (l : List Transfer) : (startEngine op l s).stale = s.stale := rfl
@[simp] theorem startEngine_late (op : BulkOp) (l : List Transfer) : (startEngine op l s).late = s.late := rfl
@[simp] theorem startEngine_mem (op : BulkOp) (l : List Transfer) : (startEngine op l s).mem = s.mem := rfl
@[simp] theorem startEngine_readData (op : BulkOp) (l : List Transfer) : (startEngine op l s).readData = s.readData := rfl
@[simp] theorem startEngine_platform (op : BulkOp) (l : List Transfer) : (startEngine op l s).platform = s.platform := rfl
@[simp] theorem startEngine_agenda (op : BulkOp) (l : List Transfer) : (startEngine op l s).agenda = s.agenda := rfl

/-! ### complete -/

@[simp] theorem complete_irqEn : (complete s).irqEn = s.irqEn := rfl
@[simp] theorem complete_status : (complete s).status = { s.status with busy := false, done := true } := rfl
@[simp] theorem complete_params : (complete s).params = s.params := rfl
@[simp] theorem complete_result : (complete s).result = s.result := rfl
@[simp] theorem complete_errAddr : (complete s).errAddr = s.errAddr := rfl
@[simp] theorem complete_engine : (complete s).engine = none := rfl
@[simp] theorem complete_written : (complete s).written = s.written := rfl
@[simp] theorem complete_stale : (complete s).stale = s.stale := rfl
@[simp] theorem complete_late : (complete s).late = s.late := rfl
@[simp] theorem complete_mem : (complete s).mem = s.mem := rfl
@[simp] theorem complete_readData : (complete s).readData = s.readData := rfl
@[simp] theorem complete_platform : (complete s).platform = s.platform := rfl
@[simp] theorem complete_agenda : (complete s).agenda = s.agenda := rfl

/-! ### observe -/

@[simp] theorem observe_irqEn : (observe s).irqEn = s.irqEn := rfl
@[simp] theorem observe_status : (observe s).status = s.status := rfl
@[simp] theorem observe_params : (observe s).params = s.params := rfl
@[simp] theorem observe_result : (observe s).result = s.result := rfl
@[simp] theorem observe_errAddr : (observe s).errAddr = s.errAddr := rfl
@[simp] theorem observe_engine : (observe s).engine = s.engine := rfl
@[simp] theorem observe_written : (observe s).written = s.written.filter fun t => !settles s t := rfl
@[simp] theorem observe_stale : (observe s).stale = if s.platform.coherent then s.stale.filter fun t => !settles s t else s.stale.map fun t => if settles s t then { t with phase := .shown } else t := rfl
@[simp] theorem observe_late : (observe s).late = s.late := rfl
@[simp] theorem observe_mem : (observe s).mem = s.mem := rfl
@[simp] theorem observe_readData : (observe s).readData = s.readData := rfl
@[simp] theorem observe_platform : (observe s).platform = s.platform := rfl
@[simp] theorem observe_agenda : (observe s).agenda = s.agenda := rfl

/-! ### maintain -/

@[simp] theorem maintain_irqEn : (maintain s).irqEn = s.irqEn := rfl
@[simp] theorem maintain_status : (maintain s).status = s.status := rfl
@[simp] theorem maintain_params : (maintain s).params = s.params := rfl
@[simp] theorem maintain_result : (maintain s).result = s.result := rfl
@[simp] theorem maintain_errAddr : (maintain s).errAddr = s.errAddr := rfl
@[simp] theorem maintain_engine : (maintain s).engine = s.engine := rfl
@[simp] theorem maintain_written : (maintain s).written = s.written := rfl
@[simp] theorem maintain_stale : (maintain s).stale = s.stale.filter fun t => decide (t.phase ≠ .shown) := rfl
@[simp] theorem maintain_late : (maintain s).late = s.late := rfl
@[simp] theorem maintain_mem : (maintain s).mem = s.mem := rfl
@[simp] theorem maintain_readData : (maintain s).readData = s.readData := rfl
@[simp] theorem maintain_platform : (maintain s).platform = s.platform := rfl
@[simp] theorem maintain_agenda : (maintain s).agenda = s.agenda := rfl

/-! ### landWrite -/

@[simp] theorem landWrite_irqEn (a : Nat) (bs : List Byte) : (landWrite a bs s).irqEn = s.irqEn := rfl
@[simp] theorem landWrite_status (a : Nat) (bs : List Byte) : (landWrite a bs s).status = s.status := rfl
@[simp] theorem landWrite_params (a : Nat) (bs : List Byte) : (landWrite a bs s).params = s.params := rfl
@[simp] theorem landWrite_result (a : Nat) (bs : List Byte) : (landWrite a bs s).result = s.result := rfl
@[simp] theorem landWrite_errAddr (a : Nat) (bs : List Byte) : (landWrite a bs s).errAddr = s.errAddr := rfl
@[simp] theorem landWrite_engine (a : Nat) (bs : List Byte) : (landWrite a bs s).engine = s.engine := rfl
@[simp] theorem landWrite_written (a : Nat) (bs : List Byte) : (landWrite a bs s).written = tracesOf a bs ++ s.written := rfl
@[simp] theorem landWrite_stale (a : Nat) (bs : List Byte) : (landWrite a bs s).stale = tracesOf a (readBytes s.mem a bs.length) ++ s.stale := rfl
@[simp] theorem landWrite_late (a : Nat) (bs : List Byte) : (landWrite a bs s).late = cellsOutside s.late a bs.length := rfl
@[simp] theorem landWrite_mem (a : Nat) (bs : List Byte) : (landWrite a bs s).mem = writeBytes s.mem a bs := rfl
@[simp] theorem landWrite_readData (a : Nat) (bs : List Byte) : (landWrite a bs s).readData = s.readData := rfl
@[simp] theorem landWrite_platform (a : Nat) (bs : List Byte) : (landWrite a bs s).platform = s.platform := rfl
@[simp] theorem landWrite_agenda (a : Nat) (bs : List Byte) : (landWrite a bs s).agenda = s.agenda := rfl

/-! ### resetBlock -/

@[simp] theorem resetBlock_irqEn : (resetBlock s).irqEn = false := rfl
@[simp] theorem resetBlock_status : (resetBlock s).status = State.reset.status := rfl
@[simp] theorem resetBlock_params : (resetBlock s).params = State.reset.params := rfl
@[simp] theorem resetBlock_result : (resetBlock s).result = 0 := rfl
@[simp] theorem resetBlock_errAddr : (resetBlock s).errAddr = 0 := rfl
@[simp] theorem resetBlock_engine : (resetBlock s).engine = none := rfl
@[simp] theorem resetBlock_written : (resetBlock s).written = [] := rfl
@[simp] theorem resetBlock_stale : (resetBlock s).stale = s.stale.map Trace.miss := rfl
@[simp] theorem resetBlock_late : (resetBlock s).late = issuedCells s ++ s.late := rfl
@[simp] theorem resetBlock_mem : (resetBlock s).mem = s.mem := rfl
@[simp] theorem resetBlock_readData : (resetBlock s).readData = s.readData := rfl
@[simp] theorem resetBlock_platform : (resetBlock s).platform = s.platform := rfl
@[simp] theorem resetBlock_agenda : (resetBlock s).agenda = s.agenda := rfl

end

end Sys2Proof.Machine
end

