-- ==== Sys2Proof/Laws/Exec.lean ====
section
/-! SUPPORT. What a CMD write does, said once: every command answers a next state, and each command's own
part ends in one of a few ways. -/

namespace Sys2Proof.Machine

/-- The part of a command that runs once it is accepted. -/
def bodyOf : Instr → State → State
  | .nop => finish
  | .deswz8 => runImage .deswz8
  | .swz8 => runImage .swz8
  | .palperm => runPalperm
  | .axlate => runAxlate
  | .pxlate => runPxlate

/-- Every command answers a next state. -/
theorem exec_eq (i : Instr) (s : State) : exec i s = .next (command (bodyOf i) s) := by cases i <;> rfl

theorem exec_next_iff {i : Instr} {s t : State} : exec i s = .next t ↔ t = command (bodyOf i) s := by
  rw [exec_eq]
  exact ⟨fun h => (Host.Outcome.next.inj h).symm, fun h => by rw [h]⟩

/-- A CMD write while BUSY = 1 is dropped. -/
theorem command_busy {s : State} (body : State → State) (h : s.status.busy = true) :
    command body s = dropWrite s := by simp [command, h]

/-- A CMD write while BUSY = 0 is accepted. -/
theorem command_idle {s : State} (body : State → State) (h : s.status.busy = false) :
    command body s = body (accept s) := by simp [command, h]

/-- The shared checks of the bulk commands end in one of three ways. -/
theorem startChecked_cases (op : BulkOp) (s : State) :
    (outOfRange s.params.src s.params.dst (op.length s.params) = true ∧ startChecked op s = raiseError .addrRange 0 s) ∨
    (outOfRange s.params.src s.params.dst (op.length s.params) = false ∧
      overlapping s.params.src s.params.dst (op.length s.params) = true ∧ startChecked op s = raiseError .overlap 0 s) ∨
    (outOfRange s.params.src s.params.dst (op.length s.params) = false ∧
      overlapping s.params.src s.params.dst (op.length s.params) = false ∧
      startChecked op s = startEngine op (plan op s.params) s) := by
  unfold startChecked
  split
  · next h => exact .inl ⟨h, rfl⟩
  · next h =>
    split
    · next h' => exact .inr (.inl ⟨by simpa using h, h', rfl⟩)
    · next h' => exact .inr (.inr ⟨by simpa using h, by simpa using h', rfl⟩)

theorem runImage_cases (op : BulkOp) (s : State) :
    (dimOK s.params.w s.params.h = false ∧ runImage op s = raiseError .badDim 0 s) ∨
    (dimOK s.params.w s.params.h = true ∧ runImage op s = startChecked op s) := by
  unfold runImage
  cases h : dimOK s.params.w s.params.h <;> simp

theorem runPalperm_cases (s : State) :
    (palLenOK s.params.l = false ∧ runPalperm s = raiseError .badPallen 0 s) ∨
    (palLenOK s.params.l = true ∧ misaligned s.params.src s.params.dst = true ∧ runPalperm s = raiseError .misaligned 0 s) ∨
    (palLenOK s.params.l = true ∧ misaligned s.params.src s.params.dst = false ∧ runPalperm s = startChecked .palperm s) := by
  unfold runPalperm
  cases h : palLenOK s.params.l <;> cases h' : misaligned s.params.src s.params.dst <;> simp

theorem runAxlate_cases (s : State) :
    (dimOK s.params.w s.params.h = false ∧ runAxlate s = raiseError .badDim 0 s) ∨
    (dimOK s.params.w s.params.h = true ∧ (s.params.w ≤ s.params.x ∨ s.params.h ≤ s.params.y) ∧
      runAxlate s = raiseError .coordRange 0 s) ∨
    (dimOK s.params.w s.params.h = true ∧ s.params.x < s.params.w ∧ s.params.y < s.params.h ∧
      runAxlate s = finish { s with result := BitVec.ofNat 32 (swizzleOffset s.params.x s.params.y s.params.w) }) := by
  unfold runAxlate
  cases h : dimOK s.params.w s.params.h
  · exact .inl ⟨rfl, rfl⟩
  · right
    by_cases hc : s.params.w ≤ s.params.x ∨ s.params.h ≤ s.params.y
    · exact .inl ⟨rfl, hc, by simp [hc]⟩
    · exact .inr ⟨rfl, by omega, by omega, by simp [hc]⟩

theorem runPxlate_cases (s : State) :
    (palLenOK s.params.l = false ∧ runPxlate s = raiseError .badPallen 0 s) ∨
    (palLenOK s.params.l = true ∧ s.params.l ≤ s.params.i ∧ runPxlate s = raiseError .coordRange 0 s) ∨
    (palLenOK s.params.l = true ∧ s.params.i < s.params.l ∧
      runPxlate s = finish { s with result := BitVec.ofNat 32 (paletteIndex s.params.i) }) := by
  unfold runPxlate
  cases h : palLenOK s.params.l
  · exact .inl ⟨rfl, rfl⟩
  · right
    by_cases hc : s.params.l ≤ s.params.i
    · exact .inl ⟨rfl, hc, by simp [hc]⟩
    · exact .inr ⟨rfl, by omega, by simp [hc]⟩

/-- Everything an accepted command can be after its own part: done, failed with one of its codes, or, for a
bulk command, started. -/
theorem body_cases (i : Instr) (s : State) :
    (∃ r, bodyOf i s = finish { s with result := r } ∧
      ((i = .nop ∧ r = s.result) ∨
       (i = .axlate ∧ dimOK s.params.w s.params.h = true ∧ s.params.x < s.params.w ∧ s.params.y < s.params.h ∧
         r = BitVec.ofNat 32 (swizzleOffset s.params.x s.params.y s.params.w)) ∨
       (i = .pxlate ∧ palLenOK s.params.l = true ∧ s.params.i < s.params.l ∧
         r = BitVec.ofNat 32 (paletteIndex s.params.i)))) ∨
    (∃ c, c ≠ ErrCode.none ∧ c ≠ ErrCode.busError ∧ c ≠ ErrCode.illegalCmd ∧ bodyOf i s = raiseError c 0 s) ∨
    (∃ op, i = op.instr ∧ op.legal s.params = true ∧ bodyOf i s = startEngine op (plan op s.params) s) := by
  have shared : ∀ op : BulkOp, bodyOf op.instr s = startChecked op s →
      (∀ _ : outOfRange s.params.src s.params.dst (op.length s.params) = false,
        ∀ _ : overlapping s.params.src s.params.dst (op.length s.params) = false, op.legal s.params = true) →
      (∃ c, c ≠ ErrCode.none ∧ c ≠ ErrCode.busError ∧ c ≠ ErrCode.illegalCmd ∧ bodyOf op.instr s = raiseError c 0 s) ∨
      (∃ op', op.instr = BulkOp.instr op' ∧ op'.legal s.params = true ∧
        bodyOf op.instr s = startEngine op' (plan op' s.params) s) := by
    intro op hb hl
    rcases startChecked_cases op s with ⟨-, h⟩ | ⟨-, -, h⟩ | ⟨h1, h2, h⟩
    · exact .inl ⟨.addrRange, by decide, by decide, by decide, hb.trans h⟩
    · exact .inl ⟨.overlap, by decide, by decide, by decide, hb.trans h⟩
    · exact .inr ⟨op, rfl, hl h1 h2, hb.trans h⟩
  cases i with
  | nop => exact .inl ⟨s.result, rfl, .inl ⟨rfl, rfl⟩⟩
  | deswz8 =>
    rcases runImage_cases .deswz8 s with ⟨-, h⟩ | ⟨hd, h⟩
    · exact .inr (.inl ⟨.badDim, by decide, by decide, by decide, h⟩)
    · exact .inr (shared .deswz8 h fun h1 h2 => by simp [BulkOp.legal, hd, h1, h2])
  | swz8 =>
    rcases runImage_cases .swz8 s with ⟨-, h⟩ | ⟨hd, h⟩
    · exact .inr (.inl ⟨.badDim, by decide, by decide, by decide, h⟩)
    · exact .inr (shared .swz8 h fun h1 h2 => by simp [BulkOp.legal, hd, h1, h2])
  | palperm =>
    rcases runPalperm_cases s with ⟨-, h⟩ | ⟨-, -, h⟩ | ⟨hp, ha, h⟩
    · exact .inr (.inl ⟨.badPallen, by decide, by decide, by decide, h⟩)
    · exact .inr (.inl ⟨.misaligned, by decide, by decide, by decide, h⟩)
    · exact .inr (shared .palperm h fun h1 h2 => by simp [BulkOp.legal, hp, ha, h1, h2])
  | axlate =>
    rcases runAxlate_cases s with ⟨-, h⟩ | ⟨-, -, h⟩ | ⟨hd, hx, hy, h⟩
    · exact .inr (.inl ⟨.badDim, by decide, by decide, by decide, h⟩)
    · exact .inr (.inl ⟨.coordRange, by decide, by decide, by decide, h⟩)
    · exact .inl ⟨_, h, .inr (.inl ⟨rfl, hd, hx, hy, rfl⟩)⟩
  | pxlate =>
    rcases runPxlate_cases s with ⟨-, h⟩ | ⟨-, -, h⟩ | ⟨hl, hi, h⟩
    · exact .inr (.inl ⟨.badPallen, by decide, by decide, by decide, h⟩)
    · exact .inr (.inl ⟨.coordRange, by decide, by decide, by decide, h⟩)
    · exact .inl ⟨_, h, .inr (.inr ⟨rfl, hl, hi, rfl⟩)⟩

end Sys2Proof.Machine
end

