-- ==== Sys2Proof/Laws/Memory.lean ====
section
/-! SUPPORT. The laws of memory: reads after writes, bytes elsewhere, and the canonical form that every
memory operation keeps. -/

namespace Sys2Proof.Machine

/-! ### One byte -/

@[simp] theorem Memory.read_nil (a : Nat) : Memory.read [] a = Memory.blank := rfl

theorem Memory.read_cons (k : Nat) (v : Byte) (m : Memory) (a : Nat) :
    Memory.read ((k, v) :: m) a = if k = a then v else Memory.read m a := rfl

/-- Below every listed address a canonical memory reads blank. -/
theorem Memory.read_of_wfFrom {lo : Nat} {m : Memory} (h : Memory.wfFrom lo m = true) {a : Nat} (ha : a < lo) :
    m.read a = Memory.blank := by
  induction m generalizing lo with
  | nil => rfl
  | cons c m ih =>
    obtain ⟨k, v⟩ := c
    simp only [Memory.wfFrom, Bool.and_eq_true, decide_eq_true_eq] at h
    rw [Memory.read_cons, if_neg (by omega), ih h.2 (by omega)]

theorem Memory.read_put {a : Nat} {b : Byte} {m : Memory} (h : Memory.wfFrom (a + 1) m = true) (c : Nat) :
    (Memory.put a b m).read c = if a = c then b else m.read c := by
  unfold Memory.put
  split
  · next hb =>
    split
    · next hc => subst hc; rw [Memory.read_of_wfFrom h (Nat.lt_succ_self _), hb]
    · rfl
  · rfl

theorem Memory.wfFrom_mono {lo lo' : Nat} {m : Memory} (h : Memory.wfFrom lo m = true) (hl : lo' ≤ lo) :
    Memory.wfFrom lo' m = true := by
  cases m with
  | nil => rfl
  | cons c m =>
    obtain ⟨k, v⟩ := c
    simp only [Memory.wfFrom, Bool.and_eq_true, decide_eq_true_eq] at h ⊢
    exact ⟨⟨⟨by omega, h.1.1.2⟩, h.1.2⟩, h.2⟩

theorem Memory.wfFrom_put {lo a : Nat} {b : Byte} {m : Memory} (h : Memory.wfFrom (a + 1) m = true)
    (hl : lo ≤ a) (ha : a < 2 ^ 32) : Memory.wfFrom lo (Memory.put a b m) = true := by
  unfold Memory.put
  split
  · exact Memory.wfFrom_mono h (by omega)
  · next hb =>
    simp only [Memory.wfFrom, Bool.and_eq_true, decide_eq_true_eq]
    exact ⟨⟨⟨hl, ha⟩, hb⟩, h⟩

theorem Memory.wfFrom_write {lo a : Nat} {m : Memory} (h : Memory.wfFrom lo m = true) (b : Byte)
    (hl : lo ≤ a) (ha : a < 2 ^ 32) : Memory.wfFrom lo (m.write a b) = true := by
  induction m generalizing lo with
  | nil => exact Memory.wfFrom_put rfl hl ha
  | cons c m ih =>
    obtain ⟨k, v⟩ := c
    have hk := h
    simp only [Memory.wfFrom, Bool.and_eq_true, decide_eq_true_eq] at hk
    simp only [Memory.write]
    split
    · next hlt =>
      refine Memory.wfFrom_put ?_ hl ha
      simp only [Memory.wfFrom, Bool.and_eq_true, decide_eq_true_eq]
      exact ⟨⟨⟨by omega, hk.1.1.2⟩, hk.1.2⟩, hk.2⟩
    · split
      · next heq => subst heq; exact Memory.wfFrom_put hk.2 hl ha
      · simp only [Memory.wfFrom, Bool.and_eq_true, decide_eq_true_eq]
        exact ⟨hk.1, ih hk.2 (by omega)⟩

/-- A write of a bus byte keeps the canonical form. -/
theorem Memory.wf_write {m : Memory} (h : m.wf = true) (a : Nat) (b : Byte) (ha : a < 2 ^ 32) :
    (m.write a b).wf = true :=
  Memory.wfFrom_write h b (Nat.zero_le _) ha

/-- What a byte reads as after a write of one byte, in a canonical memory. -/
theorem Memory.read_write_from {lo : Nat} {m : Memory} (h : Memory.wfFrom lo m = true) (a : Nat) (b : Byte) (c : Nat) :
    (m.write a b).read c = if a = c then b else m.read c := by
  induction m generalizing lo with
  | nil => exact Memory.read_put rfl c
  | cons d m ih =>
    obtain ⟨k, v⟩ := d
    have hk := h
    simp only [Memory.wfFrom, Bool.and_eq_true, decide_eq_true_eq] at hk
    simp only [Memory.write]
    split
    · next hlt =>
      refine Memory.read_put ?_ c
      simp only [Memory.wfFrom, Bool.and_eq_true, decide_eq_true_eq]
      exact ⟨⟨⟨by omega, hk.1.1.2⟩, hk.1.2⟩, hk.2⟩
    · split
      · next heq =>
        subst heq
        rw [Memory.read_put hk.2 c, Memory.read_cons]
        split <;> rfl
      · next hne =>
        rw [Memory.read_cons, Memory.read_cons, ih hk.2]
        split
        · next hkc => rw [if_neg (by omega)]
        · rfl

/-- Read after write: the byte written, and every other byte as before. -/
theorem Memory.read_write {m : Memory} (h : m.wf = true) (a : Nat) (b : Byte) (c : Nat) :
    (m.write a b).read c = if a = c then b else m.read c :=
  Memory.read_write_from h a b c

/-- Memory at reset is in its canonical form. -/
theorem reset_mem_wf : State.reset.mem.wf = true := rfl

/-! ### Runs of bytes -/

@[simp] theorem length_readBytes (m : Memory) (a n : Nat) : (readBytes m a n).length = n := by simp [readBytes]

theorem writeBytes_wf {m : Memory} (h : m.wf = true) (a : Nat) (bs : List Byte) (ha : a + bs.length ≤ 2 ^ 32) :
    (writeBytes m a bs).wf = true := by
  induction bs generalizing m a with
  | nil => exact h
  | cons b bs ih =>
    simp only [List.length_cons] at ha
    exact ih (Memory.wf_write h a b (by omega)) _ (by omega)

/-- Outside the bytes written, a run of writes leaves memory as it was. -/
theorem read_writeBytes_outside {m : Memory} (h : m.wf = true) (a : Nat) (bs : List Byte)
    (ha : a + bs.length ≤ 2 ^ 32) {c : Nat} (hc : c < a ∨ a + bs.length ≤ c) :
    (writeBytes m a bs).read c = m.read c := by
  induction bs generalizing m a with
  | nil => rfl
  | cons b bs ih =>
    simp only [List.length_cons] at ha hc
    rw [writeBytes, ih (Memory.wf_write h a b (by omega)) _ (by omega) (by omega), Memory.read_write h,
      if_neg (by omega)]

/-- Inside them, it leaves the bytes written. -/
theorem read_writeBytes_inside {m : Memory} (h : m.wf = true) (a : Nat) (bs : List Byte)
    (ha : a + bs.length ≤ 2 ^ 32) {k : Nat} (hk : k < bs.length) :
    (writeBytes m a bs).read (a + k) = bs[k] := by
  induction bs generalizing m a k with
  | nil => simp at hk
  | cons b bs ih =>
    simp only [List.length_cons] at ha hk
    have hw := Memory.wf_write h a b (by omega)
    cases k with
    | zero =>
      rw [writeBytes, read_writeBytes_outside hw _ bs (by omega) (by omega), Memory.read_write h,
        if_pos (Nat.add_zero a).symm, List.getElem_cons_zero]
    | succ k =>
      have := ih hw (a + 1) (by omega) (k := k) (by omega)
      rw [writeBytes, show a + (k + 1) = a + 1 + k by omega, this]
      rfl

/-! ### Choices and answers -/

/-- With one value to choose from there is no choice. -/
@[simp] theorem choose_nil (b : Byte) (pick : Nat) : choose b [] pick = b := by
  simp [choose, Nat.mod_one]

/-- A choice is one of the values it chooses from. -/
theorem choose_mem (b : Byte) (rest : List Byte) (pick : Nat) : choose b rest pick ∈ b :: rest := by
  unfold choose
  have hlt : pick % (rest.length + 1) < (b :: rest).length := Nat.mod_lt _ (Nat.succ_pos _)
  rw [List.getD_eq_getElem _ _ hlt]
  exact List.getElem_mem hlt

theorem memOK_lt {p : Platform} {a : Nat} (h : memOK p a = true) : a < 2 ^ 32 := by
  simp only [memOK, Bool.and_eq_true, decide_eq_true_eq] at h
  exact h.1

theorem accessOK_iff {p : Platform} {a n : Nat} :
    accessOK p a n = true ↔ ∀ k, k < n → memOK p (a + k) = true := by
  simp [accessOK, List.all_eq_true]

/-- An access the bus answers well lies in the bus address space. -/
theorem accessOK_le {p : Platform} {a n : Nat} (h : accessOK p a n = true) (hn : 0 < n) : a + n ≤ 2 ^ 32 := by
  have := memOK_lt (accessOK_iff.1 h (n - 1) (by omega))
  omega

end Sys2Proof.Machine
end

