-- ==== Sys2Proof/Laws/Step.lean ====
section
/-! SUPPORT. What an event can do, said once: the cases of a bus answer, of a register write, of a host
access to memory and of a step. -/

namespace Sys2Proof.Machine

/-! ### The engine -/

/-- One bus answer: nothing to answer, completion, a read, a landed write, or a bus error. -/
theorem busAnswer_cases (pick : Nat) (picks : List Nat) (s : State) :
    (s.engine = none ∧ busAnswer pick picks s = s) ∨
    (∃ g, s.engine = some g ∧ g.todo = [] ∧ busAnswer pick picks s = complete s) ∨
    (∃ (g : Engine) (t : Transfer), s.engine = some g ∧ g.todo[pick % g.todo.length]? = some t ∧ t.data = none ∧
      accessOK s.platform t.readAddr g.op.accessBytes = true ∧
      busAnswer pick picks s =
        { s with
          engine := some { g with
            todo := g.todo.set (pick % g.todo.length) { t with data := some (engineRead g s.mem t.readAddr picks) } } }) ∨
    (∃ (g : Engine) (t : Transfer) (bs : List Byte), s.engine = some g ∧
      g.todo[pick % g.todo.length]? = some t ∧ t.data = some bs ∧
      accessOK s.platform t.writeAddr g.op.accessBytes = true ∧
      busAnswer pick picks s =
        { landWrite t.writeAddr bs s with engine := some { g with todo := g.todo.eraseIdx (pick % g.todo.length) } }) ∨
    (∃ (g : Engine) (t : Transfer), s.engine = some g ∧ g.todo[pick % g.todo.length]? = some t ∧
      accessOK s.platform (if t.data = none then t.readAddr else t.writeAddr) g.op.accessBytes = false ∧
      busAnswer pick picks s =
        raiseError .busError (BitVec.ofNat 32 (if t.data = none then t.readAddr else t.writeAddr)) s) := by
  cases hg : s.engine with
  | none => exact .inl ⟨rfl, by simp [busAnswer, hg]⟩
  | some g =>
    right
    cases ht : g.todo[pick % g.todo.length]? with
    | none =>
      refine .inl ⟨g, rfl, ?_, by simp [busAnswer, hg, ht]⟩
      by_contra hne
      have hpos : 0 < g.todo.length := List.length_pos_of_ne_nil hne
      have := Nat.mod_lt pick hpos
      rw [List.getElem?_eq_none_iff] at ht
      omega
    | some t =>
      have hb : busAnswer pick picks s = answerTransfer g (pick % g.todo.length) t picks s := by
        simp [busAnswer, hg, ht]
      right
      cases hd : t.data with
      | none =>
        cases hok : accessOK s.platform t.readAddr g.op.accessBytes
        · exact .inr (.inr ⟨g, t, rfl, ht, by simpa [hd] using hok, by simp [hb, answerTransfer, hd, hok]⟩)
        · exact .inl ⟨g, t, rfl, ht, hd, hok, by simp [hb, answerTransfer, hd, hok]⟩
      | some bs =>
        cases hok : accessOK s.platform t.writeAddr g.op.accessBytes
        · exact .inr (.inr ⟨g, t, rfl, ht, by simpa [hd] using hok, by simp [hb, answerTransfer, hd, hok]⟩)
        · exact .inr (.inl ⟨g, t, bs, rfl, ht, hd, hok, by simp [hb, answerTransfer, hd, hok]⟩)

@[simp] theorem length_engineRead (g : Engine) (m : Memory) (a : Nat) (picks : List Nat) :
    (engineRead g m a picks).length = g.op.accessBytes := by simp [engineRead]

/-- With no host write during the command, an element read returns what memory holds. -/
theorem engineRead_of_quiet {g : Engine} (h : g.oldSource = []) (m : Memory) (a : Nat) (picks : List Nat) :
    engineRead g m a picks = readBytes m a g.op.accessBytes := by
  simp [engineRead, readBytes, h, valuesAt]

/-- A late write that is left over lands or is dropped. -/
theorem lateWrite_cases (pick : Nat) (lands : Bool) (s : State) :
    lateWrite pick lands s = s ∨
    ∃ i c, s.late[i]? = some c ∧
      (lateWrite pick lands s = { s with late := s.late.eraseIdx i } ∨
       (memOK s.platform c.1 = true ∧
        lateWrite pick lands s =
          { s with
            mem := s.mem.write c.1 c.2
            stale := { addr := c.1, value := s.mem.read c.1, phase := .lost } :: s.stale
            late := s.late.eraseIdx i })) := by
  unfold lateWrite
  split
  · exact .inl rfl
  · next c hc =>
    refine .inr ⟨_, c, hc, ?_⟩
    by_cases hl : (lands && memOK s.platform c.1) = true
    · exact .inr ⟨by simp only [Bool.and_eq_true] at hl; exact hl.2, by simp only [hl]; rfl⟩
    · exact .inl (by simp only [hl]; rfl)

/-- The end of a late write keeps memory in its canonical form. -/
theorem lateWrite_wf {s : State} (h : s.mem.wf = true) (pick : Nat) (lands : Bool) :
    (lateWrite pick lands s).mem.wf = true := by
  rcases lateWrite_cases pick lands s with hl | ⟨i, c, -, hl | ⟨hok, hl⟩⟩ <;> rw [hl]
  · exact h
  · exact h
  · exact Memory.wf_write h _ _ (memOK_lt hok)

/-- A write of the engine that the bus answers well keeps memory in its canonical form. -/
theorem landWrite_wf {s : State} (h : s.mem.wf = true) {a : Nat} {bs : List Byte}
    (hok : accessOK s.platform a bs.length = true) (hn : 0 < bs.length) : (landWrite a bs s).mem.wf = true :=
  writeBytes_wf h a bs (accessOK_le hok hn)

/-! ### Host accesses to memory -/

/-- A host read of a byte returns memory's value or one of the values a race admits. -/
theorem hostByte_mem (s : State) (a pick : Nat) :
    hostByte s a pick ∈ s.mem.read a :: (tracesAt s.stale a ++ incoming s a) := choose_mem _ _ _

/-- The values at an address do not depend on the phases. -/
@[simp] theorem tracesAt_miss (l : List Trace) (a : Nat) : tracesAt (l.map Trace.miss) a = tracesAt l a := by
  have hm : ∀ t : Trace, t.miss.addr = t.addr ∧ t.miss.value = t.value := fun t => by
    unfold Trace.miss
    split <;> exact ⟨rfl, rfl⟩
  induction l with
  | nil => rfl
  | cons t l ih => simp only [tracesAt, List.map_cons, List.filter_cons, (hm t).1] at ih ⊢; split <;> simp [ih, (hm t).2]

theorem racePhase_ne_shown (s : State) (a : Nat) : racePhase s a ≠ .shown := by
  unfold racePhase
  split <;> decide

/-- A host write of a byte leaves there the host's value or, in a race, one a command has written, and changes
besides it the older values, the late bytes and what the engine may still read. -/
theorem hostWriteByte_frame (a : Nat) (b : Byte) (w : Bool) (s : State) :
    ∃ b' st, hostWriteByte a b w s =
      { s with
        mem := s.mem.write a b'
        stale := st
        late := cellsOutside s.late a 1
        engine := s.engine.map (noteOldSource a (s.mem.read a)) } ∧
      (b' = b ∨ racing s a = true ∧ b' ∈ tracesAt s.written a) ∧
      ∀ t ∈ st, t ∈ s.stale ∨ t.addr = a ∧ t.phase ≠ .shown := by
  unfold hostWriteByte
  split
  · next hr =>
    refine ⟨_, _, rfl, ?_, ?_⟩
    · cases w
      · cases h : tracesAt s.written a with
        | nil => exact .inl rfl
        | cons c l => exact .inr ⟨hr, List.mem_cons_self⟩
      · exact .inl rfl
    · intro t ht
      rcases List.mem_cons.1 ht with rfl | ht
      · exact .inr ⟨rfl, racePhase_ne_shown s a⟩
      · rcases List.mem_cons.1 ht with rfl | ht
        · exact .inr ⟨rfl, racePhase_ne_shown s a⟩
        · exact .inl ht
  · exact ⟨b, _, rfl, .inl rfl, fun t ht => .inl (List.mem_of_mem_filter ht)⟩

/-- A host write of memory leaves every register, and the transfers of the engine, as they were. -/
theorem hostWriteBytes_frame (addr : Word) (v : Nat) (wins : List Bool) (ks : List Nat) (s : State) :
    ∃ m st lt old, hostWriteBytes addr v wins ks s =
      { s with mem := m, stale := st, late := lt, engine := s.engine.map fun g => { g with oldSource := old ++ g.oldSource } } ∧
      (s.mem.wf = true → m.wf = true) ∧ ∀ t ∈ st, t ∈ s.stale ∨ t.phase ≠ .shown := by
  induction ks generalizing s with
  | nil => exact ⟨s.mem, s.stale, s.late, [], by simp [hostWriteBytes], id, fun t ht => .inl ht⟩
  | cons k ks ih =>
    obtain ⟨b', st, h, -, hst⟩ := hostWriteByte_frame (byteAddr addr k) (byteOf v k) (wins.getD k true) s
    obtain ⟨m', st', lt', old, h', hwf, hst'⟩ := ih (hostWriteByte (byteAddr addr k) (byteOf v k) (wins.getD k true) s)
    refine ⟨m', st', lt', old ++ [(byteAddr addr k, s.mem.read (byteAddr addr k))], ?_, ?_, ?_⟩
    · rw [hostWriteBytes, h', h]
      cases s.engine <;> simp [noteOldSource]
    · intro hs
      apply hwf
      rw [h]
      exact Memory.wf_write hs _ _ (BitVec.isLt _)
    · intro t ht
      rcases hst' t ht with ht | ht
      · rw [h] at ht
        exact (hst t ht).imp id fun h => h.2
      · exact .inr ht

/-! ### The window -/

/-- A write of a parameter register changes that register, or is dropped. -/
theorem writeParams_cases (f : Params → Params) (s : State) :
    (s.status.busy = true ∧ writeParams f s = dropWrite s) ∨
    (s.status.busy = false ∧ writeParams f s = { s with params := f s.params }) := by
  unfold writeParams
  cases h : s.status.busy <;> simp

/-- A CMD write runs a command or ends with ILLEGAL_CMD. -/
theorem writeCmd_cases (w : Word) (s : State) :
    (∃ i, decode w = .ok i ∧ writeCmd w s = .next (command (bodyOf i) s)) ∨
    (∃ r, decode w = .error r ∧ writeCmd w s = .next (command (raiseError .illegalCmd 0) s)) := by
  unfold writeCmd
  split
  · next i h => exact .inl ⟨i, h, exec_eq i s⟩
  · next r h => exact .inr ⟨r, h, rfl⟩

/-- Everything a register write can answer. -/
theorem writeReg_cases {r : Reg} {v : Word} {s t : State} (h : writeReg r v s = .next t) :
    (r = .ctrl ∧ t = { s with irqEn := v.getLsbD 0 }) ∨
    (r = .status ∧ t = writeStatus v s) ∨
    ((r = .cmd ∨ r.isParam = true) ∧ s.status.busy = true ∧ t = dropWrite s) ∨
    (r = .cmd ∧ s.status.busy = false ∧ ∃ i, decode v = .ok i ∧ t = bodyOf i (accept s)) ∨
    (r = .cmd ∧ s.status.busy = false ∧ (∃ e, decode v = .error e) ∧ t = raiseError .illegalCmd 0 (accept s)) ∨
    (r.isParam = true ∧ s.status.busy = false ∧ ∃ f : Params → Params, t = { s with params := f s.params }) ∨
    ((r = .result ∨ r = .errAddr) ∧ t = s) := by
  have param : ∀ f : Params → Params, r.isParam = true → writeReg r v s = .next (writeParams f s) →
      ((r = .cmd ∨ r.isParam = true) ∧ s.status.busy = true ∧ t = dropWrite s) ∨
      (r.isParam = true ∧ s.status.busy = false ∧ ∃ f : Params → Params, t = { s with params := f s.params }) := by
    intro f hr hw
    rw [hw] at h
    have ht := (Host.Outcome.next.inj h).symm
    rcases writeParams_cases f s with ⟨hb, hp⟩ | ⟨hb, hp⟩
    · exact .inl ⟨.inr hr, hb, ht.trans hp⟩
    · exact .inr ⟨hr, hb, f, ht.trans hp⟩
  cases r with
  | ctrl => exact .inl ⟨rfl, (Host.Outcome.next.inj h).symm⟩
  | status => exact .inr (.inl ⟨rfl, (Host.Outcome.next.inj h).symm⟩)
  | cmd =>
    have h : writeCmd v s = .next t := h
    cases hb : s.status.busy
    · rcases writeCmd_cases v s with ⟨i, hd, hc⟩ | ⟨e, hd, hc⟩ <;>
      · rw [hc, command_idle _ hb] at h
        have ht := (Host.Outcome.next.inj h).symm
        first
          | exact .inr (.inr (.inr (.inl ⟨rfl, rfl, i, hd, ht⟩)))
          | exact .inr (.inr (.inr (.inr (.inl ⟨rfl, rfl, ⟨e, hd⟩, ht⟩))))
    · rcases writeCmd_cases v s with ⟨i, hd, hc⟩ | ⟨e, hd, hc⟩ <;>
      · rw [hc, command_busy _ hb] at h
        exact .inr (.inr (.inl ⟨.inl rfl, rfl, (Host.Outcome.next.inj h).symm⟩))
  | result => exact .inr (.inr (.inr (.inr (.inr (.inr ⟨.inl rfl, (Host.Outcome.next.inj h).symm⟩)))))
  | errAddr => exact .inr (.inr (.inr (.inr (.inr (.inr ⟨.inr rfl, (Host.Outcome.next.inj h).symm⟩)))))
  | _ =>
    rcases param _ rfl rfl with h | h
    · exact .inr (.inr (.inl h))
    · exact .inr (.inr (.inr (.inr (.inr (.inl h)))))

/-- What a read of the window changes: the value the host has, and what it has observed. -/
theorem windowRead_cases (offset : Nat) (s : State) :
    ∃ v, windowRead offset s = { s with readData := v } ∨
      (regAt offset = some .status ∧ s.status.showsEnd = true ∧ windowRead offset s = { observe s with readData := v }) := by
  unfold windowRead
  split
  · next r hr =>
    refine ⟨(readReg s r).toNat, ?_⟩
    by_cases h : r = .status ∧ s.status.showsEnd = true
    · obtain ⟨rfl, h⟩ := h
      exact .inr ⟨hr, h, by simp [observeRead, h]⟩
    · refine .inl ?_
      cases r <;> simp_all [observeRead]
  · exact ⟨0, .inl rfl⟩

/-! ### Steps -/

@[simp] theorem step_nil {s : State} (h : s.agenda = []) : step s = .next s := by simp [step, h]

@[simp] theorem step_cons {s : State} {e : Event} {rest : List Event} (h : s.agenda = e :: rest) :
    step s = deliver e { s with agenda := rest } := by simp [step, h]

/-- Everything a step that answers a next state can be. -/
theorem step_cases {s t : State} (h : step s = .next t) :
    (s.agenda = [] ∧ t = s) ∨
    ∃ rest, (∃ addr v wins r, s.agenda = .hostWrite addr 4 v wins :: rest ∧
        registerAccess s.platform addr 4 = true ∧ regAt (windowOffset s.platform addr) = some r ∧
        writeReg r (BitVec.ofNat 32 v) { s with agenda := rest } = .next t) ∨
      (∃ addr v wins, s.agenda = .hostWrite addr 4 v wins :: rest ∧
        regAt (windowOffset s.platform addr) = none ∧ t = { s with agenda := rest }) ∨
      (∃ addr w v wins, s.agenda = .hostWrite addr w v wins :: rest ∧ registerAccess s.platform addr w = false ∧
        touchesWindow s.platform addr w = false ∧
        t = hostWriteBytes addr v wins (List.range w) { s with agenda := rest }) ∨
      (∃ addr w picks, s.agenda = .hostRead addr w picks :: rest ∧ registerAccess s.platform addr w = true ∧
        t = windowRead (windowOffset s.platform addr) { s with agenda := rest }) ∨
      (∃ addr w picks v, s.agenda = .hostRead addr w picks :: rest ∧ t = { s with agenda := rest, readData := v }) ∨
      (∃ pick picks, s.agenda = .busAnswer pick picks :: rest ∧ t = busAnswer pick picks { s with agenda := rest }) ∨
      (∃ pick lands, s.agenda = .lateWrite pick lands :: rest ∧ t = lateWrite pick lands { s with agenda := rest }) ∨
      (s.agenda = .maintain :: rest ∧ t = maintain { s with agenda := rest }) ∨
      (s.agenda = .reset :: rest ∧ t = resetBlock { s with agenda := rest }) := by
  cases ha : s.agenda with
  | nil => exact .inl ⟨rfl, by simpa [ha, eq_comm] using h⟩
  | cons e rest =>
    rw [step_cons ha] at h
    refine .inr ⟨rest, ?_⟩
    cases e with
    | hostWrite addr w v wins =>
      simp only [deliver, hostWrite] at h
      split at h
      · next hr =>
        have hw : w = 4 := by simp only [registerAccess, Bool.and_eq_true, decide_eq_true_eq] at hr; exact hr.1.1
        subst hw
        unfold windowWrite at h
        split at h
        · next r hreg => exact .inl ⟨addr, v, wins, r, rfl, hr, hreg, h⟩
        · next hreg => exact .inr (.inl ⟨addr, v, wins, rfl, hreg, (Host.Outcome.next.inj h).symm⟩)
      · next hr =>
        split at h
        · cases h
        · next htw =>
          unfold memoryWrite at h
          split at h
          · exact .inr (.inr (.inl ⟨addr, w, v, wins, rfl, by simpa using hr, by simpa using htw,
              (Host.Outcome.next.inj h).symm⟩))
          · cases h
    | hostRead addr w picks =>
      simp only [deliver, hostRead] at h
      split at h
      · next hr =>
        exact .inr (.inr (.inr (.inl ⟨addr, w, picks, rfl, hr, (Host.Outcome.next.inj h).symm⟩)))
      · split at h
        · cases h
        · unfold memoryRead at h
          split at h
          · exact .inr (.inr (.inr (.inr (.inl ⟨addr, w, picks, _, rfl, (Host.Outcome.next.inj h).symm⟩))))
          · cases h
    | busAnswer pick picks =>
      exact .inr (.inr (.inr (.inr (.inr (.inl ⟨pick, picks, rfl, (Host.Outcome.next.inj h).symm⟩)))))
    | lateWrite pick lands =>
      exact .inr (.inr (.inr (.inr (.inr (.inr (.inl ⟨pick, lands, rfl, (Host.Outcome.next.inj h).symm⟩))))))
    | maintain =>
      exact .inr (.inr (.inr (.inr (.inr (.inr (.inr (.inl ⟨rfl, (Host.Outcome.next.inj h).symm⟩)))))))
    | reset =>
      exact .inr (.inr (.inr (.inr (.inr (.inr (.inr (.inr ⟨rfl, (Host.Outcome.next.inj h).symm⟩)))))))

end Sys2Proof.Machine
end

