-- ==== Sys2Proof/Laws/Host.lean ====
section
/-! SUPPORT. What a host access does, said once for each kind: a register read, a register write, and a read or write
of one byte of memory; and what traces say of one address. -/

namespace Sys2Proof.Machine

/-! ### Addresses and bytes -/

@[simp] theorem windowOffset_base (p : Platform) (offset : Word) : windowOffset p (p.base + offset) = offset.toNat := by
  simp [windowOffset, BitVec.add_comm]

@[simp] theorem byteAddr_zero (addr : Word) : byteAddr addr 0 = addr.toNat := by simp [byteAddr]

@[simp] theorem byteOf_zero (v : Nat) : byteOf v 0 = BitVec.ofNat 8 v := by simp [byteOf]

@[simp] theorem valueOf_singleton (b : Byte) : valueOf [b] = b.toNat := by simp [valueOf]

/-! ### Traces at one address -/

@[simp] theorem tracesAt_nil (a : Nat) : tracesAt [] a = [] := rfl

@[simp] theorem tracesAt_append (l m : List Trace) (a : Nat) : tracesAt (l ++ m) a = tracesAt l a ++ tracesAt m a := by
  simp [tracesAt]

theorem tracesAt_cons (t : Trace) (l : List Trace) (a : Nat) :
    tracesAt (t :: l) a = if t.addr = a then t.value :: tracesAt l a else tracesAt l a := by
  simp only [tracesAt, List.filter_cons, beq_iff_eq]
  split <;> rfl

/-- No trace is at the address: nothing is in question there. -/
theorem tracesAt_eq_nil {l : List Trace} {a : Nat} : tracesAt l a = [] ↔ ∀ t ∈ l, t.addr ≠ a := by
  simp [tracesAt, List.filter_eq_nil_iff]

theorem mem_tracesAt {l : List Trace} {a : Nat} {b : Byte} :
    b ∈ tracesAt l a ↔ ∃ t ∈ l, t.addr = a ∧ t.value = b := by
  simp [tracesAt, and_assoc]

/-- The traces of some bytes are at those bytes. -/
theorem tracesAt_tracesOf_outside {c : Nat} {bs : List Byte} {a : Nat} (h : a < c ∨ c + bs.length ≤ a) :
    tracesAt (tracesOf c bs) a = [] := by
  induction bs generalizing c with
  | nil => rfl
  | cons b bs ih =>
    simp only [List.length_cons] at h
    show tracesAt ({ addr := c, value := b, phase := .unseen } :: tracesOf (c + 1) bs) a = []
    rw [tracesAt_cons, if_neg (by dsimp only; omega)]
    exact ih (by omega)

theorem tracesAt_tracesOf_inside (c : Nat) (bs : List Byte) {k : Nat} (h : k < bs.length) :
    tracesAt (tracesOf c bs) (c + k) = [bs[k]] := by
  induction bs generalizing c k with
  | nil => simp at h
  | cons b bs ih =>
    show tracesAt ({ addr := c, value := b, phase := .unseen } :: tracesOf (c + 1) bs) (c + k) = _
    rw [tracesAt_cons]
    cases k with
    | zero => simp [tracesAt_tracesOf_outside (c := c + 1) (bs := bs) (a := c) (by omega)]
    | succ k =>
      rw [if_neg (by dsimp only; omega), show c + (k + 1) = c + 1 + k by omega]
      simpa using ih (c + 1) (k := k) (by simpa using h)

/-! ### Completion points at one address -/

/-- On a coherent platform the observed end of a command leaves nothing older at an address it settles. -/
theorem tracesAt_observe {s : State} {a : Nat} (hc : s.platform.coherent = true)
    (h : ∀ t ∈ s.stale, t.addr = a → settles s t = true) : tracesAt (observe s).stale a = [] := by
  rw [observe_stale, if_pos hc, tracesAt_eq_nil]
  intro t ht hta
  have := (List.mem_filter.1 ht).2
  rw [h t (List.mem_of_mem_filter ht) hta] at this
  cases this

/-- On any platform the host's maintenance after it leaves nothing older there. -/
theorem tracesAt_maintain_observe {s : State} {a : Nat} (h : ∀ t ∈ s.stale, t.addr = a → settles s t = true) :
    tracesAt (maintain (observe s)).stale a = [] := by
  cases hc : s.platform.coherent
  · rw [maintain_stale, observe_stale, hc, if_neg (by decide), tracesAt_eq_nil]
    intro t ht hta
    obtain ⟨ht, hp⟩ := List.mem_filter.1 ht
    obtain ⟨u, hu, rfl⟩ := List.mem_map.1 ht
    by_cases hs : settles s u = true
    · simp [hs] at hp
    · rw [if_neg hs] at hta
      exact hs (h u hu hta)
  · have := tracesAt_observe hc h
    rw [tracesAt_eq_nil] at this ⊢
    exact fun t ht => this t (List.mem_of_mem_filter ht)

/-- Maintenance leaves what no STATUS read has shown the end of. -/
theorem tracesAt_maintain {s : State} {a : Nat} (h : ∀ t ∈ s.stale, t.addr = a → t.phase ≠ .shown) :
    tracesAt (maintain s).stale a = tracesAt s.stale a := by
  rw [maintain_stale, tracesAt, tracesAt, List.filter_filter]
  congr 1
  refine List.filter_congr fun t ht => ?_
  by_cases ha : t.addr = a
  · simp [ha, h t ht ha]
  · simp [ha]

/-- The observed end of a command ends the host-write races at the bytes it settles. -/
theorem tracesAt_observe_written {s : State} {a : Nat} (h : ∀ w ∈ s.written, w.addr = a → settles s w = true) :
    tracesAt (observe s).written a = [] := by
  rw [observe_written, tracesAt_eq_nil]
  intro w hw ha
  have := (List.mem_filter.1 hw).2
  rw [h w (List.mem_of_mem_filter hw) ha] at this
  cases this

/-! ### Registers -/

/-- A 32-bit read at an aligned offset of the window reads the window there. -/
theorem deliver_windowRead {s : State} {offset : Word} (h : offset.toNat < 256) (ha : offset.toNat % 4 = 0)
    (picks : List Nat) :
    deliver (.hostRead (s.platform.base + offset) 4 picks) s = .next (windowRead offset.toNat s) := by
  simp only [deliver, hostRead, registerAccess, windowOffset_base, h, ha, decide_true, Bool.and_self, if_true]

/-- A 32-bit write at an aligned offset of the window writes the window there. -/
theorem deliver_windowWrite {s : State} {offset : Word} (h : offset.toNat < 256) (ha : offset.toNat % 4 = 0)
    (v : Nat) (wins : List Bool) :
    deliver (.hostWrite (s.platform.base + offset) 4 v wins) s = windowWrite offset.toNat (BitVec.ofNat 32 v) s := by
  simp only [deliver, hostWrite, registerAccess, windowOffset_base, h, ha, decide_true, Bool.and_self, if_true]

/-! ### One byte of memory -/

theorem touchesWindow_one {p : Platform} {addr : Word} (h : 256 ≤ windowOffset p addr) : touchesWindow p addr 1 = false := by
  have : ¬windowOffset p addr < 256 := by omega
  simp [touchesWindow, this]

/-- A read of one byte outside the window. -/
theorem deliver_byteRead {s : State} {addr : Word} (h : 256 ≤ windowOffset s.platform addr)
    (hm : memOK s.platform addr.toNat = true) (picks : List Nat) :
    deliver (.hostRead addr 1 picks) s =
      .next { s with readData := (hostByte s addr.toNat (picks.getD 0 0)).toNat } := by
  have hok : hostAccessOK s addr 1 = true := by
    simp only [hostAccessOK, List.all_eq_true, List.mem_range]
    intro k hk
    rw [show k = 0 by omega, byteAddr_zero, hm]
  have hr : registerAccess s.platform addr 1 = false := by simp [registerAccess]
  simp only [deliver, hostRead, hr, touchesWindow_one h, memoryRead, hok, List.range_one, List.map_cons, List.map_nil,
    byteAddr_zero, valueOf_singleton, if_true]
  rfl

/-- A write of one byte outside the window is `hostWriteByte`; on a byte the bus does not answer it faults. -/
theorem deliver_byteWrite {s : State} {addr : Word} (h : 256 ≤ windowOffset s.platform addr) (v : Nat) (wins : List Bool) :
    deliver (.hostWrite addr 1 v wins) s =
      if memOK s.platform addr.toNat then .next (hostWriteByte addr.toNat (BitVec.ofNat 8 v) (wins.getD 0 true) s)
      else .fault .hostBusError := by
  have hok : hostAccessOK s addr 1 = memOK s.platform addr.toNat := by
    unfold hostAccessOK
    rw [List.range_one, List.all_cons, List.all_nil, Bool.and_true, byteAddr_zero]
  have hr : registerAccess s.platform addr 1 = false := by simp [registerAccess]
  simp only [deliver, hostWrite, hr, touchesWindow_one h, memoryWrite, hok, List.range_one, hostWriteBytes,
    byteAddr_zero, byteOf_zero]
  rfl

/-- Without a race the byte is written, and nothing older is left of it. -/
theorem hostWriteByte_quiet {a : Nat} {s : State} (h : racing s a = false) (b : Byte) (w : Bool) :
    hostWriteByte a b w s =
      { s with
        mem := s.mem.write a b
        stale := s.stale.filter fun t => t.addr != a
        late := cellsOutside s.late a 1
        engine := s.engine.map (noteOldSource a (s.mem.read a)) } := by
  simp only [hostWriteByte, h]
  rfl

/-- In a race the byte holds the host's value, or the one a command has written. -/
theorem hostWriteByte_racing {a : Nat} {s : State} (h : racing s a = true) (b : Byte) (w : Bool) :
    hostWriteByte a b w s =
      { s with
        mem := s.mem.write a (if w then b else (tracesAt s.written a).headD b)
        stale := { addr := a, value := s.mem.read a, phase := racePhase s a }
          :: { addr := a, value := b, phase := racePhase s a } :: s.stale
        late := cellsOutside s.late a 1
        engine := s.engine.map (noteOldSource a (s.mem.read a)) } := by
  simp only [hostWriteByte, h]
  rfl

theorem racing_eq_false {s : State} {a : Nat} :
    racing s a = false ↔ incoming s a = [] ∧ tracesAt s.written a = [] := by
  simp [racing]

/-- The running command is to write nothing at an address exactly if no transfer left covers it. -/
theorem incoming_eq_nil {s : State} {a : Nat} :
    incoming s a = [] ↔ ∀ g, s.engine = some g → ∀ t ∈ g.todo, t.covers g.op.accessBytes a = false := by
  unfold incoming
  cases s.engine with
  | none => simp
  | some g =>
    simp only [List.flatMap_eq_nil_iff, List.mem_filter, Option.some.injEq, forall_eq']
    refine ⟨fun h t ht => ?_, fun h t ht => ?_⟩
    · by_contra hc
      have := h t ⟨ht, by simpa using hc⟩
      cases hd : t.data <;> simp [hd] at this
    · simp [h t ht.1] at ht

/-- An idle engine has nothing to write. -/
@[simp] theorem incoming_idle {s : State} (h : s.engine = none) (a : Nat) : incoming s a = [] := by
  simp [incoming, h]

end Sys2Proof.Machine
end

