-- ==== Sys2Proof/Laws/PerInstr.lean ====
section
/-! SUPPORT. The coding of each command: it is well formed, its word is its OP value with RSV = 0, and the
decoder reads the command back from it (R81, R83). -/

namespace Sys2Proof.Laws.Coding

/-- What is shown of every command. -/
def Statement (i : Instr) : Prop :=
  i.wf = true ∧ rsvField (encode i) = 0 ∧ opField (encode i) = i.opcode ∧ decode (encode i) = .ok i

theorem nop : Statement .nop := ⟨rfl, rfl, rfl, rfl⟩
theorem deswz8 : Statement .deswz8 := ⟨rfl, rfl, rfl, rfl⟩
theorem swz8 : Statement .swz8 := ⟨rfl, rfl, rfl, rfl⟩
theorem palperm : Statement .palperm := ⟨rfl, rfl, rfl, rfl⟩
theorem axlate : Statement .axlate := ⟨rfl, rfl, rfl, rfl⟩
theorem pxlate : Statement .pxlate := ⟨rfl, rfl, rfl, rfl⟩

end Sys2Proof.Laws.Coding
end

