-- ==== Sys2Proof/Laws/Run.lean ====
section
/-! SUPPORT. Runs in which only the bus answers: they do not depend on the agenda, and on memory that answers well
a bulk command ends after as many answers as it has accesses left, and one more, in whatever order. -/

namespace Sys2Proof.Machine

/-- A bus answer neither reads nor changes the agenda. -/
theorem busAnswer_agenda (pick : Nat) (picks : List Nat) (s : State) (r : List Event) :
    busAnswer pick picks { s with agenda := r } = { busAnswer pick picks s with agenda := r } := by
  obtain ⟨irqEn, status, params, result, errAddr, engine, written, stale, late, mem, readData, platform, agenda⟩ := s
  cases engine with
  | none => rfl
  | some g =>
    simp only [busAnswer]
    cases g.todo[pick % g.todo.length]? with
    | none => rfl
    | some t =>
      simp only [answerTransfer]
      cases t.data <;> dsimp only <;> split <;> rfl

/-- A run of one step more takes the step first. -/
theorem run_succ {k : Nat} {s t : State} (h : step s = .next t) : core.run (k + 1) s = core.run k t := by
  have h : core.step s = .next t := h
  simp only [Host.Core.run, h]

/-- The machine, given bus answers as its next events, does what they do one after the other. -/
theorem run_answers (l : List (Nat × List Nat)) (rest : List Event) (s : State) :
    core.run l.length { s with agenda := answers l ++ rest } = .next { answerAll l s with agenda := rest } := by
  induction l generalizing s with
  | nil => rfl
  | cons c l ih =>
    show core.run (l.length + 1) { s with agenda := .busAnswer c.1 c.2 :: (answers l ++ rest) } = _
    rw [run_succ (t := busAnswer c.1 c.2 { s with agenda := answers l ++ rest }) rfl]
    rw [busAnswer_agenda]
    exact ih (busAnswer c.1 c.2 s)

/-- An idle engine stays idle. -/
theorem answerAll_idle {s : State} (h : s.engine = none) (l : List (Nat × List Nat)) : answerAll l s = s := by
  induction l with
  | nil => rfl
  | cons c l ih =>
    have hb : busAnswer c.1 c.2 s = s := by simp [busAnswer, h]
    rw [answerAll, hb, ih]

/-- Bus answers are among what may happen while a command runs. -/
theorem Underway.answerAll {u t : State} (h : Underway u t) (l : List (Nat × List Nat)) :
    Underway u (Machine.answerAll l t) := by
  induction l generalizing t with
  | nil => exact h
  | cons c l ih => exact ih (h.answer c.1 c.2)

/-- Bus answers read no STATUS. -/
theorem Unread.answerAll {m : Bool} {u t : State} (h : Unread m u t) (l : List (Nat × List Nat)) :
    Unread m u (Machine.answerAll l t) := by
  induction l generalizing t with
  | nil => exact h
  | cons c l ih => exact ih (h.answer c.1 c.2)

/-- What may happen before the end of a command is read leaves the parameter registers, CTRL and the platform. -/
theorem Unread.frame {m : Bool} {u t : State} (h : Unread m u t) :
    t.params = u.params ∧ t.irqEn = u.irqEn ∧ t.platform = u.platform := by
  induction h with
  | start => exact ⟨rfl, rfl, rfl⟩
  | @answer pick picks t _ ih =>
    rcases busAnswer_cases pick picks t with ⟨-, hb⟩ | ⟨g, -, -, hb⟩ | ⟨g, x, -, -, -, -, hb⟩ |
      ⟨g, x, bs, -, -, -, -, hb⟩ | ⟨g, x, -, -, -, hb⟩ <;> rw [hb] <;> exact ih
  | @poll offset t _ _ ih =>
    obtain ⟨v, h | ⟨-, -, h⟩⟩ := windowRead_cases offset t <;> rw [h] <;> exact ih
  | read _ _ ih => exact ih
  | clear _ _ ih => exact ih
  | drop _ _ ih => exact ih
  | maintain _ _ ih => exact ih

/-- What may happen while a command runs leaves the parameter registers, CTRL and the platform. -/
theorem Underway.frame {u t : State} (h : Underway u t) :
    t.params = u.params ∧ t.irqEn = u.irqEn ∧ t.platform = u.platform := by
  induction h with
  | start => exact ⟨rfl, rfl, rfl⟩
  | @answer pick picks t _ ih =>
    rcases busAnswer_cases pick picks t with ⟨-, hb⟩ | ⟨g, -, -, hb⟩ | ⟨g, x, -, -, -, -, hb⟩ |
      ⟨g, x, bs, -, -, -, -, hb⟩ | ⟨g, x, -, -, -, hb⟩ <;> rw [hb] <;> exact ih
  | @poll offset t _ ih =>
    obtain ⟨v, h | ⟨-, -, h⟩⟩ := windowRead_cases offset t <;> rw [h] <;> exact ih
  | read _ _ ih => exact ih
  | drop _ _ ih => exact ih

/-- The accesses a transfer still has to do. -/
def Transfer.left (t : Transfer) : Nat := if t.data = none then 2 else 1

/-- The accesses a list of transfers still has to do. -/
def accessesLeft (l : List Transfer) : Nat := (l.map Transfer.left).sum

theorem accessesLeft_set {l : List Transfer} {i : Nat} {t t' : Transfer} (h : l[i]? = some t)
    (ht : t'.left + 1 = t.left) : accessesLeft (l.set i t') + 1 = accessesLeft l := by
  induction l generalizing i with
  | nil => simp at h
  | cons a l ih =>
    cases i with
    | zero =>
      simp only [List.getElem?_cons_zero, Option.some.injEq] at h
      subst h
      simp only [accessesLeft, List.set_cons_zero, List.map_cons, List.sum_cons]
      omega
    | succ i =>
      have := ih (i := i) (by simpa using h)
      simp only [accessesLeft, List.set_cons_succ, List.map_cons, List.sum_cons] at this ⊢
      omega

theorem accessesLeft_eraseIdx {l : List Transfer} {i : Nat} {t : Transfer} (h : l[i]? = some t) :
    accessesLeft (l.eraseIdx i) + t.left = accessesLeft l := by
  induction l generalizing i with
  | nil => simp at h
  | cons a l ih =>
    cases i with
    | zero =>
      simp only [List.getElem?_cons_zero, Option.some.injEq] at h
      subst h
      simp only [accessesLeft, List.eraseIdx_cons_zero, List.map_cons, List.sum_cons]
      omega
    | succ i =>
      have := ih (i := i) (by simpa using h)
      simp only [accessesLeft, List.eraseIdx_cons_succ, List.map_cons, List.sum_cons] at this ⊢
      omega

/-- With every access answered well, a bulk command completes after its last access, whatever the order. -/
theorem answerAll_completes {s : State} {g : Engine} (hg : s.engine = some g)
    (hok : ∀ t ∈ g.todo, accessOK s.platform t.readAddr g.op.accessBytes = true ∧
      accessOK s.platform t.writeAddr g.op.accessBytes = true)
    {l : List (Nat × List Nat)} (hl : l.length = accessesLeft g.todo + 1) :
    (answerAll l s).status = { s.status with busy := false, done := true } ∧ (answerAll l s).engine = none := by
  induction l generalizing s g with
  | nil => simp at hl
  | cons c l ih =>
    simp only [List.length_cons] at hl
    rw [answerAll]
    rcases busAnswer_cases c.1 c.2 s with ⟨h, -⟩ | ⟨g', h, ht, hb⟩ | ⟨g', t, h, ht, hd, -, hb⟩ |
      ⟨g', t, bs, h, ht, hd, -, hb⟩ | ⟨g', t, h, ht, hbad, -⟩
    · rw [hg] at h; cases h
    · rw [hg] at h; cases h
      have hnil : l = [] := by
        rw [ht] at hl
        exact List.eq_nil_of_length_eq_zero (by simpa [accessesLeft] using hl)
      subst hnil
      rw [hb]
      exact ⟨rfl, rfl⟩
    · rw [hg] at h; cases h
      have hlen := accessesLeft_set (t' := { t with data := some (engineRead g s.mem t.readAddr c.2) }) ht
        (by simp [Transfer.left, hd])
      rw [hb]
      refine ih rfl ?_ (by dsimp only; omega)
      intro t' ht'
      rcases List.mem_or_eq_of_mem_set ht' with h | rfl
      · exact hok t' h
      · exact hok t (List.mem_of_getElem? ht)
    · rw [hg] at h; cases h
      have hlen := accessesLeft_eraseIdx ht
      have h1 : t.left = 1 := by simp [Transfer.left, hd]
      rw [hb]
      exact ih rfl (fun t' ht' => hok t' (List.mem_of_mem_eraseIdx ht')) (by dsimp only; omega)
    · rw [hg] at h; cases h
      have := hok t (List.mem_of_getElem? ht)
      split at hbad <;> simp_all

/-- A plan has one read and one write to do for each element. -/
theorem accessesLeft_plan (op : BulkOp) (p : Params) : accessesLeft (plan op p) = 2 * op.elements p := by
  have : (plan op p).map Transfer.left = List.replicate (op.elements p) 2 := by
    rw [plan, List.map_map, List.eq_replicate_iff]
    refine ⟨by simp, fun b hb => ?_⟩
    obtain ⟨e, -, rfl⟩ := List.mem_map.1 hb
    rfl
  rw [accessesLeft, this, List.sum_replicate, smul_eq_mul, Nat.mul_comm]

end Sys2Proof.Machine
end

