-- ==== Sys2Proof/Tests/Slice0.lean ====
section
/-! SUPPORT. Tests of the model. Expected values come from 95_test_vectors.md and the examples of the rules; each
test names its vector. -/

namespace Sys2Proof.Tests

open Sys2Proof.Machine

/-! ## Small states -/

/-- Idle, with an image of `w` by `h` at `src` and `dst`. -/
def image (w h src dst : Nat) : State :=
  { State.reset with
    params := { State.reset.params with
                src := BitVec.ofNat 32 src, dst := BitVec.ofNat 32 dst
                width := BitVec.ofNat 16 w, height := BitVec.ofNat 16 h } }

/-- Idle, with a coordinate for AXLATE and 7 in RESULT. -/
def pixel (w h x y : Nat) : State :=
  { image w h 0 0 with
    result := 7
    params := { (image w h 0 0).params with coord := BitVec.ofNat 32 (y * 65536 + x) } }

/-- Idle, with a palette of `l` entries, index `i`, and 7 in RESULT. -/
def palette (l i src dst : Nat) : State :=
  { State.reset with
    result := 7
    params := { State.reset.params with
                src := BitVec.ofNat 32 src, dst := BitVec.ofNat 32 dst
                palLen := BitVec.ofNat 9 l, index := BitVec.ofNat 16 i } }

/-- STATUS and RESULT after a CMD write of `w`, as the host reads them. -/
def issued (s : State) (w : Nat) : Option (Word × Word) :=
  match step (s.withFetchWord 32 w) with
  | .next t => some (readReg t .status, readReg t .result)
  | _ => none

/-- The state after one step with event `e`. -/
def after (e : Event) (s : State) : Option State :=
  match step { s with agenda := [e] } with
  | .next t => some t
  | _ => none

/-! ## Well-formedness -/

theorem test_every_command_is_wf :
    [Instr.nop, .deswz8, .swz8, .palperm, .axlate, .pxlate].all Instr.wf = true := by decide

theorem test_wf_accepts_initial_platform : Platform.initial.wf = true := by decide
theorem test_wf_refuses_unaligned_base : Platform.wf { base := 0x40000010, failing := [], coherent := true } = false := by decide
theorem test_wf_refuses_empty_region : Region.wf { first := 5, last := 4 } = false := by decide
theorem test_wf_refuses_region_off_the_bus : Region.wf { first := 0, last := 2 ^ 32 } = false := by decide

/-! ## Decoding: V-C1, and the words of R83 written out from the pattern of R81 -/

theorem test_decode_words :
    decodeTableWord 32 0b00000000000000000000000000000010 = some .swz8 ∧
    decodeTableWord 32 0b00000000000000000000000000000011 = some .palperm ∧
    decodeTableWord 32 0b00000000000000000000000000000100 = some .axlate ∧
    decodeTableWord 32 0b00000000000000000000000000000000 = some .nop := by decide

theorem test_decode_rejects :
    decode 0x00000006 = .error .reservedOpcode ∧ decode 0x000000FF = .error .reservedOpcode ∧
    decode 0x00000100 = .error .reservedBits ∧ decode 0x80000001 = .error .reservedBits := by
  refine ⟨rfl, rfl, rfl, rfl⟩

theorem test_illegal_word_status : issued State.reset 0x00000106 = some (0x00000104, 0) := by decide

/-- `step` runs the fetched command as the first one after reset, each row of the table. -/
theorem test_first_step_runs_command :
    [0, 1, 2, 3, 4, 5].map (fun w => issued State.reset w) =
      [some (0x00000002, 0), some (0x00000204, 0), some (0x00000204, 0), some (0x00000604, 0),
       some (0x00000204, 0), some (0x00000002, 0)] := by decide

/-! ## NOP: R155's example -/

theorem test_nop_replaces_outcome :
    issued { State.reset with status := { State.reset.status with err := true, code := .badDim } } 0 =
      some (0x00000002, 0) := by decide

/-! ## AXLATE: V-S1, V-S2, V-S3 -/

theorem test_offsets_of_v_s1 :
    [swizzleOffset 5 2 16, swizzleOffset 15 3 16, swizzleOffset 8 1 16, swizzleOffset 3 6 16, swizzleOffset 10 13 16,
     swizzleOffset 0 16 16, swizzleOffset 31 3 32, swizzleOffset 7 5 32, swizzleOffset 4095 4095 4096,
     swizzleOffset 0 4095 4096, swizzleOffset 4095 0 4096, swizzleOffset 16 16 4096, swizzleOffset 2048 2048 4096] =
    [5, 47, 34, 77, 250, 256, 111, 204, 16777215, 16769025, 8190, 65568, 8392704] := by decide

theorem test_offset_rows_of_v_s3 :
    (List.range 16).map (fun x => swizzleOffset x 3 16) =
      [49, 53, 57, 61, 33, 37, 41, 45, 51, 55, 59, 63, 35, 39, 43, 47] ∧
    (List.range 16).map (fun x => swizzleOffset x 14 16) =
      [193, 197, 201, 205, 209, 213, 217, 221, 195, 199, 203, 207, 211, 215, 219, 223] := by decide

theorem test_axlate_results :
    [issued (pixel 16 4 5 2) 4, issued (pixel 4096 4096 4095 4095) 4, issued (pixel 32 4 17 0) 4] =
      [some (0x00000002, 5), some (0x00000002, 0x00FFFFFF), some (0x00000002, 36)] := by decide

theorem test_axlate_errors_of_v_s2 :
    [issued (pixel 24 4 99 99) 4, issued (pixel 4112 4 0 0) 4, issued (pixel 16 2 0 0) 4, issued (pixel 16 4 16 0) 4,
     issued (pixel 16 4 0 4) 4] =
      [some (0x00000204, 7), some (0x00000204, 7), some (0x00000204, 7), some (0x00000404, 7), some (0x00000404, 7)] := by
  decide

/-! ## PXLATE: V-P1, V-P2 -/

theorem test_pxlate_results :
    [issued (palette 256 8 0 0) 5, issued (palette 256 200 0 0) 5, issued (palette 32 31 0 0) 5] =
      [some (0x00000002, 16), some (0x00000002, 208), some (0x00000002, 31)] := by decide

theorem test_pxlate_errors_of_v_p2 :
    [issued (palette 32 32 0 0) 5, issued (palette 48 0 0 0) 5, issued (palette 288 0 0 0) 5, issued (palette 511 600 0 0) 5] =
      [some (0x00000404, 7), some (0x00000304, 7), some (0x00000304, 7), some (0x00000304, 7)] := by decide

/-! ## DESWZ8 and SWZ8: V-S4, V-S5, V-S8 -/

theorem test_deswz8_checks_of_v_s8 :
    [issued (image 16 4 0xFFFFFFC0 0x2000) 1, issued (image 16 4 0xFFFFFFC1 0x2000) 1, issued (image 16 4 0x1000 0xFFFFFFF0) 1,
     issued (image 16 4 0x1000 0x103F) 1, issued (image 16 4 0x1000 0x1040) 1, issued (image 16 4 0xFFFFFFC1 0xFFFFFFC1) 1] =
      [some (1, 0), some (0x00000504, 0), some (0x00000504, 0), some (0x00000604, 0), some (1, 0), some (0x00000504, 0)] := by
  decide

/-- V-S4, row y1: where the bytes of linear row 1 come from. -/
theorem test_deswz8_plan_of_v_s4 :
    ((plan .deswz8 (image 16 4 0x1000 0x2000).params).drop 16).take 4 =
      [{ readAddr := 0x1020, writeAddr := 0x2010, data := none }, { readAddr := 0x1024, writeAddr := 0x2011, data := none },
       { readAddr := 0x1028, writeAddr := 0x2012, data := none }, { readAddr := 0x102C, writeAddr := 0x2013, data := none }] := by
  decide

theorem test_swz8_checks_of_v_s8 :
    [issued (image 16 4 0x1040 0x1000) 2, issued (image 16 4 0x1000 0x1000) 2, issued (image 0 4 0x1000 0x1000) 2] =
      [some (1, 0), some (0x00000604, 0), some (0x00000204, 0)] := by decide

/-- V-S5: linear pixel 0x24 goes to tiled offset 1. -/
theorem test_swz8_plan_of_v_s5 :
    (plan .swz8 (image 16 4 0x1000 0x2000).params)[0x24]? =
      some { readAddr := 0x1024, writeAddr := 0x2001, data := none } := by decide

/-! ## PALPERM: V-P3, V-P4 -/

theorem test_palperm_checks_of_v_p4 :
    [issued (palette 256 0 0x4000 0x5000) 3, issued (palette 256 0 0x4002 0x5000) 3, issued (palette 256 0 0x4000 0x5001) 3,
     issued (palette 256 0 0xFFFFFC04 0x5000) 3, issued (palette 256 0 0x4000 0x43FC) 3, issued (palette 256 0 0x1002 0x1002) 3] =
      [some (1, 7), some (0x00000704, 7), some (0x00000704, 7), some (0x00000504, 7), some (0x00000604, 7),
       some (0x00000704, 7)] := by decide

/-- V-P3: output entry 8 comes from input entry 16. -/
theorem test_palperm_plan_of_v_p3 :
    (plan .palperm (palette 32 0 0x4000 0x5000).params)[8]? =
      some { readAddr := 0x4040, writeAddr := 0x5020, data := none } := by decide

/-! ## The engine -/

/-- One transfer of DESWZ8 left, its byte 0x5A in memory. -/
def running (data : Option (List Byte)) : State :=
  { image 16 4 0x1000 0x2000 with
    status := { State.reset.status with busy := true }
    engine := some { op := .deswz8, todo := [{ readAddr := 0x1000, writeAddr := 0x2000, data := data }], oldSource := [] }
    mem := [(0x1000, 0x5A)] }

/-- R55: the read takes memory's byte. -/
theorem test_engine_reads : (busAnswer 9 [] (running none)).engine =
    some { op := .deswz8, todo := [{ readAddr := 0x1000, writeAddr := 0x2000, data := some [0x5A] }], oldSource := [] } := by
  decide

/-- R55, R63: the write lands, and a host read may still return the old byte. -/
theorem test_engine_writes :
    (busAnswer 3 [] (running (some [0x5A]))).mem = [(0x1000, 0x5A), (0x2000, 0x5A)] ∧
    [0, 1].map (hostByte (busAnswer 3 [] (running (some [0x5A]))) 0x2000) = [0x5A, 0x00] := by decide

/-- V-S9: a failing destination gives STATUS 0x00000804, its address, and no byte written. -/
theorem test_bus_error :
    let s := busAnswer 0 [] { running (some [0x5A]) with
      platform := { Platform.initial with failing := [{ first := 0x2000, last := 0x203F }] } }
    readReg s .status = 0x00000804 ∧ s.errAddr = 0x2000 ∧ s.mem = [(0x1000, 0x5A)] ∧ s.engine = none := by decide

/-- R154: with no transfer left the next answer completes the command. -/
theorem test_completion :
    readReg (busAnswer 0 [] { running none with engine := some { op := .deswz8, todo := [], oldSource := [] } }) .status =
      0x00000002 := by decide

/-- Program 4's hazard line: a parameter write while BUSY = 1 is dropped and sets WBUSY. -/
theorem test_busy_write_dropped :
    (after (.hostWrite 0x40000014 4 48 []) (running none)).map (fun t => (t.params.width, readReg t .status)) =
      some (16, 0x00000009) := by decide

/-- R191: a reset drops the command; its issued write may still land, and does if the event says so. -/
theorem test_reset_leaves_issued_write :
    ((after .reset (running (some [0x5A]))).map fun t => (readReg t .status, t.late, t.mem)) =
      some (0, [(0x2000, 0x5A)], [(0x1000, 0x5A)]) ∧
    (lateWrite 0 true (resetBlock (running (some [0x5A])))).mem = [(0x1000, 0x5A), (0x2000, 0x5A)] := by decide

/-! ## The window: V-C2, V-C3, R23 -/

theorem test_status_w1c_of_v_c2 :
    [(writeStatus 0x4 { State.reset with status := { State.reset.status with err := true, code := .illegalCmd } }).status.toWord,
     (writeStatus 0x1 { State.reset with status := { State.reset.status with done := true } }).status.toWord,
     (writeStatus 0x8 { State.reset with status := { State.reset.status with done := true, wbusy := true } }).status.toWord] =
      [0x00000000, 0x00000002, 0x00000002] := by decide

theorem test_reset_reads_of_v_c3 :
    [Reg.ctrl, .status, .cmd, .src, .dst, .width, .height, .palLen, .coord, .index, .result, .errAddr].map
      (readReg State.reset) = [0, 0, 0, 0, 0, 0, 0, 0x100, 0, 0, 0, 0] := by decide

theorem test_read_back_masks_reserved_bits :
    (after (.hostWrite 0x4000001C 4 0xFFFFFFFF []) State.reset).map (fun t => readReg t .palLen) = some 0x1FF := by decide

/-- R23, R170: 1, 2, 3 and 8 bytes at an aligned offset, and 4 bytes at one that is not. -/
theorem test_illegal_accesses_to_window_fault :
    ([(0x40000004, 1), (0x40000004, 2), (0x40000004, 3), (0x40000004, 8), (0x40000006, 4)] : List (Word × Nat)).all
      (fun c => match step { State.reset with agenda := [.hostRead c.1 c.2 []] } with
        | .fault .hostAccess => true
        | _ => false) = true := by decide

/-- R9: an 8-byte host write of memory puts its bytes down little-endian. -/
theorem test_wide_host_write :
    (after (.hostWrite 0x1000 8 0x0807060504030201 []) State.reset).map (fun t => readBytes t.mem 0x1000 9) =
      some [1, 2, 3, 4, 5, 6, 7, 8, 0] := by decide

/-! ## Witnesses: concrete states that meet the hypotheses of the statements

`img` is the start of program 1; `busyState` has one transfer of it left. -/

def img : State := { image 16 4 0x1000 0x2000 with mem := [(0x1000, 0x5A)] }

theorem img_inv (ev : List Event) : State.Inv { img with agenda := ev } where
  mem := by show Memory.wf [(0x1000, 0x5A)] = true; decide
  status := by refine ⟨?_, ?_, ?_, ?_⟩ <;> simp [img, image, State.reset]
  idle := by simp [img, image, State.reset]
  engine := by intro g h; cases h
  errAddr := by intro _; rfl
  result := by show (0 : Word).toNat < 2 ^ 24; decide
  written := by intro w hw; cases hw
  stale := by intro _ t ht; cases ht

theorem running_inv (data : Option (List Byte)) (h : ∀ bs, data = some bs → bs.length = 1) : (running data).Inv where
  mem := by show Memory.wf [(0x1000, 0x5A)] = true; decide
  status := by refine ⟨?_, ?_, ?_, ?_⟩ <;> simp [running, State.reset]
  idle := by simp [running, State.reset]
  engine := by
    intro g hg
    cases hg
    refine ⟨?_, ?_, ?_⟩
    · show BulkOp.deswz8.legal (image 16 4 0x1000 0x2000).params = true
      decide
    · show List.Sublist [{ readAddr := 0x1000, writeAddr := 0x2000, data := none }]
        (plan .deswz8 (image 16 4 0x1000 0x2000).params)
      rw [List.singleton_sublist]
      decide
    · intro t ht bs hb
      simp only [List.mem_singleton] at ht
      subst ht
      exact h bs hb
  errAddr := by intro _; rfl
  result := by show (0 : Word).toNat < 2 ^ 24; decide
  written := by intro w hw; cases hw
  stale := by intro _ t ht; cases ht

/-- A state that delivers a CMD write: `StepRunsDecodedCommand`. -/
theorem witness_StepRunsDecodedCommand :
    (img.withFetchWord 32 1).agenda = [.hostWrite (img.platform.base + 0x08) 4 0x00000001 []] ∧
    decode 0x00000001 = .ok .deswz8 ∧ decodeTableWord 32 5 = some .pxlate := by decide

/-- The two kinds of illegal word: `IllegalWordEndsWithIllegalCmd`. -/
theorem witness_IllegalWordEndsWithIllegalCmd :
    (img.withFetchWord 32 6).agenda = [.hostWrite (img.platform.base + 0x08) 4 (0x00000006 : Word).toNat []] ∧
    img.status.busy = false ∧ 0x06 ≤ (opField 0x00000006).toNat ∧ rsvField 0x00000100 ≠ 0 := by decide

/-- BUSY = 1, with the first and last reserved offsets: `BusyWritesAreDropped`, `BusyCommandsAreTurnedAway`. -/
theorem witness_BusyWritesAreDropped :
    (running none).status.busy = true ∧ regAt 0x30 = none ∧ regAt 0xFF = none := by decide

/-- `NopCompletes`: idle states, a word with OP = 0 and RSV not 0, and R155's example. -/
theorem witness_NopCompletes :
    img.status.busy = false ∧ opField 0x00000100 = 0 ∧ rsvField 0x00000100 ≠ 0 ∧
    ({ State.reset with status := { State.reset.status with err := true, code := .badDim } } : State).status =
      { busy := false, done := false, err := true, wbusy := false, code := .badDim } := by decide

/-- `AxlateComputesTiledOffset`, a state for each clause: W = 0, X = W, and the last legal pixel. -/
theorem witness_AxlateComputesTiledOffset :
    ((pixel 0 4 0 0).params.width.toNat = 0 ∧ (pixel 0 4 0 0).status.busy = false) ∧
    ((pixel 16 4 16 0).params.width.toNat = 16 ∧ (pixel 16 4 16 0).params.height.toNat = 4 ∧
      (pixel 16 4 16 0).params.coord.toNat % 2 ^ 16 = 16) ∧
    ((pixel 16 4 15 3).params.width.toNat = 16 ∧ (pixel 16 4 15 3).params.height.toNat = 4 ∧
      (pixel 16 4 15 3).params.coord.toNat % 2 ^ 16 = 15 ∧ (pixel 16 4 15 3).params.coord.toNat / 2 ^ 16 = 3) := by decide

/-- `PxlateComputesSourceIndex`, a state for each clause: L = 0, I = L, and the last legal index. -/
theorem witness_PxlateComputesSourceIndex :
    ((palette 0 0 0 0).params.palLen.toNat = 0 ∧ (palette 0 0 0 0).status.busy = false) ∧
    ((palette 32 32 0 0).params.palLen.toNat = 32 ∧ (palette 32 32 0 0).params.index.toNat = 32) ∧
    ((palette 256 255 0 0).params.palLen.toNat = 256 ∧ (palette 256 255 0 0).params.index.toNat = 255) := by decide

/-- `Deswz8StartsItsTransfers`, `Swz8StartsItsTransfers`: idle, legal dimensions. -/
theorem witness_image_starts :
    img.status.busy = false ∧ dimOK img.params.w img.params.h = true ∧ BulkOp.deswz8.legal img.params = true ∧
    BulkOp.swz8.legal img.params = true := by decide

/-- `PalpermStartsItsTransfers`: idle, legal. -/
theorem witness_PalpermStartsItsTransfers :
    (palette 32 0 0x4000 0x5000).status.busy = false ∧ BulkOp.palperm.legal (palette 32 0 0x4000 0x5000).params = true := by
  decide

/-- `CommandsRaiseOnlyTheirCodes`: an accepted command that fails, a bus answer that fails, an illegal word. -/
theorem witness_CommandsRaiseOnlyTheirCodes :
    (∃ t, exec .axlate (pixel 0 4 0 0) = .next t ∧ (pixel 0 4 0 0).status.busy = false ∧ t.status.err = true) ∧
    (∃ s : State, s.Inv ∧ s.status.busy = true ∧ (busAnswer 0 [] s).status.err = true) ∧
    (∃ t, writeCmd 6 img = .next t ∧ decode 6 = .error .reservedOpcode ∧ img.status.busy = false) := by
  refine ⟨⟨_, rfl, by decide, by decide⟩,
    ⟨{ running none with platform := { Platform.initial with failing := [{ first := 0x1000, last := 0x1000 }] } }, ?_,
      by decide, by decide⟩, ⟨_, rfl, rfl, by decide⟩⟩
  have h := running_inv none (by simp)
  exact ⟨h.mem, h.status, h.idle, h.engine, h.errAddr, h.result, h.written, h.stale⟩

/-- `AcceptanceErrorsTouchNoMemory`. -/
theorem witness_AcceptanceErrorsTouchNoMemory :
    ∃ t, writeCmd 4 (pixel 0 4 0 0) = .next t ∧ (pixel 0 4 0 0).status.busy = false ∧ t.status.err = true :=
  ⟨_, rfl, by decide, by decide⟩

/-- `CommandFrame`: an accepted command, one turned away, and one that fails. -/
theorem witness_CommandFrame :
    (∃ t, exec .nop img = .next t ∧ img.status.busy = false ∧ img.engine = none) ∧
    (∃ t, exec .nop (running none) = .next t ∧ (running none).status.busy = true) ∧
    (∃ t, exec .pxlate (palette 32 32 0 0) = .next t ∧ t.status.err = true) :=
  ⟨⟨_, rfl, by decide, by decide⟩, ⟨_, rfl, by decide⟩, ⟨_, rfl, by decide⟩⟩

/-- `EngineAnswerFrame`, `ElementReadThenWrite`: a transfer to read and one to write, both with good accesses, and the
same read with an older value of its byte. -/
theorem witness_EngineAnswerFrame :
    ((running none).Inv ∧ ∃ g t, (running none).engine = some g ∧ g.oldSource = [] ∧ g.todo[0 % g.todo.length]? = some t ∧
      t.data = none ∧ accessOK (running none).platform t.readAddr g.op.accessBytes = true) ∧
    ((running (some [0x5A])).Inv ∧ ∃ g t, (running (some [0x5A])).engine = some g ∧
      g.todo[0 % g.todo.length]? = some t ∧ t.data = some [0x5A] ∧
      accessOK (running (some [0x5A])).platform t.writeAddr g.op.accessBytes = true) ∧
    ∃ g, (hostWriteByte 0x1000 0x11 true (running none)).engine = some g ∧ valuesAt g.oldSource 0x1000 = [0x5A] :=
  ⟨⟨running_inv _ (by simp), _, _, rfl, rfl, rfl, rfl, by decide⟩,
    ⟨running_inv _ (by intro bs h; cases h; rfl), _, _, rfl, rfl, rfl, by decide⟩, ⟨_, rfl, by decide⟩⟩

/-- `EngineAnswerFrame`: no transfer left. -/
theorem witness_EngineAnswerFrame_last :
    ∃ g, ({ running none with engine := some { op := .deswz8, todo := [], oldSource := [] } } : State).engine = some g ∧
      g.todo = [] := ⟨_, rfl, rfl⟩

/-- A running command on a platform whose first 64 KiB answer with an error. -/
def failing (data : Option (List Byte)) : State :=
  { running data with platform := { Platform.initial with failing := [{ first := 0, last := 0xFFFF }] } }

/-- `BusErrorEndsTheCommand`: a failing read and a failing write. -/
theorem witness_BusErrorEndsTheCommand :
    (∃ g t, (failing none).engine = some g ∧ g.todo[0 % g.todo.length]? = some t ∧ t.data = none ∧
      ∃ k, k < g.op.accessBytes ∧ memOK (failing none).platform (t.readAddr + k) = false) ∧
    (∃ g t, (failing (some [0x5A])).engine = some g ∧ g.todo[0 % g.todo.length]? = some t ∧ t.data = some [0x5A] ∧
      ∃ k, k < g.op.accessBytes ∧ memOK (failing (some [0x5A])).platform (t.writeAddr + k) = false) :=
  ⟨⟨_, _, rfl, rfl, rfl, 0, by decide, by decide⟩, ⟨_, _, rfl, rfl, rfl, 0, by decide, by decide⟩⟩

/-- `BusyLifetime`: BUSY rises with a legal DESWZ8, not with an illegal one nor with NOP, and falls with the last
answer. -/
theorem witness_BusyLifetime :
    (∃ t, exec BulkOp.deswz8.instr img = .next t ∧ img.status.busy = false ∧ t.status.busy = true) ∧
    (∃ t, exec BulkOp.deswz8.instr (image 16 4 0x1000 0x1000) = .next t ∧
      BulkOp.deswz8.legal (image 16 4 0x1000 0x1000).params = false) ∧
    (∃ t, exec .nop (running none) = .next t) ∧
    (∃ g, (running none).engine = some g ∧ (running none).status.busy = true) ∧
    (∃ t, step (img.withFetchWord 32 1) = .next t ∧ (img.withFetchWord 32 1).status.busy = false ∧ t.status.busy = true) ∧
    (∃ s t, step s = .next t ∧ s.status.busy = true ∧ t.status.busy = false) :=
  ⟨⟨_, rfl, by decide, by decide⟩, ⟨_, rfl, by decide⟩, ⟨_, rfl⟩, ⟨_, rfl, by decide⟩, ⟨_, rfl, by decide, by decide⟩,
    ⟨{ running none with engine := some { op := .deswz8, todo := [], oldSource := [] }, agenda := [.busAnswer 0 []] }, _, rfl,
      by decide, by decide⟩⟩

/-- `SilentBusHangsTheBlock`: a running command whose second transfer is not answered while its first is, a host that
polls, and a reset. -/
theorem witness_SilentBusHangsTheBlock :
    (∃ v t g, (afterStart .deswz8 img).engine = some g ∧ t ∈ g.todo ∧ (afterStart .deswz8 img).status.busy = true ∧
      Withheld t (afterStart .deswz8 img) v) ∧
    (∃ t, core.run 1 { running none with agenda := [.hostRead 0x40000004 4 []] } = .next t) ∧
    (∀ e ∈ [Event.hostRead 0x40000004 4 []], e ≠ .reset ∧ e.isAnswer = false) ∧
    resets { running none with agenda := [.reset] } :=
  ⟨⟨_, BulkOp.deswz8.transfer img.params 1, _, rfl, by decide, by decide,
      .answer 0 [] _ (BulkOp.deswz8.transfer img.params 0) .start rfl rfl (by decide) (by decide)⟩,
    ⟨_, rfl⟩, by simp [Event.isAnswer], rfl⟩

/-- `n` answers, each to the first transfer left, a poll of STATUS, and a write of WIDTH that BUSY drops. -/
def busyEvents (n : Nat) : List Event :=
  List.replicate n (.busAnswer 0 []) ++ [.hostRead 0x40000004 4 [], .hostWrite 0x40000014 4 48 []]

theorem busyEvents_quiet (n : Nat) : ∀ e ∈ busyEvents n, e.isQuiet Platform.initial = true := by
  intro e he
  rcases List.mem_append.1 he with he | he
  · rw [List.eq_of_mem_replicate he]; rfl
  · exact (by decide : ∀ e ∈ [Event.hostRead 0x40000004 4 [], .hostWrite 0x40000014 4 48 []],
      e.isQuiet Platform.initial = true) e he

theorem busyEvents_answers (n : Nat) : ((busyEvents n).filter Event.isAnswer).length = n := by
  simp [busyEvents, List.filter_append, List.filter_replicate, Event.isAnswer]

theorem img_buffersOK (op : BulkOp) (h : op.length img.params = 64) (ev : List Event) :
    buffersOK op { img with agenda := ev } := by
  intro k hk
  have hk' : k < 64 := h ▸ hk
  have hf : img.platform.failing = [] := rfl
  have hs : img.params.src.toNat = 0x1000 := by decide
  have hd : img.params.dst.toNat = 0x2000 := by decide
  simp only [memOK, hf, hs, hd, List.all_nil, Bool.and_true, decide_eq_true_eq]
  omega

/-- `Deswz8CompletesInEveryOrder`. -/
theorem witness_Deswz8CompletesInEveryOrder :
    ∃ s : State, s.Inv ∧ s.status.busy = false ∧
      s.agenda = cmdWrite s 0x00000001 :: (busyEvents 128 ++ .busAnswer 0 [] :: []) ∧
      BulkOp.deswz8.legal s.params = true ∧ buffersOK .deswz8 s ∧ (∀ e ∈ busyEvents 128, e.isQuiet s.platform = true) ∧
      ((busyEvents 128).filter Event.isAnswer).length = 2 * (s.params.w * s.params.h) :=
  ⟨{ img with agenda := cmdWrite img 0x00000001 :: (busyEvents 128 ++ .busAnswer 0 [] :: []) }, img_inv _, by decide, rfl,
    by decide, img_buffersOK _ (by decide) _, busyEvents_quiet _, by rw [busyEvents_answers]; decide⟩

/-- `Swz8CompletesInEveryOrder`. -/
theorem witness_Swz8CompletesInEveryOrder :
    ∃ s : State, s.Inv ∧ s.status.busy = false ∧
      s.agenda = cmdWrite s 0x00000002 :: (busyEvents 128 ++ .busAnswer 0 [] :: []) ∧
      BulkOp.swz8.legal s.params = true ∧ buffersOK .swz8 s ∧ (∀ e ∈ busyEvents 128, e.isQuiet s.platform = true) ∧
      ((busyEvents 128).filter Event.isAnswer).length = 2 * (s.params.w * s.params.h) :=
  ⟨{ img with agenda := cmdWrite img 0x00000002 :: (busyEvents 128 ++ .busAnswer 0 [] :: []) }, img_inv _, by decide, rfl,
    by decide, img_buffersOK _ (by decide) _, busyEvents_quiet _, by rw [busyEvents_answers]; decide⟩

/-- The start of program 2, L = 32. -/
def pal : State := { palette 32 0 0x4000 0x5000 with mem := [(0x4000, 0x80)] }

theorem pal_inv (ev : List Event) : State.Inv { pal with agenda := ev } where
  mem := by show Memory.wf [(0x4000, 0x80)] = true; decide
  status := by refine ⟨?_, ?_, ?_, ?_⟩ <;> simp [pal, palette, State.reset]
  idle := by simp [pal, palette, State.reset]
  engine := by intro g h; cases h
  errAddr := by intro _; rfl
  result := by show (7 : Word).toNat < 2 ^ 24; decide
  written := by intro w hw; cases hw
  stale := by intro _ t ht; cases ht

/-- `PalpermCompletesInEveryOrder`. -/
theorem witness_PalpermCompletesInEveryOrder :
    ∃ s : State, s.Inv ∧ s.status.busy = false ∧
      s.agenda = cmdWrite s 0x00000003 :: (busyEvents 64 ++ .busAnswer 0 [] :: []) ∧
      BulkOp.palperm.legal s.params = true ∧ buffersOK .palperm s ∧ (∀ e ∈ busyEvents 64, e.isQuiet s.platform = true) ∧
      ((busyEvents 64).filter Event.isAnswer).length = 2 * s.params.l := by
  refine ⟨{ pal with agenda := cmdWrite pal 0x00000003 :: (busyEvents 64 ++ .busAnswer 0 [] :: []) }, pal_inv _,
    by decide, rfl, by decide, ?_, busyEvents_quiet _, by rw [busyEvents_answers]; decide⟩
  intro k hk
  have h : pal.platform.failing = [] := rfl
  have hk' : k < 128 := hk
  have hs : pal.params.src.toNat = 0x4000 := by decide
  have hd : pal.params.dst.toNat = 0x5000 := by decide
  simp only [memOK, h, hs, hd, List.all_nil, Bool.and_true, decide_eq_true_eq]
  omega

/-- `PartialCommandLeavesOldOrNew`, `ResetLeavesOldOrNew`, `RacingReadReturnsOldOrNew`: DESWZ8 just started, one access
answered and STATUS polled. -/
theorem witness_command_under_way :
    ∃ u t, State.Inv { img with agenda := [] } ∧ img.status.busy = false ∧ BulkOp.deswz8.legal img.params = true ∧
      exec BulkOp.deswz8.instr img = .next u ∧ Underway u t ∧ t.status.busy = true ∧ valuesAt img.late 0x2000 = [] :=
  ⟨_, _, img_inv [], by decide, by decide, rfl, (Underway.start.answer 5 []).poll 4, by decide, rfl⟩

/-- `EveryByteMovesExactlyOnce`: the smallest image and palette. -/
theorem witness_EveryByteMovesExactlyOnce :
    BulkOp.deswz8.legal img.params = true ∧ BulkOp.swz8.legal img.params = true ∧ BulkOp.palperm.legal pal.params = true := by
  decide

/-- `SwizzleIsBijective`, at both ends of DimOK; `PaletteIsInvolution`, at both ends of PalLenOK. -/
theorem witness_legal_sizes :
    dimOK 16 4 = true ∧ dimOK 4096 4096 = true ∧ palLenOK 32 = true ∧ palLenOK 256 = true := by decide

/-- `ResetValues`. -/
theorem witness_ResetValues : resets { running none with agenda := [.reset] } := rfl

/-- `ReservedSpaceReadsZero`, `BusyWritesAreDropped`: both ends of the reserved space, and its neighbour below. -/
theorem witness_reserved_space : regAt 0x30 = none ∧ regAt 0xFF = none ∧ regAt 0x2C = some .errAddr := by decide

/-- `ParameterRegistersReadBack`, `HostReadReturnsItsValue`: idle, a write and a read of the last parameter register. -/
theorem witness_ParameterRegistersReadBack :
    img.status.busy = false ∧
    ({ img with agenda := [.hostWrite (img.platform.base + 0x24) 4 (0xFFFFFFFF : Word).toNat []] } : State).agenda =
      [.hostWrite (img.platform.base + 0x24) 4 (0xFFFFFFFF : Word).toNat []] ∧
    ({ img with agenda := [.hostRead (img.platform.base + 0x24) 4 []] } : State).agenda =
      [.hostRead (img.platform.base + 0x24) 4 []] := by decide

/-- `IllegalRegisterAccessFaults`: an 8-byte access at an aligned offset, and a 4-byte access at the last offset. -/
theorem witness_IllegalRegisterAccessFaults :
    windowOffset img.platform 0x40000004 < 256 ∧ 8 ≠ 4 ∧ windowOffset img.platform 0x400000FF < 256 ∧
    windowOffset img.platform 0x400000FF % 4 ≠ 0 := by decide

/-- `OutcomeFlagsLifetime`: steps that set and clear DONE and ERR. -/
theorem witness_OutcomeFlagsLifetime :
    (∃ t, step (img.withFetchWord 32 0) = .next t ∧ img.status.done = false ∧ t.status.done = true) ∧
    (∃ t, step (img.withFetchWord 32 6) = .next t ∧ img.status.err = false ∧ t.status.err = true) ∧
    (∃ s t, step s = .next t ∧ s.status.done = true ∧ t.status.done = false) ∧
    (∃ s t, step s = .next t ∧ s.status.err = true ∧ t.status.err = false) :=
  ⟨⟨_, rfl, by decide, by decide⟩, ⟨_, rfl, by decide, by decide⟩,
    ⟨{ afterDone img with agenda := [.hostWrite 0x40000004 4 2 []] }, _, rfl, by decide, by decide⟩,
    ⟨{ afterError .badDim img with agenda := [.hostWrite 0x40000004 4 4 []] }, _, rfl, by decide, by decide⟩⟩

/-- `WbusyLifetime`: a dropped write, and the W1C write that clears WBUSY. -/
theorem witness_WbusyLifetime :
    (∃ t, step { running none with agenda := [.hostWrite 0x40000024 4 0 []] } = .next t ∧ t.status.wbusy = true ∧
      writesReg { running none with agenda := [.hostWrite 0x40000024 4 0 []] } .index 0) ∧
    (∃ s t, step s = .next t ∧ s.status.wbusy = true ∧ t.status.wbusy = false) :=
  ⟨⟨_, rfl, by decide, 0x40000024, 0, [], rfl, rfl, by decide, by decide⟩,
    ⟨{ dropWrite (running none) with agenda := [.hostWrite 0x40000004 4 8 []] }, _, rfl, by decide, by decide⟩⟩

/-- `ResultWriters`, `ErrAddrWriters`, `HostRegistersAreTheHosts`: steps that change RESULT, ERRADDR, WIDTH, CTRL. -/
theorem witness_register_changes :
    (∃ t, step ((pixel 16 4 5 2).withFetchWord 32 4) = .next t ∧ t.result ≠ (pixel 16 4 5 2).result) ∧
    (∃ s t, step s = .next t ∧ t.errAddr ≠ s.errAddr) ∧
    (∃ t, step { img with agenda := [.hostWrite 0x40000014 4 32 []] } = .next t ∧ t.params ≠ img.params) ∧
    (∃ t, step { img with agenda := [.hostWrite 0x40000000 4 1 []] } = .next t ∧ t.irqEn ≠ img.irqEn) :=
  ⟨⟨_, rfl, by decide⟩, ⟨{ img with errAddr := 4, agenda := [.reset] }, _, rfl, by decide⟩, ⟨_, rfl, by decide⟩,
    ⟨_, rfl, by decide⟩⟩

/-- `IrqFollowsTheOutcome`: enabled and idle, a running command, STATUS writes that clear both causes or one, and a bus
answer to a running command with IRQ enabled. -/
theorem witness_IrqFollowsTheOutcome :
    (∃ t, exec .nop { img with irqEn := true } = .next t ∧ img.status.busy = false) ∧
    ((running none).Inv ∧ (running none).status.busy = true) ∧
    (∃ t, writeReg .status 0xE img = .next t ∧ (0xE : Word).getLsbD 1 = true ∧ (0xE : Word).getLsbD 2 = true) ∧
    (∃ t, writeReg .status 2 (afterDone img) = .next t ∧ (2 : Word).getLsbD 1 = true ∧ (afterDone img).status.err = false) ∧
    (∃ t, writeReg .status 4 (afterError .badDim img) = .next t ∧ (4 : Word).getLsbD 2 = true ∧
      (afterError .badDim img).status.done = false) ∧
    ∃ s : State, s.Inv ∧ s.irqEn = true ∧ s.status.busy = true := by
  refine ⟨⟨_, rfl, by decide⟩, ⟨running_inv _ (by simp), by decide⟩, ⟨_, rfl, by decide, by decide⟩,
    ⟨_, rfl, by decide, by decide⟩, ⟨_, rfl, by decide, by decide⟩, { running none with irqEn := true }, ?_, rfl, by decide⟩
  have h := running_inv none (by simp)
  exact ⟨h.mem, h.status, h.idle, h.engine, h.errAddr, h.result, h.written, h.stale⟩

/-- R166: a bus error raises IRQ, and so does a completion. -/
theorem test_irq_at_the_end_of_a_bulk_command :
    [(busAnswer 0 [] { running none with
        irqEn := true, platform := { Platform.initial with failing := [{ first := 0x1000, last := 0x1000 }] } }).irq,
     (busAnswer 0 [] { running none with
        irqEn := true, engine := some { op := .deswz8, todo := [], oldSource := [] } }).irq] = [true, true] := by decide

/-- `MemoryWriters`: a host write of memory. -/
theorem witness_MemoryWriters :
    ∃ t : State, step { img with agenda := [.hostWrite 0x2000 1 0x11 []] } = .next t ∧ t.mem.read 0x2000 ≠ img.mem.read 0x2000 :=
  ⟨_, rfl, by decide⟩

theorem done_inv (coherent : Bool) (ev : List Event) :
    State.Inv { afterDone img with platform := { Platform.initial with coherent := coherent }, agenda := ev } where
  mem := (img_inv []).mem
  status := by refine ⟨?_, ?_, ?_, ?_⟩ <;> simp [afterDone]
  idle := by simp [afterDone, img, image, State.reset]
  engine := by intro g hg; cases hg
  errAddr := by intro _; rfl
  result := (img_inv []).result
  written := by intro w hw; cases hw
  stale := by intro _ t ht; cases ht

/-- `CompletionPointEndsTheRaces`: a completed command, on a coherent platform and on one that is not, with and
without another command before the maintenance; no value is in question at any byte. -/
theorem witness_CompletionPointEndsTheRaces :
    (∃ s : State, s.Inv ∧ s.status.showsEnd = true ∧ s.platform.coherent = true ∧
      s.agenda = [.hostRead (s.platform.base + 0x04) 4 []] ∧ ∀ t ∈ s.stale, t.addr = 0x2000 → t.phase = .unseen) ∧
    (∃ s : State, s.Inv ∧ s.status.showsEnd = true ∧ s.platform.coherent = false ∧
      s.agenda = [.hostRead (s.platform.base + 0x04) 4 [], .maintain]) ∧
    (∃ s : State, s.Inv ∧ s.status.showsEnd = true ∧ s.platform.coherent = false ∧
      s.agenda = [.hostRead (s.platform.base + 0x04) 4 [], cmdWrite s 1, .maintain]) :=
  ⟨⟨_, done_inv true [.hostRead 0x40000004 4 []], by decide, rfl, rfl, by intro t ht; cases ht⟩,
    ⟨_, done_inv false [.hostRead 0x40000004 4 [], .maintain], by decide, rfl, rfl⟩,
    ⟨_, done_inv false [.hostRead 0x40000004 4 [], .hostWrite 0x40000008 4 1 [], .maintain], by decide, rfl, rfl⟩⟩

/-- One byte of the destination has landed, unobserved: a value of the command is in `written`. -/
def landed (coherent : Bool) : State :=
  { busAnswer 0 [] (running (some [0x5A])) with platform := { Platform.initial with coherent := coherent } }

/-- `CompletionPointEndsTheRaces`, its other premise: a byte that the completed command has written, on a platform
that is not coherent. -/
theorem witness_CompletionPointEndsTheRaces_written :
    ∃ s : State, s.Inv ∧ s.status.showsEnd = true ∧ s.platform.coherent = false ∧
      s.agenda = [.hostRead (s.platform.base + 0x04) 4 []] ∧ ∃ w ∈ s.written, w.phase = .unseen ∧ w.addr = 0x2000 := by
  refine ⟨{ complete (landed false) with agenda := [.hostRead 0x40000004 4 []] }, ⟨?_, ?_, ?_, ?_, ?_, ?_, ?_, ?_⟩,
    by decide, rfl, rfl, _, List.mem_singleton.2 rfl, rfl, rfl⟩
  · show Memory.wf [(0x1000, 0x5A), (0x2000, 0x5A)] = true
    decide
  · refine ⟨?_, ?_, ?_, ?_⟩ <;> decide
  · decide
  · intro g hg; cases hg
  · intro _; rfl
  · show (0 : Word).toNat < 2 ^ 24; decide
  · intro w hw; rw [List.mem_singleton.1 hw]; decide
  · intro hc; cases hc

/-- R64, R197: with COHERENT false the STATUS read alone leaves the older value readable, the maintenance after it does
not; on a coherent platform the read is enough; and a host write races no more. -/
theorem test_read_without_maintenance :
    [(tracesAt (windowRead 4 (complete (landed false))).stale 0x2000).length,
     (tracesAt (maintain (windowRead 4 (complete (landed false)))).stale 0x2000).length,
     (tracesAt (windowRead 4 (complete (landed true))).stale 0x2000).length] = [1, 0, 0] ∧
    racing (windowRead 4 (complete (landed false))) 0x2000 = false := by decide

/-! ## Races: R63, R64, R191, R197 -/

/-- R63: a host write of a landed byte leaves the host's value or the command's. -/
theorem test_racing_write :
    [true, false].map (fun w => (hostWriteByte 0x2000 0x11 w (landed true)).mem.read 0x2000) = [0x11, 0x5A] := by decide

/-- R64: completion alone ends no race: the older value stays readable, and a host write still races. -/
theorem test_completion_is_no_completion_point :
    let s := complete (landed true)
    ([0, 1].map (hostByte s 0x2000), racing s 0x2000) = ([0x5A, 0x00], true) := by decide

/-- R64, R197: the DONE of a later NOP does not show the end of the command; its own does. -/
theorem test_only_its_own_done_counts :
    [(windowRead 4 (complete (landed true))).stale.length,
     (windowRead 4 (command finish (complete (landed true)))).stale.length] = [0, 1] := by decide

/-- R64, R197: with COHERENT false, maintenance counts for a command whose DONE was read before it, though another
command has been accepted since; without that DONE it does not. -/
theorem test_maintenance_after_the_read :
    [(maintain (accept (windowRead 4 (complete (landed false))))).stale.length,
     (maintain (accept (complete (landed false)))).stale.length, (maintain (landed false)).stale.length] = [0, 1, 1] := by decide

/-- R191: after a reset a host write of a destination byte is kept, whatever the event says, and nothing older is read. -/
theorem test_rewrite_after_reset :
    let s := hostWriteByte 0x2000 0x11 false (resetBlock (landed true))
    (s.mem.read 0x2000, s.stale, s.late) = (0x11, [], []) := by decide

/-- `HostReadReturnsItsValue`: a byte at the last address below the window, and the last register. -/
theorem witness_HostReadReturnsItsValue :
    256 ≤ windowOffset img.platform 0x3FFFFFFF ∧ memOK img.platform (0x3FFFFFFF : Word).toNat = true ∧
    regAt (windowOffset img.platform 0x4000002C) = some .errAddr := by decide

/-- `QuietHostWriteIsKept`, at the same address; and a race with a landed byte. -/
theorem witness_QuietHostWriteIsKept :
    (∃ s : State, s.Inv ∧ s.agenda = [.hostWrite 0x3FFFFFFF 1 1 [true]] ∧ 256 ≤ windowOffset s.platform 0x3FFFFFFF ∧
      memOK s.platform (0x3FFFFFFF : Word).toNat = true ∧ racing s (0x3FFFFFFF : Word).toNat = false) ∧
    racing (landed true) 0x2000 = true ∧ tracesAt (landed true).written 0x2000 = [0x5A] :=
  ⟨⟨{ img with agenda := [.hostWrite 0x3FFFFFFF 1 1 [true]] }, img_inv _, rfl, by decide, by decide, by decide⟩, by decide,
    by decide⟩

/-- The state after `n` answers, each to the first transfer left. -/
def answered (n : Nat) (s : State) : State := answerAll (List.replicate n (0, [])) s

/-- The whole run of DESWZ8 over an image of blank memory. -/
def deswizzled : State := answered 129 (afterStart .deswz8 (image 16 4 0x1000 0x2000))

theorem deswizzled_ends : deswizzled.status.done = true ∧ deswizzled.mem = [] := by decide +kernel

theorem image_inv (src dst : Nat) : (image 16 4 src dst).Inv where
  mem := rfl
  status := by refine ⟨?_, ?_, ?_, ?_⟩ <;> simp [image, State.reset]
  idle := by simp [image, State.reset]
  engine := by intro g h; cases h
  errAddr := by intro _; rfl
  result := by show (0 : Word).toNat < 2 ^ 24; decide
  written := by intro w hw; cases hw
  stale := by intro _ t ht; cases ht

/-- `SwizzleRoundTrip`: DESWZ8 from 0x1000 to 0x2000, then SWZ8 from there to 0x3000. -/
theorem witness_SwizzleRoundTrip :
    ∃ t t' : State, (image 16 4 0x1000 0x2000).Inv ∧ (image 16 4 0x2000 0x3000).Inv ∧
      runsTo .deswz8 (image 16 4 0x1000 0x2000) t ∧ runsTo .swz8 (image 16 4 0x2000 0x3000) t' ∧
      (image 16 4 0x2000 0x3000).params.width = (image 16 4 0x1000 0x2000).params.width ∧
      (image 16 4 0x2000 0x3000).params.height = (image 16 4 0x1000 0x2000).params.height ∧
      ∀ k, k < 64 → (image 16 4 0x2000 0x3000).mem.read (0x2000 + k) = t.mem.read (0x2000 + k) :=
  ⟨deswizzled, answered 129 (afterStart .swz8 (image 16 4 0x2000 0x3000)), image_inv _ _, image_inv _ _,
    ⟨by decide, _, rfl, Underway.start.answerAll _, deswizzled_ends.1⟩,
    ⟨by decide, _, rfl, Underway.start.answerAll _, by decide +kernel⟩, rfl, rfl,
    fun k _ => by rw [deswizzled_ends.2]; rfl⟩

/-- The whole run of PALPERM over a palette of 32 entries of blank memory. -/
def permuted : State := answered 65 (afterStart .palperm (palette 32 0 0x4000 0x5000))

theorem permuted_ends : permuted.status.done = true ∧ permuted.mem = [] := by decide +kernel

theorem palette_inv (src dst : Nat) : (palette 32 0 src dst).Inv where
  mem := rfl
  status := by refine ⟨?_, ?_, ?_, ?_⟩ <;> simp [palette, State.reset]
  idle := by simp [palette, State.reset]
  engine := by intro g h; cases h
  errAddr := by intro _; rfl
  result := by show (7 : Word).toNat < 2 ^ 24; decide
  written := by intro w hw; cases hw
  stale := by intro _ t ht; cases ht

/-- `PaletteRoundTrip`: program 2's two commands. -/
theorem witness_PaletteRoundTrip :
    ∃ t t' : State, (palette 32 0 0x4000 0x5000).Inv ∧ (palette 32 0 0x5000 0x6000).Inv ∧
      runsTo .palperm (palette 32 0 0x4000 0x5000) t ∧ runsTo .palperm (palette 32 0 0x5000 0x6000) t' ∧
      (palette 32 0 0x5000 0x6000).params.palLen = (palette 32 0 0x4000 0x5000).params.palLen ∧
      ∀ k, k < 128 → (palette 32 0 0x5000 0x6000).mem.read (0x5000 + k) = t.mem.read (0x5000 + k) :=
  ⟨permuted, answered 65 (afterStart .palperm (palette 32 0 0x5000 0x6000)), palette_inv _ _, palette_inv _ _,
    ⟨by decide, _, rfl, Underway.start.answerAll _, permuted_ends.1⟩,
    ⟨by decide, _, rfl, Underway.start.answerAll _, by decide +kernel⟩, rfl,
    fun k _ => by rw [permuted_ends.2]; rfl⟩

/-- `CompletedCommandIsVisible`: that run, read at the first destination byte. -/
theorem witness_CompletedCommandIsVisible :
    (image 16 4 0x1000 0x2000).Inv ∧ runsTo .deswz8 (image 16 4 0x1000 0x2000) deswizzled ∧
      0 < BulkOp.deswz8.elements (image 16 4 0x1000 0x2000).params ∧ 0 < BulkOp.deswz8.accessBytes :=
  ⟨image_inv _ _, ⟨by decide, _, rfl, Underway.start.answerAll _, deswizzled_ends.1⟩, by decide, by decide⟩

/-- `UnreadEndKeepsTheRaces`: that run, its end not read, and DONE then cleared, STATUS polled and
the caches maintained. -/
theorem witness_UnreadEndKeepsTheRaces :
    (image 16 4 0x1000 0x2000).Inv ∧ BulkOp.deswz8.legal (image 16 4 0x1000 0x2000).params = true ∧
    ∃ u, exec .deswz8 (image 16 4 0x1000 0x2000) = .next u ∧ Unread false u deswizzled ∧ deswizzled.status.done = true ∧
      Unread true u (maintain (windowRead 4 (writeStatus 0xE deswizzled))) ∧ (image 16 4 0x1000 0x2000).stale = [] :=
  ⟨image_inv _ _, by decide, _, rfl, Unread.start.answerAll _, deswizzled_ends.1,
    (((Unread.start.answerAll _).clear 0xE).poll 4 fun _ => by decide +kernel).maintain rfl, rfl⟩

/-- `RacingWriteKeepsHostsOrCommands`: the host writes the first destination byte, landed and not landed. -/
theorem witness_RacingWriteKeepsHostsOrCommands :
    (image 16 4 0x1000 0x2000).Inv ∧ BulkOp.deswz8.legal (image 16 4 0x1000 0x2000).params = true ∧
    tracesAt (image 16 4 0x1000 0x2000).written 0x2000 = [] ∧
    256 ≤ windowOffset (image 16 4 0x1000 0x2000).platform 0x2000 ∧
    ∃ u t v, exec .deswz8 (image 16 4 0x1000 0x2000) = .next u ∧ Underway u t ∧
      deliver (.hostWrite 0x2000 1 7 [true]) u = .next v ∧
      (∃ v', deliver (.hostWrite 0x2000 1 7 [false]) t = .next v') ∧ tracesAt t.written 0x2000 ≠ [] :=
  ⟨image_inv _ _, by decide, rfl, by decide, _, _, _, rfl, (Underway.start.answer 0 []).answer 0 [], rfl, ⟨_, rfl⟩, by decide⟩

/-- `RacingSourceWriteMovesOldOrNew`: the host writes the last source byte. -/
theorem witness_RacingSourceWriteMovesOldOrNew :
    (image 16 4 0x1000 0x2000).Inv ∧ 0x1000 + 63 < 0x1000 + BulkOp.deswz8.length (image 16 4 0x1000 0x2000).params ∧
    ∃ u v, exec .deswz8 (image 16 4 0x1000 0x2000) = .next u ∧ Underway u u ∧
      deliver (.hostWrite 0x103F 1 7 [true]) u = .next v :=
  ⟨image_inv _ _, by decide, _, _, rfl, .start, rfl⟩

/-- `RewrittenByteIsReliableAfterReset`: a reset of a running command, the rewriting of a destination byte, and a new
command elsewhere. -/
theorem witness_RewrittenByteIsReliableAfterReset :
    ∃ s t v u, s.Inv ∧ resets s ∧ step s = .next t ∧ deliver (.hostWrite 0x2000 1 7 [false]) t = .next v ∧
      256 ≤ windowOffset s.platform 0x2000 ∧
      exec BulkOp.deswz8.instr { endLate [(0, true)] v with params := (image 16 4 0x1000 0x3000).params } = .next u ∧
      u.status.busy = true :=
  ⟨{ img with agenda := [.reset] }, _, _, _, img_inv _, rfl, rfl, rfl, by decide, rfl, by decide⟩

/-- `StepKeepsInvariant`. -/
theorem witness_StepKeepsInvariant : State.Inv { img with agenda := [] } ∧ ∃ t, step { img with agenda := [] } = .next t :=
  ⟨img_inv [], ⟨_, rfl⟩⟩

end Sys2Proof.Tests
end

/-! # What a step keeps: the rules of state and registers

The invariant of every step, the reset, the register map, and who may write each register. -/

namespace Sys2Proof.Machine

/-! ## The coding of commands and the size of results -/

/-- An OP value that decodes is the opcode of its command (R83). -/
theorem opcode_of_decodeOp {op : BitVec 8} {i : Instr} (h : decodeOp op = .ok i) : i.opcode = op := by
  unfold decodeOp at h
  split at h
  case h_7 => cases h
  all_goals
    next hop =>
      cases h
      exact (BitVec.eq_of_toNat_eq hop).symm

/-- A word that decodes is the word of its command (R81, R85). -/
theorem encode_of_decode {w : Word} {i : Instr} (h : decode w = .ok i) : encode i = w := by
  unfold decode at h
  split at h
  · next hrsv =>
    have hw : rsvField w ++ opField w = w := BitVec.extractLsb'_append_extractLsb'_eq_extractLsb' rfl |>.trans
      (BitVec.extractLsb'_eq_self)
    rw [encode, opcode_of_decodeOp h, ← hrsv, hw]
  · cases h

/-- A tiled offset lies in its image (R103). -/
theorem swizzleOffset_lt {x y w h : Nat} (hd : dimOK w h = true) (hx : x < w) (hy : y < h) :
    swizzleOffset x y w < w * h := by
  obtain ⟨-, -, hw, -, -, hh⟩ := dimOK_iff.1 hd
  have hcol : 2 * (y / 4) + y % 2 + 1 ≤ h / 2 := by omega
  have hrow : 32 * (x / 16) + 32 ≤ 2 * w := by omega
  calc swizzleOffset x y w
      < 2 * w * (2 * (y / 4) + y % 2) + (32 * (x / 16) + 32) := by rw [swizzleOffset_eq]; omega
    _ ≤ 2 * w * (2 * (y / 4) + y % 2) + 2 * w := by omega
    _ = 2 * w * (2 * (y / 4) + y % 2 + 1) := by ring
    _ ≤ 2 * w * (h / 2) := Nat.mul_le_mul_left _ hcol
    _ = w * (2 * (h / 2)) := by ring
    _ = w * h := by rw [show 2 * (h / 2) = h by omega]

/-- An image has at most 2^24 pixels (R100). -/
theorem dimOK_area_le {w h : Nat} (hd : dimOK w h = true) : w * h ≤ 2 ^ 24 := by
  obtain ⟨-, hw, -, -, hh, -⟩ := dimOK_iff.1 hd
  calc w * h ≤ 4096 * 4096 := Nat.mul_le_mul hw hh
    _ = 2 ^ 24 := by norm_num

/-- A palette index lies in its palette (R133). -/
theorem paletteIndex_lt {i l : Nat} (hl : palLenOK l = true) (hi : i < l) : paletteIndex i < l := by
  obtain ⟨-, -, hm⟩ := palLenOK_iff.1 hl
  simp only [paletteIndex]
  omega

theorem toNat_ofNat_lt_of_lt {n b : Nat} (h : n < b) : (BitVec.ofNat 32 n).toNat < b :=
  (Nat.mod_le _ _).trans_lt h

/-! ## What the engine holds -/

theorem BulkOp.accessBytes_pos (op : BulkOp) : 0 < op.accessBytes := by cases op <;> decide

/-- A plan is made of pairs without data. -/
theorem map_pair_plan (op : BulkOp) (p : Params) : (plan op p).map Transfer.pair = plan op p := by
  rw [plan, List.map_map]
  rfl

theorem data_of_mem_plan {op : BulkOp} {p : Params} {t : Transfer} (h : t ∈ plan op p) : t.data = none := by
  obtain ⟨e, -, rfl⟩ := List.mem_map.1 h
  rfl

/-- A legal command starts with its whole plan to do. -/
theorem Engine.Fits.start {op : BulkOp} {p : Params} (hl : op.legal p = true) :
    Engine.Fits { op := op, todo := plan op p, oldSource := [] } p where
  legal := hl
  todo := by rw [map_pair_plan]
  data t ht bs hbs := by simp [data_of_mem_plan ht] at hbs

/-- An element's read answers: the pairs left stay, and the data has the width of the access (R55). -/
theorem Engine.Fits.read {g : Engine} {p : Params} (h : g.Fits p) {i : Nat} {t : Transfer} (ht : g.todo[i]? = some t)
    {bs : List Byte} (hbs : bs.length = g.op.accessBytes) :
    Engine.Fits { g with todo := g.todo.set i { t with data := some bs } } p where
  legal := h.legal
  todo := by
    obtain ⟨hi, rfl⟩ := List.getElem?_eq_some_iff.1 ht
    have hpairs : (g.todo.set i { g.todo[i] with data := some bs }).map Transfer.pair = g.todo.map Transfer.pair := by
      rw [List.map_set]
      refine List.ext_getElem (by simp) fun k _ _ => ?_
      rw [List.getElem_set]
      split
      · next hk => subst hk; simp [Transfer.pair]
      · rfl
    simpa only [hpairs] using h.todo
  data u hu cs hcs := by
    rcases List.mem_or_eq_of_mem_set hu with hu | rfl
    · exact h.data u hu cs hcs
    · cases hcs
      exact hbs

/-- An element's write answers: its transfer is done. -/
theorem Engine.Fits.erase {g : Engine} {p : Params} (h : g.Fits p) (i : Nat) :
    Engine.Fits { g with todo := g.todo.eraseIdx i } p where
  legal := h.legal
  todo := ((List.eraseIdx_sublist _ _).map _).trans h.todo
  data t ht := h.data t (List.mem_of_mem_eraseIdx ht)

/-! ## The invariant, operation by operation -/

/-- A missed trace is not one whose end has been shown, if it was not before. -/
theorem Trace.miss_phase_ne_shown {t : Trace} (h : t.phase ≠ .shown) : t.miss.phase ≠ .shown := by
  unfold Trace.miss
  split
  · exact Phase.noConfusion
  · exact h

theorem map_miss_phase_ne_shown {l : List Trace} (h : ∀ t ∈ l, t.phase ≠ .shown) :
    ∀ t ∈ l.map Trace.miss, t.phase ≠ .shown := by
  intro t ht
  obtain ⟨u, hu, rfl⟩ := List.mem_map.1 ht
  exact Trace.miss_phase_ne_shown (h u hu)

theorem phase_of_mem_tracesOf {a : Nat} {bs : List Byte} {t : Trace} (h : t ∈ tracesOf a bs) : t.phase = .unseen := by
  obtain ⟨c, -, rfl⟩ := List.mem_map.1 h
  rfl

namespace State.Inv

variable {s : State}

/-- While BUSY = 1 the outcome of the last command is clear (R26, R42). -/
theorem clear_of_busy (h : s.Inv) (hb : s.status.busy = true) :
    s.status.done = false ∧ s.status.err = false ∧ s.status.code = .none ∧ s.errAddr = 0 := by
  obtain ⟨hbd, hbe, -, hc⟩ := h.status
  have herr : s.status.err = false := by simpa [hb] using hbe
  exact ⟨by simpa [hb] using hbd, herr, by simpa [herr] using hc, h.errAddr (.inl hb)⟩

theorem busy_of_engine (h : s.Inv) {g : Engine} (hg : s.engine = some g) : s.status.busy = true := by
  by_contra hb
  rw [h.idle.2 (by simpa using hb)] at hg
  cases hg

/-- The next event, the data of the last host read, IRQ_EN and the late writes are not the invariant's. -/
theorem of_frame (h : s.Inv) (irqEn : Bool) (late : List Host.Cell) (readData : Nat) (agenda : List Event) :
    State.Inv { s with irqEn := irqEn, late := late, readData := readData, agenda := agenda } :=
  ⟨h.mem, h.status, h.idle, h.engine, h.errAddr, h.result, h.written, h.stale⟩

theorem dropWrite (h : s.Inv) : (dropWrite s).Inv :=
  ⟨h.mem, h.status, h.idle, h.engine, h.errAddr, h.result, h.written, h.stale⟩

theorem accept (h : s.Inv) : (accept s).Inv where
  mem := h.mem
  status := by simp [Status.Coherent]
  idle := h.idle
  engine := h.engine
  errAddr _ := rfl
  result := h.result
  written := map_miss_phase_ne_shown h.written
  stale hc := map_miss_phase_ne_shown (h.stale hc)

/-- A command that ends with an error code; only BUS_ERROR comes with an address (R162). -/
theorem raiseError (h : s.Inv) {c : ErrCode} {a : Word} (hc : c ≠ .none) (ha : c ≠ .busError → a = 0) :
    (raiseError c a s).Inv where
  mem := h.mem
  status := by simp [Status.Coherent, hc]
  idle := by simp
  engine := by simp
  errAddr := by simpa using ha
  result := h.result
  written := h.written
  stale := h.stale

/-- An immediate command that completes with a small result. -/
theorem finish (h : s.Inv) (hb : s.status.busy = false) (he : s.status.err = false) (ha : s.errAddr = 0)
    {r : Word} (hr : r.toNat < 2 ^ 24) : (finish { s with result := r }).Inv where
  mem := h.mem
  status := by
    obtain ⟨-, -, -, hc⟩ := h.status
    simpa [Status.Coherent, hb, he] using hc
  idle := h.idle
  engine := h.engine
  errAddr _ := ha
  result := hr
  written := h.written
  stale := h.stale

/-- A legal bulk command whose engine starts with its whole plan. -/
theorem startEngine (h : s.Inv) (hd : s.status.done = false) (he : s.status.err = false) (ha : s.errAddr = 0)
    {op : BulkOp} (hl : op.legal s.params = true) : (startEngine op (plan op s.params) s).Inv where
  mem := h.mem
  status := by
    obtain ⟨-, -, -, hc⟩ := h.status
    simpa [Status.Coherent, hd, he] using hc
  idle := by simp
  engine := by
    rintro g ⟨⟩
    exact Engine.Fits.start hl
  errAddr _ := ha
  result := h.result
  written := h.written
  stale := h.stale

/-- What an accepted command does keeps the invariant. -/
theorem body (h : s.Inv) (hb : s.status.busy = false) (i : Instr) : (bodyOf i (Machine.accept s)).Inv := by
  have ha := h.accept
  rcases body_cases i (Machine.accept s) with ⟨r, hbody, hr⟩ | ⟨c, hc, -, -, hbody⟩ | ⟨op, -, hl, hbody⟩ <;> rw [hbody]
  · refine ha.finish hb rfl rfl ?_
    rcases hr with ⟨-, rfl⟩ | ⟨-, hd, hx, hy, rfl⟩ | ⟨-, hl, hi, rfl⟩
    · exact h.result
    · exact toNat_ofNat_lt_of_lt ((swizzleOffset_lt hd hx hy).trans_le (dimOK_area_le hd))
    · obtain ⟨-, hle, -⟩ := palLenOK_iff.1 hl
      have := paletteIndex_lt hl hi
      exact toNat_ofNat_lt_of_lt (by omega)
  · exact ha.raiseError hc fun _ => rfl
  · exact ha.startEngine rfl rfl rfl hl

/-- A host write to STATUS clears flags, and ERRCODE with ERR (R32). -/
theorem acknowledge (h : s.Inv) (d e w : Bool) : (acknowledge d e w s).Inv where
  mem := h.mem
  status := by
    obtain ⟨hbd, hbe, hde, hc⟩ := h.status
    cases d <;> cases e <;> simp_all [Status.Coherent]
  idle := h.idle
  engine := h.engine
  errAddr hcase := by
    refine h.errAddr (hcase.imp_right (Or.imp (fun hd => ?_) fun he => ?_))
    · simp only [acknowledge_status, Bool.and_eq_true] at hd
      exact hd.1
    · cases e <;> simp_all
  result := h.result
  written := h.written
  stale := h.stale

/-- While no command runs the parameter registers are free (R43). -/
theorem params (h : s.Inv) (hb : s.status.busy = false) (p : Params) : State.Inv { s with params := p } where
  mem := h.mem
  status := h.status
  idle := h.idle
  engine g hg := by simp [h.idle.2 hb] at hg
  errAddr := h.errAddr
  result := h.result
  written := h.written
  stale := h.stale

theorem observe (h : s.Inv) : (observe s).Inv where
  mem := h.mem
  status := h.status
  idle := h.idle
  engine := h.engine
  errAddr := h.errAddr
  result := h.result
  written t ht := h.written t (List.mem_of_mem_filter ht)
  stale hc t ht := by
    rw [observe_stale, if_pos (show s.platform.coherent = true from hc)] at ht
    exact h.stale hc t (List.mem_of_mem_filter ht)

theorem maintain (h : s.Inv) : (maintain s).Inv :=
  ⟨h.mem, h.status, h.idle, h.engine, h.errAddr, h.result, h.written,
    fun hc t ht => h.stale hc t (List.mem_of_mem_filter ht)⟩

theorem windowRead (h : s.Inv) (offset : Nat) : (windowRead offset s).Inv := by
  obtain ⟨v, hw | ⟨-, -, hw⟩⟩ := windowRead_cases offset s <;> rw [hw]
  · exact h.of_frame _ _ v _
  · exact h.observe.of_frame _ _ v _

/-- A late write that lands leaves an older value whose end no STATUS read shows (R191). -/
theorem lateWrite (h : s.Inv) (pick : Nat) (lands : Bool) : (lateWrite pick lands s).Inv := by
  rcases lateWrite_cases pick lands s with hw | ⟨i, c, -, hw | ⟨hok, hw⟩⟩ <;> rw [hw]
  · exact h
  · exact h.of_frame ..
  · refine ⟨Memory.wf_write h.mem _ _ (memOK_lt hok), h.status, h.idle, h.engine, h.errAddr, h.result, h.written, ?_⟩
    intro hc t ht
    rcases List.mem_cons.1 ht with rfl | ht
    · exact Phase.noConfusion
    · exact h.stale hc t ht

/-- A host write of memory keeps the transfers of the engine. -/
theorem hostWriteBytes (h : s.Inv) (addr : Word) (v : Nat) (wins : List Bool) (ks : List Nat) :
    (hostWriteBytes addr v wins ks s).Inv := by
  obtain ⟨m, st, lt, old, hw, hwf, hst⟩ := hostWriteBytes_frame addr v wins ks s
  rw [hw]
  refine ⟨hwf h.mem, h.status, ?_, ?_, h.errAddr, h.result, h.written, ?_⟩
  · simpa using h.idle
  · intro g hg
    obtain ⟨g₀, hg₀, rfl⟩ := Option.map_eq_some_iff.1 hg
    obtain ⟨hl, ht, hd⟩ := h.engine g₀ hg₀
    exact ⟨hl, ht, hd⟩
  · intro hc t ht
    exact (hst t ht).elim (h.stale hc t) id

theorem resetBlock (h : s.Inv) : (resetBlock s).Inv where
  mem := h.mem
  status := by simp [Status.Coherent, State.reset]
  idle := by simp [State.reset]
  engine := by simp
  errAddr _ := rfl
  result := by simp
  written := by simp
  stale hc := map_miss_phase_ne_shown (h.stale hc)

/-! ### The engine -/

/-- A command whose transfers are all done completes (R154). -/
theorem complete (h : s.Inv) (hb : s.status.busy = true) : (complete s).Inv := by
  obtain ⟨-, he, hc, ha⟩ := h.clear_of_busy hb
  exact
    { mem := h.mem
      status := by simp [Status.Coherent, he, hc]
      idle := by simp
      engine := by simp
      errAddr := fun _ => ha
      result := h.result
      written := h.written
      stale := h.stale }

/-- The engine moves on to another part of its command. -/
theorem advance (h : s.Inv) {g g' : Engine} (hg : s.engine = some g) (hf : g'.Fits s.params) :
    State.Inv { s with engine := some g' } where
  mem := h.mem
  status := h.status
  idle := by simp [h.busy_of_engine hg]
  engine := by rintro _ ⟨⟩; exact hf
  errAddr := h.errAddr
  result := h.result
  written := h.written
  stale := h.stale

/-- An element write lands. -/
theorem landWrite (h : s.Inv) {a : Nat} {bs : List Byte} (hok : accessOK s.platform a bs.length = true)
    (hn : 0 < bs.length) : (landWrite a bs s).Inv where
  mem := landWrite_wf h.mem hok hn
  status := h.status
  idle := h.idle
  engine := h.engine
  errAddr := h.errAddr
  result := h.result
  written t ht := by
    rcases List.mem_append.1 ht with ht | ht
    · simp [phase_of_mem_tracesOf ht]
    · exact h.written t ht
  stale hc t ht := by
    rcases List.mem_append.1 ht with ht | ht
    · simp [phase_of_mem_tracesOf ht]
    · exact h.stale hc t ht

end State.Inv

/-- A bus answer keeps the invariant. -/
theorem State.Inv.busAnswer {s : State} (h : s.Inv) (pick : Nat) (picks : List Nat) : (busAnswer pick picks s).Inv := by
  rcases busAnswer_cases pick picks s with ⟨-, hb⟩ | ⟨g, hg, -, hb⟩ | ⟨g, t, hg, ht, -, -, hb⟩ |
    ⟨g, t, bs, hg, ht, hd, hok, hb⟩ | ⟨g, t, -, -, -, hb⟩ <;> rw [hb]
  · exact h
  · exact h.complete (h.busy_of_engine hg)
  · exact h.advance hg ((h.engine g hg).read ht (length_engineRead ..))
  · have hfits := h.engine g hg
    have hlen : bs.length = g.op.accessBytes := hfits.data t (List.mem_of_getElem? ht) bs hd
    rw [← hlen] at hok
    exact (h.landWrite hok (hlen ▸ g.op.accessBytes_pos)).advance hg (hfits.erase _)
  · exact h.raiseError (by decide) (absurd rfl)

/-- A write to a register keeps the invariant. -/
theorem State.Inv.writeReg {s t : State} (h : s.Inv) {r : Reg} {v : Word} (hw : writeReg r v s = .next t) : t.Inv := by
  rcases writeReg_cases hw with ⟨-, rfl⟩ | ⟨-, rfl⟩ | ⟨-, -, rfl⟩ | ⟨-, hb, i, -, rfl⟩ | ⟨-, -, -, rfl⟩ |
    ⟨-, hb, f, rfl⟩ | ⟨-, rfl⟩
  · exact h.of_frame ..
  · exact h.acknowledge ..
  · exact h.dropWrite
  · exact h.body hb i
  · exact h.accept.raiseError (by decide) fun _ => rfl
  · exact h.params hb _
  · exact h

/-- Settles O53: each operation that a step can be keeps the invariant. -/
theorem stepKeepsInvariant : Obligations.StepKeepsInvariant := by
  intro s t h hstep
  have rest : ∀ r, State.Inv { s with agenda := r } := fun r => h.of_frame _ _ _ r
  rcases step_cases hstep with ⟨-, rfl⟩ | ⟨r, ⟨addr, v, wins, reg, -, -, -, hw⟩ | ⟨addr, v, wins, -, -, rfl⟩ |
    ⟨addr, w, v, wins, -, -, -, rfl⟩ | ⟨addr, w, picks, -, -, rfl⟩ | ⟨addr, w, picks, v, -, rfl⟩ |
    ⟨pick, picks, -, rfl⟩ | ⟨pick, lands, -, rfl⟩ | ⟨-, rfl⟩ | ⟨-, rfl⟩⟩
  · exact h
  · exact (rest r).writeReg hw
  · exact rest r
  · exact (rest r).hostWriteBytes ..
  · exact (rest r).windowRead _
  · exact h.of_frame _ _ v r
  · exact (rest r).busAnswer pick picks
  · exact (rest r).lateWrite pick lands
  · exact (rest r).maintain
  · exact (rest r).resetBlock

/-- Settles O52: every field of the reset state is at its reset value. -/
theorem invariantHoldsAtReset : Obligations.InvariantHoldsAtReset where
  mem := reset_mem_wf
  status := by simp [Status.Coherent, State.reset]
  idle := by simp [State.reset]
  engine := by simp [State.reset]
  errAddr _ := rfl
  result := by simp [State.reset]
  written := by simp [State.reset]
  stale := by simp [State.reset]

end Sys2Proof.Machine

/-! # The registers: what each step does to them -/

namespace Sys2Proof.Machine

/-! ## The event a step delivers -/

/-- A step whose next event writes a register is that register write. -/
theorem step_of_writesReg {s : State} {r : Reg} {v : Word} (h : writesReg s r v) :
    ∃ rest, step s = writeReg r v { s with agenda := rest } := by
  obtain ⟨addr, n, wins, ha, rfl, hacc, hreg⟩ := h
  obtain ⟨rest, hrest⟩ := List.head?_eq_some_iff.1 ha
  refine ⟨rest, ?_⟩
  simp only [step_cons hrest, deliver, hostWrite, hacc, if_true, windowWrite, hreg]

/-- A step whose next event is a reset is that reset. -/
theorem step_of_resets {s : State} (h : resets s) : ∃ rest, step s = .next (resetBlock { s with agenda := rest }) := by
  obtain ⟨rest, hrest⟩ := List.head?_eq_some_iff.1 h
  exact ⟨rest, step_cons hrest⟩

/-- A 32-bit write at an aligned offset of a register is a write of that register. -/
theorem step_regWrite {s : State} {offset : Word} {r : Reg} {v : Nat} {wins : List Bool} {rest : List Event}
    (ha : s.agenda = .hostWrite (s.platform.base + offset) 4 v wins :: rest) (hr : regAt offset.toNat = some r)
    (hlt : offset.toNat < 256) (hal : offset.toNat % 4 = 0) :
    step s = writeReg r (BitVec.ofNat 32 v) { s with agenda := rest } := by
  rw [step_cons ha]
  exact (deliver_windowWrite (s := { s with agenda := rest }) hlt hal v wins).trans (by simp only [windowWrite, hr])

/-- A 32-bit read at an aligned offset of the window reads the window. -/
theorem step_windowRead {s : State} {offset : Word} {picks : List Nat} {rest : List Event}
    (ha : s.agenda = .hostRead (s.platform.base + offset) 4 picks :: rest)
    (hlt : offset.toNat < 256) (hal : offset.toNat % 4 = 0) :
    step s = .next (windowRead offset.toNat { s with agenda := rest }) := by
  rw [step_cons ha]
  exact deliver_windowRead (s := { s with agenda := rest }) hlt hal picks

/-! ## Writes while BUSY = 1 -/

/-- R43: a write to CMD or to a parameter register is dropped while BUSY = 1. -/
theorem writeReg_busy {s : State} (hb : s.status.busy = true) {r : Reg} (hr : r = .cmd ∨ r.isParam = true) (v : Word) :
    writeReg r v s = .next (dropWrite s) := by
  have param : ∀ f, Host.Outcome.next (writeParams f s) = (.next (dropWrite s) : Host.Outcome State Fault Refusal) := by
    intro f
    rw [writeParams, if_pos hb]
  cases r with
  | cmd =>
    rcases writeCmd_cases v s with ⟨i, -, hc⟩ | ⟨e, -, hc⟩
    · exact hc.trans (by rw [command_busy _ hb])
    · exact hc.trans (by rw [command_busy _ hb])
  | ctrl | status | result | errAddr => simp [Reg.isParam] at hr
  | src | dst | width | height | palLen | coord | index => exact param _

/-- The registers whose writes BUSY drops, in the order of the register map. -/
theorem cmd_or_isParam_iff {r : Reg} :
    (r = .cmd ∨ r.isParam = true) ↔
      r = .cmd ∨ r = .src ∨ r = .dst ∨ r = .width ∨ r = .height ∨ r = .palLen ∨ r = .coord ∨ r = .index := by
  cases r <;> simp [Reg.isParam]

theorem isParam_iff {r : Reg} :
    r.isParam = true ↔
      r = .src ∨ r = .dst ∨ r = .width ∨ r = .height ∨ r = .palLen ∨ r = .coord ∨ r = .index := by
  cases r <;> simp [Reg.isParam]

/-! ## The registers of a state -/

/-- The registers of the block as fields, and the platform beside them. -/
structure Regs where
  irqEn    : Bool
  status   : Status
  params   : Params
  result   : Word
  errAddr  : Word
  platform : Platform

/-- The registers of a state. -/
def State.regs (s : State) : Regs :=
  { irqEn := s.irqEn, status := s.status, params := s.params, result := s.result, errAddr := s.errAddr
    platform := s.platform }

/-- What a step at `s` can make of the registers, with the event that does it: the writers of each register. -/
inductive RegEffect (s : State) : Regs → Prop where
  /-- No register changes. -/
  | same : RegEffect s s.regs
  /-- A write to CTRL (R25). -/
  | ctrl {v : Word} (h : writesReg s .ctrl v) : RegEffect s { s.regs with irqEn := v.getLsbD 0 }
  /-- A write to STATUS (R32). -/
  | cleared {v : Word} (h : writesReg s .status v) : RegEffect s { s.regs with status := (writeStatus v s).status }
  /-- A write that BUSY drops (R43). -/
  | dropped {r : Reg} {v : Word} (h : writesReg s r v) (hr : r = .cmd ∨ r.isParam = true) (hb : s.status.busy = true) :
      RegEffect s { s.regs with status := { s.status with wbusy := true } }
  /-- A write to a parameter register (R20). -/
  | stored {r : Reg} {v : Word} (h : writesReg s r v) (hr : r.isParam = true) (hb : s.status.busy = false)
      (p : Params) : RegEffect s { s.regs with params := p }
  /-- An accepted immediate command that completes (R153). -/
  | finished {i : Instr} (h : writesReg s .cmd (encode i)) (hb : s.status.busy = false) (r : Word)
      (hr : r ≠ s.result → i = .axlate ∨ i = .pxlate) :
      RegEffect s { s.regs with
        status := { s.status with done := true, err := false, code := .none }, result := r, errAddr := 0 }
  /-- An accepted word that ends with an error at once (R162). -/
  | failed {v : Word} (h : writesReg s .cmd v) (hb : s.status.busy = false) (c : ErrCode) :
      RegEffect s { s.regs with
        status := { s.status with busy := false, done := false, err := true, code := c }, errAddr := 0 }
  /-- An accepted bulk command that starts (R154). -/
  | started {op : BulkOp} (h : writesReg s .cmd (encode op.instr)) (hb : s.status.busy = false)
      (hl : op.legal s.params = true) :
      RegEffect s { s.regs with
        status := { s.status with busy := true, done := false, err := false, code := .none }, errAddr := 0 }
  /-- A bus answer that completes the running command (R154). -/
  | completed {g : Engine} (h : busAnswers s) (hg : s.engine = some g) (ht : g.todo = []) :
      RegEffect s { s.regs with status := { s.status with busy := false, done := true } }
  /-- A bus answer that ends the running command with BUS_ERROR (R71). -/
  | busFailed {g : Engine} (h : busAnswers s) (hg : s.engine = some g) (a : Word) :
      RegEffect s { s.regs with
        status := { s.status with busy := false, done := false, err := true, code := .busError }, errAddr := a }
  /-- A reset (R47). -/
  | reset (h : resets s) : RegEffect s { State.reset.regs with platform := s.platform }

/-- What a register write does to the registers. -/
theorem writeReg_effect {s t : State} {r : Reg} {v : Word} {rest : List Event} (hw : writesReg s r v)
    (h : writeReg r v { s with agenda := rest } = .next t) : RegEffect s t.regs := by
  rcases writeReg_cases h with ⟨rfl, rfl⟩ | ⟨rfl, rfl⟩ | ⟨hr, hb, rfl⟩ | ⟨rfl, hb, i, hd, rfl⟩ | ⟨rfl, hb, -, rfl⟩ |
    ⟨hr, hb, f, rfl⟩ | ⟨-, rfl⟩
  · exact .ctrl hw
  · exact .cleared hw
  · exact .dropped hw hr hb
  · rw [← encode_of_decode hd] at hw
    rcases body_cases i (accept { s with agenda := rest }) with ⟨r, hbody, hr⟩ | ⟨c, -, -, -, hbody⟩ |
      ⟨op, rfl, hl, hbody⟩ <;> rw [hbody]
    · refine .finished hw hb r fun hne => ?_
      rcases hr with ⟨-, rfl⟩ | ⟨hi, -⟩ | ⟨hi, -⟩
      · exact absurd rfl hne
      · exact .inl hi
      · exact .inr hi
    · exact .failed hw hb c
    · exact .started hw hb hl
  · exact .failed hw hb _
  · exact .stored hw hr hb _
  · exact .same

/-- What a bus answer does to the registers. -/
theorem busAnswer_effect {s : State} (h : busAnswers s) (pick : Nat) (picks : List Nat) (rest : List Event) :
    RegEffect s (busAnswer pick picks { s with agenda := rest }).regs := by
  rcases busAnswer_cases pick picks { s with agenda := rest } with ⟨-, hb⟩ | ⟨g, hg, ht, hb⟩ |
    ⟨g, t, -, -, -, -, hb⟩ | ⟨g, t, bs, -, -, -, -, hb⟩ | ⟨g, t, hg, -, -, hb⟩ <;> rw [hb]
  · exact .same
  · exact .completed h hg ht
  · exact .same
  · exact .same
  · exact .busFailed h hg _

/-- A read of the window changes no register. -/
theorem windowRead_regs (offset : Nat) (s : State) : (windowRead offset s).regs = s.regs := by
  obtain ⟨v, h | ⟨-, -, h⟩⟩ := windowRead_cases offset s <;> rw [h] <;> rfl

/-- The end of a late write changes no register. -/
theorem lateWrite_regs (pick : Nat) (lands : Bool) (s : State) : (lateWrite pick lands s).regs = s.regs := by
  rcases lateWrite_cases pick lands s with h | ⟨i, c, -, h | ⟨-, h⟩⟩ <;> rw [h] <;> rfl

/-- A host write of memory changes no register. -/
theorem hostWriteBytes_regs (addr : Word) (v : Nat) (wins : List Bool) (ks : List Nat) (s : State) :
    (hostWriteBytes addr v wins ks s).regs = s.regs := by
  obtain ⟨m, st, lt, old, h, -, -⟩ := hostWriteBytes_frame addr v wins ks s
  rw [h]
  rfl

/-- Everything a step can do to the registers. -/
theorem step_effect {s t : State} (h : step s = .next t) : RegEffect s t.regs := by
  have same : t.regs = s.regs → RegEffect s t.regs := fun he => he ▸ .same
  rcases step_cases h with ⟨-, rfl⟩ | ⟨r, ⟨addr, v, wins, reg, ha, hacc, hreg, hw⟩ | ⟨addr, v, wins, -, -, rfl⟩ |
    ⟨addr, w, v, wins, -, -, -, rfl⟩ | ⟨addr, w, picks, -, -, rfl⟩ | ⟨addr, w, picks, v, -, rfl⟩ |
    ⟨pick, picks, ha, rfl⟩ | ⟨pick, lands, -, rfl⟩ | ⟨-, rfl⟩ | ⟨ha, rfl⟩⟩
  · exact .same
  · exact writeReg_effect ⟨addr, v, wins, by rw [ha]; rfl, rfl, hacc, hreg⟩ hw
  · exact .same
  · exact same (hostWriteBytes_regs ..)
  · exact same (windowRead_regs ..)
  · exact .same
  · exact busAnswer_effect ⟨pick, picks, by rw [ha]; rfl⟩ pick picks r
  · exact same (lateWrite_regs ..)
  · exact .same
  · exact .reset (by rw [resets, ha]; rfl)

end Sys2Proof.Machine

/-! # Who sets and who clears each register -/

namespace Sys2Proof.Machine

namespace RegEffect

variable {s : State} {r : Regs}

/-- DONE rises with an accepted command or with a completion. -/
theorem done_rises (e : RegEffect s r) (h₀ : s.status.done = false) (h₁ : r.status.done = true) :
    (s.status.busy = false ∧ ∃ i, writesReg s .cmd (encode i)) ∨ (busAnswers s ∧ ∃ g, s.engine = some g ∧ g.todo = []) := by
  cases e with
  | finished h hb _ _ => exact .inl ⟨hb, _, h⟩
  | completed h hg ht => exact .inr ⟨h, _, hg, ht⟩
  | _ => simp_all [State.regs, State.reset, writeStatus]

/-- ERR rises with an accepted word or with a bus error. -/
theorem err_rises (e : RegEffect s r) (h₀ : s.status.err = false) (h₁ : r.status.err = true) :
    (s.status.busy = false ∧ ∃ w, writesReg s .cmd w) ∨ (busAnswers s ∧ r.status.code = .busError) := by
  cases e with
  | failed h hb _ => exact .inl ⟨hb, _, h⟩
  | busFailed h _ _ => exact .inr ⟨h, rfl⟩
  | _ => simp_all [State.regs, State.reset, writeStatus]

/-- DONE falls with its bit of a STATUS write, with an accepted word or at reset: a bus error finds it clear. -/
theorem done_falls (e : RegEffect s r) (hi : s.Inv) (h₀ : s.status.done = true) (h₁ : r.status.done = false) :
    (∃ v, writesReg s .status v ∧ v.getLsbD 1 = true) ∨ (∃ w, writesReg s .cmd w) ∨ resets s := by
  cases e with
  | cleared h => exact .inl ⟨_, h, by simpa [writeStatus, h₀] using h₁⟩
  | failed h _ _ => exact .inr (.inl ⟨_, h⟩)
  | started h _ _ => exact .inr (.inl ⟨_, h⟩)
  | busFailed _ hg _ =>
    obtain ⟨hd, -⟩ := hi.clear_of_busy (hi.busy_of_engine hg)
    rw [hd] at h₀
    cases h₀
  | reset h => exact .inr (.inr h)
  | _ => simp_all [State.regs]

/-- ERR falls with its bit of a STATUS write, with an accepted word or at reset. -/
theorem err_falls (e : RegEffect s r) (h₀ : s.status.err = true) (h₁ : r.status.err = false) :
    (∃ v, writesReg s .status v ∧ v.getLsbD 2 = true) ∨ (∃ w, writesReg s .cmd w) ∨ resets s := by
  cases e with
  | cleared h => exact .inl ⟨_, h, by simpa [writeStatus, h₀] using h₁⟩
  | finished h _ _ _ => exact .inr (.inl ⟨_, h⟩)
  | started h _ _ => exact .inr (.inl ⟨_, h⟩)
  | reset h => exact .inr (.inr h)
  | _ => simp_all [State.regs]

/-- WBUSY rises with a dropped write. -/
theorem wbusy_rises (e : RegEffect s r) (h₀ : s.status.wbusy = false) (h₁ : r.status.wbusy = true) :
    s.status.busy = true ∧ ∃ reg v, writesReg s reg v ∧ (reg = .cmd ∨ reg.isParam = true) := by
  cases e with
  | dropped h hr hb => exact ⟨hb, _, _, h, hr⟩
  | _ => simp_all [State.regs, State.reset, writeStatus]

/-- WBUSY falls with its bit of a STATUS write or at reset. -/
theorem wbusy_falls (e : RegEffect s r) (h₀ : s.status.wbusy = true) (h₁ : r.status.wbusy = false) :
    (∃ v, writesReg s .status v ∧ v.getLsbD 3 = true) ∨ resets s := by
  cases e with
  | cleared h => exact .inl ⟨_, h, by simpa [writeStatus, h₀] using h₁⟩
  | reset h => exact .inr h
  | _ => simp_all [State.regs]

/-- RESULT changes with an AXLATE or PXLATE that completes, or at reset. -/
theorem result_writers (e : RegEffect s r) (hne : r.result ≠ s.result) :
    ((writesReg s .cmd (encode .axlate) ∨ writesReg s .cmd (encode .pxlate)) ∧ r.status.done = true ∧
      r.status.err = false) ∨ resets s := by
  cases e with
  | finished h _ _ hr =>
    rcases hr hne with rfl | rfl
    · exact .inl ⟨.inl h, rfl, rfl⟩
    · exact .inl ⟨.inr h, rfl, rfl⟩
  | reset h => exact .inr h
  | _ => exact absurd rfl hne

/-- ERRADDR changes with a bus error, with an accepted word, or at reset. -/
theorem errAddr_writers (e : RegEffect s r) (hne : r.errAddr ≠ s.errAddr) :
    (busAnswers s ∧ r.status.err = true ∧ r.status.code = .busError) ∨
    (s.status.busy = false ∧ (∃ w, writesReg s .cmd w) ∧ r.errAddr = 0) ∨ (resets s ∧ r.errAddr = 0) := by
  cases e with
  | finished h hb _ _ => exact .inr (.inl ⟨hb, ⟨_, h⟩, rfl⟩)
  | failed h hb _ => exact .inr (.inl ⟨hb, ⟨_, h⟩, rfl⟩)
  | started h hb _ => exact .inr (.inl ⟨hb, ⟨_, h⟩, rfl⟩)
  | busFailed h _ _ => exact .inl ⟨h, rfl, rfl⟩
  | reset h => exact .inr (.inr ⟨h, rfl⟩)
  | _ => exact absurd rfl hne

/-- A parameter register changes with a host write to one while BUSY = 0, or at reset. -/
theorem params_writers (e : RegEffect s r) (hne : r.params ≠ s.params) :
    (s.status.busy = false ∧ ∃ reg v, writesReg s reg v ∧ reg.isParam = true) ∨ resets s := by
  cases e with
  | stored h hr hb _ => exact .inl ⟨hb, _, _, h, hr⟩
  | reset h => exact .inr h
  | _ => exact absurd rfl hne

/-- IRQ_EN changes with a host write to CTRL, whose bit 0 it takes, or at reset. -/
theorem irqEn_writers (e : RegEffect s r) (hne : r.irqEn ≠ s.irqEn) :
    (∃ v, writesReg s .ctrl v ∧ r.irqEn = v.getLsbD 0) ∨ resets s := by
  cases e with
  | ctrl h => exact .inl ⟨_, h, rfl⟩
  | reset h => exact .inr h
  | _ => exact absurd rfl hne

/-- The platform stays (R6). -/
theorem platform_eq (e : RegEffect s r) : r.platform = s.platform := by cases e <;> rfl

/-- BUSY rises with a legal bulk command. -/
theorem busy_rises (e : RegEffect s r) (h₀ : s.status.busy = false) (h₁ : r.status.busy = true) :
    ∃ op : BulkOp, writesReg s .cmd (encode op.instr) ∧ op.legal s.params = true := by
  cases e with
  | started h _ hl => exact ⟨_, h, hl⟩
  | _ => simp_all [State.regs, State.reset, writeStatus]

/-- BUSY falls with a completion, with a bus error or at reset. -/
theorem busy_falls (e : RegEffect s r) (h₀ : s.status.busy = true) (h₁ : r.status.busy = false) :
    (busAnswers s ∧ (r.status.done = true ∨ (r.status.err = true ∧ r.status.code = .busError))) ∨ resets s := by
  cases e with
  | completed h _ _ => exact .inl ⟨h, .inl rfl⟩
  | busFailed h _ _ => exact .inl ⟨h, .inr ⟨rfl, rfl⟩⟩
  | reset h => exact .inr h
  | _ => simp_all [State.regs, writeStatus]

end RegEffect

/-! ## The lifetime of each flag and register -/

/-- Settles O41, from what a step can do to the registers. -/
theorem outcomeFlagsLifetime : Obligations.OutcomeFlagsLifetime := by
  intro s t hi h
  have e := step_effect h
  exact ⟨e.done_rises, e.err_rises, e.done_falls hi, e.err_falls⟩

/-- Settles O42: a write that BUSY drops is delivered by the step itself. -/
theorem wbusyLifetime : Obligations.WbusyLifetime := by
  intro s t h
  have e := step_effect h
  refine ⟨fun h₀ h₁ => ?_, ?_, e.wbusy_falls⟩
  · obtain ⟨hb, r, v, hw, hr⟩ := e.wbusy_rises h₀ h₁
    exact ⟨hb, r, v, hw, cmd_or_isParam_iff.1 hr⟩
  · rintro hb ⟨r, v, hw, hr⟩
    obtain ⟨rest, hstep⟩ := step_of_writesReg hw
    rw [hstep, writeReg_busy (s := { s with agenda := rest }) hb (cmd_or_isParam_iff.2 hr)] at h
    cases h
    rfl

/-- Settles O43, from what a step can do to the registers. -/
theorem resultWriters : Obligations.ResultWriters := fun _ _ h => (step_effect h).result_writers

/-- Settles O44, from what a step can do to the registers. -/
theorem errAddrWriters : Obligations.ErrAddrWriters := fun _ _ h => (step_effect h).errAddr_writers

/-- Settles O45, from what a step can do to the registers. -/
theorem hostRegistersAreTheHosts : Obligations.HostRegistersAreTheHosts := by
  intro s t h
  have e := step_effect h
  refine ⟨fun hne => (e.params_writers hne).imp_left ?_, e.irqEn_writers, e.platform_eq⟩
  rintro ⟨hb, r, v, hw, hr⟩
  exact ⟨hb, r, v, hw, isParam_iff.1 hr⟩

/-! ## BUSY -/

theorem BulkOp.instr_injective {op op' : BulkOp} (h : op.instr = op'.instr) : op = op' := by
  cases op <;> cases op' <;> simp_all [BulkOp.instr]

/-- The immediate commands are not bulk commands. -/
theorem BulkOp.instr_not_immediate (op : BulkOp) : ¬(op.instr = .nop ∨ op.instr = .axlate ∨ op.instr = .pxlate) := by
  cases op <;> simp [BulkOp.instr]

/-- A legal bulk command passes every check and starts. -/
theorem bodyOf_legal {op : BulkOp} {s : State} (hl : op.legal s.params = true) :
    bodyOf op.instr s = startEngine op (plan op s.params) s := by
  cases op <;> simp_all [BulkOp.legal, BulkOp.instr, bodyOf, runImage, runPalperm, startChecked]

/-- R27: an accepted bulk command sets BUSY exactly if it is legal. -/
theorem bodyOf_bulk_busy_iff {op : BulkOp} {s : State} (hb : s.status.busy = false) :
    (bodyOf op.instr s).status.busy = true ↔ op.legal s.params = true := by
  refine ⟨fun h => ?_, fun hl => by rw [bodyOf_legal hl]; rfl⟩
  rcases body_cases op.instr s with ⟨r, hbody, -⟩ | ⟨c, -, -, -, hbody⟩ | ⟨op', hop, hl, -⟩
  · simp [hbody, hb] at h
  · simp [hbody] at h
  · rwa [BulkOp.instr_injective hop]

/-- An accepted immediate command leaves BUSY at 0. -/
theorem bodyOf_immediate_busy {i : Instr} {s : State} (hi : i = .nop ∨ i = .axlate ∨ i = .pxlate)
    (hb : s.status.busy = false) : (bodyOf i s).status.busy = false := by
  rcases body_cases i s with ⟨r, hbody, -⟩ | ⟨c, -, -, -, hbody⟩ | ⟨op, rfl, -, -⟩
  · rw [hbody]; exact hb
  · rw [hbody]; rfl
  · exact absurd hi op.instr_not_immediate

/-- R27: a bus answer to a running command ends it exactly if no transfer is left or the answered access fails. -/
theorem busAnswer_ends_iff {s : State} {g : Engine} (hg : s.engine = some g) (hb : s.status.busy = true)
    (pick : Nat) (picks : List Nat) :
    (busAnswer pick picks s).status.busy = false ↔
      g.todo = [] ∨ ∃ t, g.todo[pick % g.todo.length]? = some t ∧
        accessOK s.platform (if t.data = none then t.readAddr else t.writeAddr) g.op.accessBytes = false := by
  rcases busAnswer_cases pick picks s with ⟨h, -⟩ | ⟨g', h, ht, ha⟩ | ⟨g', t, h, ht, hd, hok, ha⟩ |
    ⟨g', t, bs, h, ht, hd, hok, ha⟩ | ⟨g', t, h, ht, hbad, ha⟩ <;> rw [hg] at h <;> cases h <;> rw [ha]
  · simp [ht]
  · have : g.todo ≠ [] := by rintro h; simp [h] at ht
    simp [hb, ht, hd, hok, this]
  · have : g.todo ≠ [] := by rintro h; simp [h] at ht
    simp [hb, ht, hd, hok, this]
  · exact iff_of_true rfl (.inr ⟨t, ht, hbad⟩)

/-- Settles O20: acceptance by the cases of a command's own part, the rest by what a step can do to the registers. -/
theorem busyLifetime : Obligations.BusyLifetime := by
  refine ⟨?_, ?_, ?_, ?_, ?_⟩
  · intro op s t hb h
    rw [exec_next_iff.1 h, command_idle _ hb]
    exact bodyOf_bulk_busy_iff hb
  · intro i s t hi h
    rw [exec_next_iff.1 h]
    cases hb : s.status.busy
    · rw [command_idle _ hb]
      exact bodyOf_immediate_busy hi hb
    · rw [command_busy _ hb]
      exact hb
  · intro s pick picks g hg hb
    exact busAnswer_ends_iff hg hb pick picks
  · intro s h
    obtain ⟨rest, hstep⟩ := step_of_resets h
    exact ⟨_, hstep, rfl⟩
  · intro s t h
    have e := step_effect h
    exact ⟨e.busy_rises, e.busy_falls⟩

end Sys2Proof.Machine

/-! # The register map, reset, STATUS, IRQ and the frame of the commands -/

namespace Sys2Proof.Machine

/-! ## The window -/

/-- The offsets from 0x30 on are reserved (R24). -/
theorem regAt_reserved {offset : Nat} (h : 0x30 ≤ offset) : regAt offset = none := by
  unfold regAt
  split
  case h_13 => rfl
  all_goals omega

theorem windowWrite_reserved {offset : Nat} (h : 0x30 ≤ offset) (v : Word) (s : State) :
    windowWrite offset v s = .next s := by
  simp only [windowWrite, regAt_reserved h]

theorem windowRead_reserved {offset : Nat} (h : 0x30 ≤ offset) (s : State) :
    windowRead offset s = { s with readData := 0 } := by
  simp only [windowRead, regAt_reserved h]

/-- A read of any register but STATUS returns its value and changes nothing else. -/
theorem windowRead_reg {offset : Nat} {r : Reg} (hr : regAt offset = some r) (hne : r ≠ .status) (s : State) :
    windowRead offset s = { s with readData := (readReg s r).toNat } := by
  simp only [windowRead, hr]
  cases r <;> simp_all [observeRead]

/-- A read of a register returns its value. -/
theorem windowRead_readData {offset : Nat} {r : Reg} (hr : regAt offset = some r) (s : State) :
    (windowRead offset s).readData = (readReg s r).toNat := by
  simp only [windowRead, hr]

/-- The host's access to the window that is not 32-bit or not aligned is no register access (R23). -/
theorem registerAccess_eq_false {p : Platform} {addr : Word} {width : Nat}
    (h : width ≠ 4 ∨ windowOffset p addr % 4 ≠ 0) : registerAccess p addr width = false := by
  rcases h with h | h <;> simp [registerAccess, h]

/-- An access whose address lies in the window touches it, whatever its width. -/
theorem touchesWindow_of_lt {p : Platform} {addr : Word} (h : windowOffset p addr < 256) (width : Nat) :
    touchesWindow p addr width = true := by
  simp only [touchesWindow, List.any_eq_true, List.mem_range, decide_eq_true_eq]
  exact ⟨0, by omega, by simpa using h⟩

/-- Settles O40: such an access touches the window and is no register access. -/
theorem illegalRegisterAccessFaults : Obligations.IllegalRegisterAccessFaults := by
  intro s addr width v wins picks rest hin hbad
  have hacc := registerAccess_eq_false hbad
  have htouch := touchesWindow_of_lt hin width
  constructor <;> intro ha <;> rw [step_cons ha]
  · simp [deliver, hostWrite, hacc, htouch]
  · simp [deliver, hostRead, hacc, htouch]

/-! ## Commands through the window -/

/-- Settles O4: `withFetchWord` puts such a CMD write first. -/
theorem stepRunsDecodedCommand : Obligations.StepRunsDecodedCommand := by
  have run : ∀ (s : State) (n : Nat) (i : Instr) (wins : List Bool) (rest : List Event),
      s.agenda = .hostWrite (s.platform.base + 0x08) 4 n wins :: rest → decode (BitVec.ofNat 32 n) = .ok i →
      step s = exec i { s with agenda := rest } := by
    intro s n i wins rest ha hd
    rw [step_regWrite ha rfl (by decide) (by decide), writeReg, writeCmd, hd]
  refine ⟨run, fun s w i hw => ?_⟩
  have hd : decode (BitVec.ofNat 32 (w % 2 ^ 32)) = .ok i := by
    simp only [decodeTableWord] at hw
    split at hw
    · split at hw
      · next hd => cases hw; exact hd
      · cases hw
    · cases hw
  exact run (s.withFetchWord 32 w) (w % 2 ^ 32) i [] s.agenda rfl hd

/-- Settles O7: a CMD write while BUSY = 1 is `dropWrite`. -/
theorem busyCommandsAreTurnedAway : Obligations.BusyCommandsAreTurnedAway := by
  intro i s hb
  rw [exec_eq, command_busy _ hb]
  rfl

/-- Settles O6. The ERRCODE part of a STATUS write is O37's. -/
theorem busyWritesAreDropped : Obligations.BusyWritesAreDropped := by
  intro s v hb
  refine ⟨fun r hr => writeReg_busy hb (cmd_or_isParam_iff.2 hr) v, ⟨_, rfl, rfl, rfl⟩, ⟨_, rfl, rfl, rfl, rfl⟩,
    rfl, rfl, fun offset ho _ => windowWrite_reserved ho v s⟩

/-! ## Reset and STATUS -/

theorem readReg_reset (r : Reg) : readReg State.reset r = if r = .palLen then 0x00000100 else 0 := by
  cases r <;> rfl

/-- A reset of the block gives every register its reset value (R47). -/
theorem readReg_resetBlock (s : State) (r : Reg) : readReg (resetBlock s) r = readReg State.reset r := by
  cases r <;> rfl

/-- Settles O35: a reset of the block reads as `State.reset` does. -/
theorem resetValues : Obligations.ResetValues := by
  refine ⟨readReg_reset, rfl, rfl, fun s h => ?_⟩
  obtain ⟨rest, hstep⟩ := step_of_resets h
  exact ⟨_, hstep, fun r => (readReg_resetBlock _ r).trans (readReg_reset r), rfl, rfl, rfl⟩

/-- The layout of STATUS (R26), decided over its four flags for each of the nine codes. -/
theorem Status.toWord_layout (st : Status) :
    st.toWord.getLsbD 0 = st.busy ∧ st.toWord.getLsbD 1 = st.done ∧ st.toWord.getLsbD 2 = st.err ∧
    st.toWord.getLsbD 3 = st.wbusy ∧ st.toWord.extractLsb' 4 4 = 0 ∧ st.toWord.extractLsb' 8 8 = st.code.toByte ∧
    st.toWord.extractLsb' 16 16 = 0 := by
  obtain ⟨busy, done, err, wbusy, code⟩ := st
  revert busy done err wbusy
  cases code <;> decide

/-- Settles O36 by the layout of STATUS; the nine codes are read off. -/
theorem statusWordLayout : Obligations.StatusWordLayout :=
  ⟨fun s => s.status.toWord_layout, rfl, rfl, rfl, rfl, rfl, rfl, rfl, rfl, rfl⟩

/-- A flag cleared by a written bit (R32). -/
theorem and_not_eq_ite (flag bit : Bool) : (flag && !bit) = if bit = true then false else flag := by
  cases bit <;> simp

theorem acknowledge_nothing (s : State) : acknowledge false false false s = s := by simp [acknowledge]

/-- Settles O37, flag by flag. -/
theorem statusWriteOneToClear : Obligations.StatusWriteOneToClear := by
  intro s v
  refine ⟨writeStatus v s, rfl, and_not_eq_ite _ _, and_not_eq_ite _ _, rfl, and_not_eq_ite _ _, rfl, rfl, ?_⟩
  intro h1 h2 h3
  rw [writeStatus, h1, h2, h3, acknowledge_nothing]

/-! ## Reserved bits -/

/-- The bits above a register's width read 0 (R24). -/
theorem extractLsb'_setWidth_eq_zero {n k : Nat} (x : BitVec n) (h : n ≤ k) (w m : Nat) :
    (x.setWidth w).extractLsb' k m = 0 := by
  ext i hi
  simp [BitVec.getLsbD_of_ge x (k + i) (by omega)]

/-- A register of `n` bits takes the low bits of the written word alone (R24). -/
theorem setWidth_and_mask {n : Nat} {mask : Word} (h : mask.setWidth n = BitVec.allOnes n) (v : Word) :
    (v &&& mask).setWidth n = v.setWidth n := by
  rw [BitVec.setWidth_and, h, BitVec.and_allOnes]

/-- And it reads them back. -/
theorem setWidth_setWidth_eq_and (n : Nat) (v : Word) :
    (v.setWidth n).setWidth 32 = v &&& (BitVec.allOnes n).setWidth 32 := by
  ext i hi
  simp [hi, Bool.and_comm]

/-- STATUS takes the bits 1 to 3 of a written word alone (R32). -/
theorem writeStatus_and_mask (v : Word) (s : State) : writeStatus (v &&& 0xE) s = writeStatus v s := by
  simp [writeStatus]

/-- Settles O38: the window's reserved offsets, then the reserved bits of each register, read and written. -/
theorem reservedSpaceReadsZero : Obligations.ReservedSpaceReadsZero := by
  intro s v
  obtain ⟨-, -, -, -, hlow, -, hhigh⟩ := s.status.toWord_layout
  refine ⟨fun offset ho _ => ⟨windowRead_reserved ho s, windowWrite_reserved ho v s⟩, rfl, rfl, rfl, ?_, hlow, hhigh,
    extractLsb'_setWidth_eq_zero _ le_rfl _ _, extractLsb'_setWidth_eq_zero _ le_rfl _ _,
    extractLsb'_setWidth_eq_zero _ le_rfl _ _, extractLsb'_setWidth_eq_zero _ le_rfl _ _, ?_, ?_, ?_, ?_, ?_, ?_⟩
  · exact extractLsb'_setWidth_eq_zero (BitVec.ofBool s.irqEn) le_rfl _ _
  · simp [writeReg]
  · simp only [writeReg, writeStatus_and_mask]
  · simp only [writeReg, setWidth_and_mask (n := 16) (mask := 0xFFFF) rfl]
  · simp only [writeReg, setWidth_and_mask (n := 16) (mask := 0xFFFF) rfl]
  · simp only [writeReg, setWidth_and_mask (n := 9) (mask := 0x1FF) rfl]
  · simp only [writeReg, setWidth_and_mask (n := 16) (mask := 0xFFFF) rfl]

/-! ## The register map -/

/-- The parameter registers after a write of one of them. -/
def Params.store : Reg → Word → Params → Params
  | .src, v, p => { p with src := v }
  | .dst, v, p => { p with dst := v }
  | .width, v, p => { p with width := v.setWidth 16 }
  | .height, v, p => { p with height := v.setWidth 16 }
  | .palLen, v, p => { p with palLen := v.setWidth 9 }
  | .coord, v, p => { p with coord := v }
  | .index, v, p => { p with index := v.setWidth 16 }
  | _, _, p => p

/-- A write of a parameter register while BUSY = 0 stores it (R20). -/
theorem writeReg_idle {s : State} (hb : s.status.busy = false) {r : Reg} (hr : r.isParam = true) (v : Word) :
    writeReg r v s = .next { s with params := s.params.store r v } := by
  have param : ∀ f, Host.Outcome.next (writeParams f s) =
      (.next { s with params := f s.params } : Host.Outcome State Fault Refusal) := by
    intro f
    rw [writeParams, hb]
    rfl
  cases r with
  | ctrl | status | cmd | result | errAddr => cases hr
  | src | dst | width | height | palLen | coord | index => exact param _

/-- A stored parameter register leaves every other register. -/
theorem readReg_store_ne {r r' : Reg} (h : r' ≠ r) (v : Word) (s : State) :
    readReg { s with params := s.params.store r v } r' = readReg s r' := by
  cases r <;> cases r' <;> simp_all [readReg, Params.store]

/-- A stored parameter register reads back without its reserved bits (R34 to R40). -/
theorem readReg_store_same {r : Reg} {mask : Word}
    (h : (r = .src ∨ r = .dst ∨ r = .coord) ∧ mask = 0xFFFFFFFF ∨
      (r = .width ∨ r = .height ∨ r = .index) ∧ mask = 0xFFFF ∨ r = .palLen ∧ mask = 0x1FF) (v : Word) (s : State) :
    readReg { s with params := s.params.store r v } r = v &&& mask := by
  have full : v = v &&& 0xFFFFFFFF := (BitVec.and_allOnes (x := v)).symm
  rcases h with ⟨rfl | rfl | rfl, rfl⟩ | ⟨rfl | rfl | rfl, rfl⟩ | ⟨rfl, rfl⟩
  · exact full
  · exact full
  · exact full
  · exact setWidth_setWidth_eq_and 16 v
  · exact setWidth_setWidth_eq_and 16 v
  · exact setWidth_setWidth_eq_and 16 v
  · exact setWidth_setWidth_eq_and 9 v

/-- Settles O39, offset by offset for the step and register by register for the value read back. -/
theorem parameterRegistersReadBack : Obligations.ParameterRegistersReadBack := by
  refine ⟨fun s offset v wins rest t hb ha hmem => ?_, fun s v hb r mask hr => ?_⟩
  · have write : ∀ {r}, regAt offset.toNat = some r → offset.toNat < 256 → offset.toNat % 4 = 0 →
        step s = writeReg r v { s with agenda := rest } := by
      intro r hreg hlt hal
      rw [step_regWrite ha hreg hlt hal, BitVec.ofNat_toNat, BitVec.setWidth_eq]
    have store : ∀ {r}, regAt offset.toNat = some r → offset.toNat < 256 → offset.toNat % 4 = 0 → r.isParam = true →
        step s = .next { s with agenda := rest, params := s.params.store r v } := by
      intro r hreg hlt hal hr
      exact (write hreg hlt hal).trans (writeReg_idle (s := { s with agenda := rest }) hb hr v)
    simp only [List.mem_cons, Prod.mk.injEq, List.not_mem_nil, or_false] at hmem
    rcases hmem with ⟨rfl, rfl⟩ | ⟨rfl, rfl⟩ | ⟨rfl, rfl⟩ | ⟨rfl, rfl⟩ | ⟨rfl, rfl⟩ | ⟨rfl, rfl⟩ | ⟨rfl, rfl⟩ |
      ⟨rfl, rfl⟩
    · exact write (r := .ctrl) rfl (by decide) rfl
    · exact store (r := .src) rfl (by decide) rfl rfl
    · exact store (r := .dst) rfl (by decide) rfl rfl
    · exact store (r := .width) rfl (by decide) rfl rfl
    · exact store (r := .height) rfl (by decide) rfl rfl
    · exact store (r := .palLen) rfl (by decide) rfl rfl
    · exact store (r := .coord) rfl (by decide) rfl rfl
    · exact store (r := .index) rfl (by decide) rfl rfl
  · rcases hr with ⟨rfl, rfl⟩ | hr
    · refine ⟨_, rfl, ?_, fun r' hne => ?_⟩
      · have hbit : BitVec.ofBool (v.getLsbD 0) = v.setWidth 1 := by ext i hi; simp [show i = 0 by omega]
        simp only [readReg, ctrlWord, hbit]
        exact setWidth_setWidth_eq_and 1 v
      · cases r' <;> simp_all [readReg]
    · have hp : r.isParam = true := by
        rcases hr with ⟨rfl | rfl | rfl, -⟩ | ⟨rfl | rfl | rfl, -⟩ | ⟨rfl, -⟩ <;> rfl
      exact ⟨_, writeReg_idle hb hp v, readReg_store_same hr v s, fun r' hne => readReg_store_ne hne v s⟩

/-- Settles O50, offset by offset. -/
theorem hostReadReturnsItsValue : Obligations.HostReadReturnsItsValue := by
  refine ⟨fun s addr pick rest ha hout hok => ?_, fun s offset v picks rest ha hv => ?_⟩
  · rw [step_cons ha]
    exact deliver_byteRead (s := { s with agenda := rest }) hout hok [pick]
  · have read : ∀ {r}, regAt offset.toNat = some r → offset.toNat < 256 → offset.toNat % 4 = 0 →
        (readReg s r).toNat = v → (offset ≠ 0x04 → r ≠ .status) →
        ∃ t, step s = .next t ∧ t.readData = v ∧ (offset ≠ 0x04 → t = { s with agenda := rest, readData := v }) := by
      rintro r hreg hlt hal rfl hne
      exact ⟨_, step_windowRead ha hlt hal, windowRead_readData hreg _, fun ho => windowRead_reg hreg (hne ho) _⟩
    have narrow : ∀ {n} (x : BitVec n), n ≤ 32 → (x.setWidth 32).toNat = x.toNat := fun x hn =>
      BitVec.toNat_setWidth_of_le hn
    rcases hv with hmem | ⟨hlow, hhigh, hal, rfl⟩
    · simp only [List.mem_cons, Prod.mk.injEq, List.not_mem_nil, or_false] at hmem
      rcases hmem with ⟨rfl, rfl⟩ | ⟨rfl, rfl⟩ | ⟨rfl, rfl⟩ | ⟨rfl, rfl⟩ | ⟨rfl, rfl⟩ | ⟨rfl, rfl⟩ | ⟨rfl, rfl⟩ |
        ⟨rfl, rfl⟩ | ⟨rfl, rfl⟩ | ⟨rfl, rfl⟩ | ⟨rfl, rfl⟩ | ⟨rfl, rfl⟩
      · exact read (r := .ctrl) rfl (by decide) rfl (by cases h : s.irqEn <;> simp [readReg, ctrlWord, h]) (by simp)
      · exact read (r := .status) rfl (by decide) rfl rfl (absurd rfl)
      · exact read (r := .cmd) rfl (by decide) rfl rfl (by simp)
      · exact read (r := .src) rfl (by decide) rfl rfl (by simp)
      · exact read (r := .dst) rfl (by decide) rfl rfl (by simp)
      · exact read (r := .width) rfl (by decide) rfl (narrow _ (by decide)) (by simp)
      · exact read (r := .height) rfl (by decide) rfl (narrow _ (by decide)) (by simp)
      · exact read (r := .palLen) rfl (by decide) rfl (narrow _ (by decide)) (by simp)
      · exact read (r := .coord) rfl (by decide) rfl rfl (by simp)
      · exact read (r := .index) rfl (by decide) rfl (narrow _ (by decide)) (by simp)
      · exact read (r := .result) rfl (by decide) rfl rfl (by simp)
      · exact read (r := .errAddr) rfl (by decide) rfl rfl (by simp)
    · have hr := windowRead_reserved hlow { s with agenda := rest }
      exact ⟨_, step_windowRead ha hhigh hal, by rw [hr], fun _ => hr⟩

/-! ## IRQ -/

theorem irq_writeStatus (v : Word) (s : State) :
    (writeStatus v s).irq = (s.irqEn && (s.status.done && !v.getLsbD 1 || s.status.err && !v.getLsbD 2)) := rfl

/-- An accepted command raises IRQ, if it is enabled, exactly if it has ended. -/
theorem irq_bodyOf_accept_iff {s : State} (hen : s.irqEn = true) (hb : s.status.busy = false) (i : Instr) :
    (bodyOf i (accept s)).irq = true ↔ (bodyOf i (accept s)).status.busy = false := by
  rcases body_cases i (accept s) with ⟨r, hbody, -⟩ | ⟨c, -, -, -, hbody⟩ | ⟨op, -, -, hbody⟩ <;> rw [hbody]
  · simp [State.irq, hen, hb]
  · simp [State.irq, hen]
  · simp [State.irq]

/-- A bus answer to a running command raises IRQ, if it is enabled, exactly if it ends the command. -/
theorem irq_busAnswer_iff {s : State} (hi : s.Inv) (hen : s.irqEn = true) (hb : s.status.busy = true) (pick : Nat)
    (picks : List Nat) :
    (busAnswer pick picks s).irq = true ↔ (busAnswer pick picks s).status.busy = false := by
  obtain ⟨hd, he, -, -⟩ := hi.clear_of_busy hb
  rcases busAnswer_cases pick picks s with ⟨-, h⟩ | ⟨g, -, -, h⟩ | ⟨g, t, -, -, -, -, h⟩ | ⟨g, t, bs, -, -, -, -, h⟩ |
    ⟨g, t, -, -, -, h⟩ <;> rw [h]
  · simp [State.irq, hd, he, hb]
  · simp [State.irq, hen]
  · simp [State.irq, hd, he, hb]
  · simp [State.irq, hd, he, hb]
  · simp [State.irq, hen]

/-- Settles O46: acceptance and bus answers by their cases, STATUS writes by IRQ's value after one. -/
theorem irqFollowsTheOutcome : Obligations.IrqFollowsTheOutcome := by
  intro s
  refine ⟨fun hen => ?_, fun hi hb => ?_, fun i t hen hb h => ?_, fun v t h1 h2 h => ?_, fun v t h1 he h => ?_,
    fun v t h2 hd h => ?_, fun v t h1 h2 h => ?_, fun pick picks hi hen hb => irq_busAnswer_iff hi hen hb pick picks,
    fun b => rfl⟩
  · rw [State.irq, hen, Bool.false_and]
  · obtain ⟨hd, he, -, -⟩ := hi.clear_of_busy hb
    rw [State.irq, hd, he, Bool.or_false, Bool.and_false]
  · rw [exec_next_iff.1 h, command_idle _ hb]
    exact irq_bodyOf_accept_iff hen hb i
  all_goals
    cases h
    rw [irq_writeStatus]
  · simp only [h1, h2, Bool.not_true, Bool.and_false, Bool.or_false]
  · simp only [h1, he, Bool.not_true, Bool.and_false, Bool.false_and, Bool.or_false]
  · simp only [h2, hd, Bool.not_true, Bool.and_false, Bool.false_and, Bool.or_false]
  · simp only [h1, h2, Bool.not_false, Bool.and_true, State.irq]

/-! ## The frame of the commands -/

/-- What the own part of a command leaves as it was: all but STATUS, RESULT, ERRADDR and the engine. -/
theorem bodyOf_frame (i : Instr) (s : State) :
    (bodyOf i s).params = s.params ∧ (bodyOf i s).irqEn = s.irqEn ∧ (bodyOf i s).platform = s.platform ∧
    (bodyOf i s).agenda = s.agenda ∧ (bodyOf i s).readData = s.readData ∧ (bodyOf i s).late = s.late ∧
    (bodyOf i s).mem = s.mem ∧ (bodyOf i s).stale = s.stale ∧ (bodyOf i s).written = s.written ∧
    (bodyOf i s).status.wbusy = s.status.wbusy := by
  rcases body_cases i s with ⟨r, hbody, -⟩ | ⟨c, -, -, -, hbody⟩ | ⟨op, -, -, hbody⟩ <;> rw [hbody] <;>
    exact ⟨rfl, rfl, rfl, rfl, rfl, rfl, rfl, rfl, rfl, rfl⟩

/-- RESULT changes with AXLATE and PXLATE alone, and then ERR stays (R41). -/
theorem bodyOf_result {i : Instr} {s : State} (h : (bodyOf i s).result ≠ s.result) :
    (i = .axlate ∨ i = .pxlate) ∧ (bodyOf i s).status.err = s.status.err := by
  rcases body_cases i s with ⟨r, hbody, hr⟩ | ⟨c, -, -, -, hbody⟩ | ⟨op, -, -, hbody⟩ <;> rw [hbody] at h ⊢
  · rcases hr with ⟨-, rfl⟩ | ⟨rfl, -⟩ | ⟨rfl, -⟩
    · exact absurd rfl h
    · exact ⟨.inl rfl, rfl⟩
    · exact ⟨.inr rfl, rfl⟩
  · exact absurd rfl h
  · exact absurd rfl h

/-- An immediate command starts no engine (R153). -/
theorem bodyOf_immediate_engine {i : Instr} {s : State} (hi : i = .nop ∨ i = .axlate ∨ i = .pxlate)
    (hg : s.engine = none) : (bodyOf i s).engine = none := by
  rcases body_cases i s with ⟨r, hbody, -⟩ | ⟨c, -, -, -, hbody⟩ | ⟨op, rfl, -, -⟩
  · rw [hbody]; exact hg
  · rw [hbody]; rfl
  · exact absurd hi op.instr_not_immediate

/-- Settles O16: a dropped write changes WBUSY alone; an accepted one is its own part after `accept`. -/
theorem commandFrame : Obligations.CommandFrame := by
  intro i s t h
  obtain rfl := exec_next_iff.1 h
  cases hb : s.status.busy
  · rw [command_idle _ hb]
    obtain ⟨hp, hirq, hpl, hag, hrd, hlate, hmem, hstale, hwritten, hwb⟩ := bodyOf_frame i (accept s)
    refine ⟨hp, hirq, hpl, hag, hrd, hlate, fun a => by rw [hmem]; rfl,
      fun a => ⟨by rw [hstale]; exact tracesAt_miss _ a, by rw [hwritten]; exact tracesAt_miss _ a⟩,
      fun _ => hwb, nofun, fun hax hpx => ?_, fun he => ?_,
      fun hi => bodyOf_immediate_busy hi hb, fun hg hi => bodyOf_immediate_engine hi hg⟩
    · by_contra hne
      obtain ⟨rfl | rfl, -⟩ := bodyOf_result hne
      · exact hax rfl
      · exact hpx rfl
    · by_contra hne
      obtain ⟨-, herr⟩ := bodyOf_result hne
      rw [herr] at he
      cases he
  · rw [command_busy _ hb]
    exact ⟨rfl, rfl, rfl, rfl, rfl, rfl, fun _ => rfl, fun _ => ⟨rfl, rfl⟩, nofun,
      fun _ => ⟨rfl, rfl, hb, rfl, rfl, rfl, rfl, rfl, rfl⟩, fun _ _ => rfl, fun _ => rfl, fun _ => hb, fun hg _ => hg⟩

end Sys2Proof.Machine

/-! # The elements of a bulk command: where they stand in its buffers

A and P are one-to-one onto their ranges, so each byte of a buffer belongs to exactly one element. -/

namespace Sys2Proof.Machine

/-! ## A and P, one-to-one and onto -/

/-- A is a number of digits: the column of `2*W` bytes, then four digits of the place in it. -/
theorem swizzleOffset_digits {x y x' y' w : Nat} (hw : w % 16 = 0) (hx : x < w) (hx' : x' < w)
    (h : swizzleOffset x y w = swizzleOffset x' y' w) :
    2 * (y / 4) + y % 2 = 2 * (y' / 4) + y' % 2 ∧ y / 2 % 2 = y' / 2 % 2 ∧ x / 16 = x' / 16 ∧
      x / 8 % 2 = x' / 8 % 2 ∧ (x + 4 * ((y + 2) / 4 % 2)) % 8 = (x' + 4 * ((y' + 2) / 4 % 2)) % 8 := by
  rw [swizzleOffset_eq, swizzleOffset_eq] at h
  simp only [Nat.add_assoc] at h
  have hb : x / 16 < w / 16 ∧ x' / 16 < w / 16 := by omega
  have hq : ∀ v : Nat, v / 2 % 2 < 2 := fun v => Nat.mod_lt _ (by decide)
  have hh : ∀ v : Nat, v / 8 % 2 < 2 := fun v => Nat.mod_lt _ (by decide)
  have he : ∀ v : Nat, v % 8 < 8 := fun v => Nat.mod_lt _ (by decide)
  have := hq y; have := hq y'; have := hh x; have := hh x'
  have := he (x + 4 * ((y + 2) / 4 % 2)); have := he (x' + 4 * ((y' + 2) / 4 % 2))
  generalize x / 16 = b, x' / 16 = b', y / 2 % 2 = q, y' / 2 % 2 = q', x / 8 % 2 = d, x' / 8 % 2 = d',
    (x + 4 * ((y + 2) / 4 % 2)) % 8 = r, (x' + 4 * ((y' + 2) / 4 % 2)) % 8 = r',
    2 * (y / 4) + y % 2 = c, 2 * (y' / 4) + y' % 2 = c' at *
  have hdiv : ∀ {c t : Nat}, t < 2 * w → (2 * w * c + t) / (2 * w) = c := fun {c t} ht => by
    rw [Nat.mul_add_div (by omega), Nat.div_eq_of_lt ht, Nat.add_zero]
  have hc : c = c' := by
    rw [← hdiv (c := c) (t := 32 * b + (4 * r + (2 * d + q))) (by omega), h, hdiv (by omega)]
  subst hc
  rw [Nat.add_left_cancel_iff] at h
  omega

/-- A tells the pixels of an image apart. -/
theorem swizzleOffset_injective {x y x' y' w : Nat} (hw : w % 16 = 0) (hx : x < w) (hx' : x' < w)
    (h : swizzleOffset x y w = swizzleOffset x' y' w) : x = x' ∧ y = y' := by
  obtain ⟨hcol, hq, hb, hd, hr⟩ := swizzleOffset_digits hw hx hx' h
  have hy : y = y' := by omega
  subst hy
  have hs : (y + 2) / 4 % 2 < 2 := Nat.mod_lt _ (by decide)
  generalize (y + 2) / 4 % 2 = s at hr hs
  have hx8 : x % 8 = x' % 8 := by omega
  exact ⟨by omega, rfl⟩

/-- P tells the positions of a palette apart. -/
theorem paletteIndex_injective {i j : Nat} (h : paletteIndex i = paletteIndex j) : i = j := by
  simp only [paletteIndex] at h
  have hpart : i / 32 = j / 32 := by omega
  have hcolor : i % 8 = j % 8 := by omega
  have hstripe : i / 8 % 2 = j / 8 % 2 := by omega
  have hblock : i / 16 % 2 = j / 16 % 2 := by omega
  omega

/-- A function that keeps `[0, n)` and is one-to-one there takes each of its values exactly once. -/
theorem existsUnique_lt_of_injOn {n : Nat} {f : Nat → Nat} (hlt : ∀ i < n, f i < n)
    (hinj : ∀ i < n, ∀ j < n, f i = f j → i = j) {k : Nat} (hk : k < n) : ∃! i, i < n ∧ f i = k := by
  have honto : (Finset.range n).image f = Finset.range n :=
    Finset.eq_of_subset_of_card_le (by simpa [Finset.subset_iff] using hlt)
      (by rw [Finset.card_image_of_injOn (by simpa [Set.InjOn] using fun i hi j => hinj i hi j)])
  obtain ⟨i, hi, rfl⟩ := Finset.mem_image.1 (honto ▸ Finset.mem_range.2 hk)
  rw [Finset.mem_range] at hi
  exact ⟨i, ⟨hi, rfl⟩, fun j ⟨hj, h⟩ => hinj j hj i hi h⟩

/-! ## The places of the elements -/

/-- The place of element `e` in the source buffer, counted in elements. -/
def BulkOp.sourceIndex : BulkOp → Params → Nat → Nat
  | .deswz8, p, e => swizzleOffset (e % p.w) (e / p.w) p.w
  | .swz8, _, e => e
  | .palperm, _, e => paletteIndex e

/-- The place of element `e` in the destination buffer, counted in elements. -/
def BulkOp.destIndex : BulkOp → Params → Nat → Nat
  | .deswz8, _, e => e
  | .swz8, p, e => swizzleOffset (e % p.w) (e / p.w) p.w
  | .palperm, _, e => e

theorem BulkOp.sourceOffset_eq (op : BulkOp) (p : Params) (e : Nat) :
    op.sourceOffset p e = op.accessBytes * op.sourceIndex p e := by
  cases op <;> simp [BulkOp.sourceOffset, BulkOp.sourceIndex, BulkOp.accessBytes]

theorem BulkOp.destOffset_eq (op : BulkOp) (p : Params) (e : Nat) :
    op.destOffset p e = op.accessBytes * op.destIndex p e := by
  cases op <;> simp [BulkOp.destOffset, BulkOp.destIndex, BulkOp.accessBytes]

/-- A one-to-one map of the elements of a command onto themselves. -/
def BulkOp.Permutes (op : BulkOp) (p : Params) (f : Nat → Nat) : Prop :=
  (∀ e < op.elements p, f e < op.elements p) ∧
    ∀ e < op.elements p, ∀ e' < op.elements p, f e = f e' → e = e'

theorem BulkOp.permutes_id (op : BulkOp) (p : Params) : op.Permutes p fun e => e :=
  ⟨fun _ h => h, fun _ _ _ _ h => h⟩

/-- R103 for pixels numbered `y*W + x`. -/
theorem swizzle_permutes {op : BulkOp} {p : Params} (hop : op.elements p = p.w * p.h) (hd : dimOK p.w p.h = true) :
    op.Permutes p fun e => swizzleOffset (e % p.w) (e / p.w) p.w := by
  obtain ⟨hw, -, hw16, -⟩ := dimOK_iff.1 hd
  rw [BulkOp.Permutes, hop]
  refine ⟨fun e he => swizzleOffset_lt hd (Nat.mod_lt _ hw) (Nat.div_lt_of_lt_mul he), fun e _ e' _ h => ?_⟩
  obtain ⟨hx, hy⟩ := swizzleOffset_injective hw16 (Nat.mod_lt _ hw) (Nat.mod_lt _ hw) h
  rw [← Nat.div_add_mod e p.w, ← Nat.div_add_mod e' p.w, hx, hy]

/-- The checks of a bulk command that are not of its buffers' place: R100, or R130 and R54. -/
def BulkOp.operandsOK : BulkOp → Params → Bool
  | .deswz8, p => dimOK p.w p.h
  | .swz8, p => dimOK p.w p.h
  | .palperm, p => palLenOK p.l && !misaligned p.src p.dst

/-- A legal command has good operands, buffers on the bus, and no overlap of them (R60, R61). -/
theorem BulkOp.legal_iff {op : BulkOp} {p : Params} :
    op.legal p = true ↔ op.operandsOK p = true ∧
      (p.src.toNat + op.length p ≤ 2 ^ 32 ∧ p.dst.toNat + op.length p ≤ 2 ^ 32) ∧
      (p.dst.toNat + op.length p ≤ p.src.toNat ∨ p.src.toNat + op.length p ≤ p.dst.toNat) := by
  rw [← outOfRange_eq_false, ← overlapping_eq_false]
  cases op <;> simp [BulkOp.legal, BulkOp.operandsOK, and_assoc]

section Legal
variable {op : BulkOp} {p : Params} (hl : op.legal p = true)
include hl

theorem BulkOp.permutes_sourceIndex : op.Permutes p (op.sourceIndex p) := by
  obtain ⟨hop, -, -⟩ := BulkOp.legal_iff.1 hl
  cases op with
  | deswz8 => exact swizzle_permutes rfl hop
  | swz8 => exact BulkOp.permutes_id _ _
  | palperm =>
    rw [BulkOp.operandsOK, Bool.and_eq_true] at hop
    exact ⟨fun e he => paletteIndex_lt hop.1 he, fun e _ e' _ h => paletteIndex_injective h⟩

theorem BulkOp.permutes_destIndex : op.Permutes p (op.destIndex p) := by
  obtain ⟨hop, -, -⟩ := BulkOp.legal_iff.1 hl
  cases op with
  | deswz8 => exact BulkOp.permutes_id _ _
  | swz8 => exact swizzle_permutes rfl hop
  | palperm => exact BulkOp.permutes_id _ _

end Legal

/-- In a run of blocks of `c` bytes, byte `k` belongs to block `i` exactly if `i = k / c`. -/
theorem mem_block_iff {c i k : Nat} (hc : 0 < c) : (c * i ≤ k ∧ k < c * i + c) ↔ i = k / c := by
  rw [eq_comm, Nat.div_eq_iff hc, Nat.mul_comm i c]
  omega

/-- Blocks of `c` bytes put in a new order still cover each byte once. -/
theorem existsUnique_block {op : BulkOp} {p : Params} {f : Nat → Nat} (hf : op.Permutes p f) {k : Nat}
    (hk : k < op.length p) :
    ∃! e, e < op.elements p ∧ op.accessBytes * f e ≤ k ∧ k < op.accessBytes * f e + op.accessBytes := by
  simp only [mem_block_iff op.accessBytes_pos]
  exact existsUnique_lt_of_injOn hf.1 hf.2 (Nat.div_lt_of_lt_mul hk)

theorem block_le_length {op : BulkOp} {p : Params} {f : Nat → Nat} (hf : op.Permutes p f) {e : Nat}
    (he : e < op.elements p) : op.accessBytes * f e + op.accessBytes ≤ op.length p :=
  Nat.mul_le_mul_left op.accessBytes (hf.1 e he)

/-- Settles O27: source and destination offsets are blocks of the width of an access, each in a new order. -/
theorem everyByteMovesExactlyOnce : Obligations.EveryByteMovesExactlyOnce := by
  intro op p hl
  have hs := BulkOp.permutes_sourceIndex hl
  have hd := BulkOp.permutes_destIndex hl
  simp only [BulkOp.sourceOffset_eq, BulkOp.destOffset_eq]
  exact ⟨fun k hk => existsUnique_block hs hk, fun k hk => existsUnique_block hd hk,
    fun e he => ⟨block_le_length hs he, block_le_length hd he⟩⟩

end Sys2Proof.Machine

/-! # The acceptance of a bulk command -/

namespace Sys2Proof.Machine

theorem outOfRange_iff {src dst : Word} {n : Nat} :
    outOfRange src dst n = true ↔ src.toNat + n > 2 ^ 32 ∨ dst.toNat + n > 2 ^ 32 := decide_eq_true_iff

theorem overlapping_iff {src dst : Word} {n : Nat} :
    overlapping src dst n = true ↔ src.toNat < dst.toNat + n ∧ dst.toNat < src.toNat + n := decide_eq_true_iff

theorem misaligned_iff {src dst : Word} :
    misaligned src dst = true ↔ src.toNat % 4 ≠ 0 ∨ dst.toNat % 4 ≠ 0 := decide_eq_true_iff

/-- The shared checks of a bulk command, with the state each of them answers (R60, R61, R164). -/
theorem startChecked_accept (op : BulkOp) (s : State) :
    startChecked op (accept s) =
      if s.params.src.toNat + op.length s.params > 2 ^ 32 ∨ s.params.dst.toNat + op.length s.params > 2 ^ 32 then
        afterError .addrRange s
      else if s.params.src.toNat < s.params.dst.toNat + op.length s.params ∧
          s.params.dst.toNat < s.params.src.toNat + op.length s.params then afterError .overlap s
      else afterStart op s := by
  simp only [startChecked, accept_params, outOfRange_iff, overlapping_iff]
  rfl

/-- An image command checks its dimensions first (R100, R164). -/
theorem runImage_accept (op : BulkOp) (s : State) :
    runImage op (accept s) =
      if ¬(1 ≤ s.params.w ∧ s.params.w ≤ 4096 ∧ s.params.w % 16 = 0 ∧
          1 ≤ s.params.h ∧ s.params.h ≤ 4096 ∧ s.params.h % 4 = 0) then afterError .badDim s
      else startChecked op (accept s) := by
  simp only [runImage, accept_params, Bool.not_eq_true', ← Bool.not_eq_true, dimOK_iff]
  rfl

/-- PALPERM checks its length, then the alignment of its buffers (R130, R54, R164). -/
theorem runPalperm_accept (s : State) :
    runPalperm (accept s) =
      if ¬(32 ≤ s.params.l ∧ s.params.l ≤ 256 ∧ s.params.l % 32 = 0) then afterError .badPallen s
      else if s.params.src.toNat % 4 ≠ 0 ∨ s.params.dst.toNat % 4 ≠ 0 then afterError .misaligned s
      else startChecked .palperm (accept s) := by
  simp only [runPalperm, accept_params, Bool.not_eq_true', ← Bool.not_eq_true, palLenOK_iff, misaligned_iff]
  rfl

/-- The pixels of an image in the order of their numbers `y*W + x`. -/
theorem exists_pixel_iff {w h : Nat} {P : Nat → Nat → Nat → Prop} :
    (∃ e, e < w * h ∧ P (e % w) (e / w) e) ↔ ∃ x y, x < w ∧ y < h ∧ P x y (y * w + x) := by
  constructor
  · rintro ⟨e, he, hP⟩
    have hw : 0 < w := Nat.pos_of_ne_zero (by rintro rfl; simp at he)
    refine ⟨e % w, e / w, Nat.mod_lt _ hw, Nat.div_lt_of_lt_mul he, ?_⟩
    rwa [Nat.div_add_mod']
  · rintro ⟨x, y, hx, hy, hP⟩
    refine ⟨y * w + x, ?_, ?_⟩
    · calc y * w + x < (y + 1) * w := by rw [Nat.succ_mul]; omega
        _ ≤ h * w := Nat.mul_le_mul_right w hy
        _ = w * h := Nat.mul_comm h w
    · have hdiv : (y * w + x) / w = y := by
        rw [Nat.mul_comm, Nat.mul_add_div (by omega), Nat.div_eq_of_lt hx, Nat.add_zero]
      rwa [Nat.mul_add_mod_self_right, Nat.mod_eq_of_lt hx, hdiv]

/-- A plan holds the transfers of the command's elements. -/
theorem mem_plan_iff {op : BulkOp} {p : Params} {t : Transfer} :
    t ∈ plan op p ↔ ∃ e, e < op.elements p ∧ t = op.transfer p e := by
  simp [plan, eq_comm]

/-- Settles O11, check by check and pixel by pixel. -/
theorem deswz8StartsItsTransfers : Obligations.Deswz8StartsItsTransfers := by
  rintro s w h src dst rfl rfl rfl rfl
  refine ⟨fun hb => ?_, fun t => ?_⟩
  · rw [exec_eq, command_idle _ hb, bodyOf, runImage_accept, startChecked_accept, BulkOp.length,
      BulkOp.accessBytes, one_mul]
    rfl
  · exact mem_plan_iff.trans (exists_pixel_iff (P := fun x y e => t =
      { readAddr := s.params.src.toNat + swizzleOffset x y s.params.w
        writeAddr := s.params.dst.toNat + e
        data := none }))

/-- Settles O12, check by check and pixel by pixel. -/
theorem swz8StartsItsTransfers : Obligations.Swz8StartsItsTransfers := by
  rintro s w h src dst rfl rfl rfl rfl
  refine ⟨fun hb => ?_, fun t => ?_⟩
  · rw [exec_eq, command_idle _ hb, bodyOf, runImage_accept, startChecked_accept, BulkOp.length,
      BulkOp.accessBytes, one_mul]
    rfl
  · exact mem_plan_iff.trans (exists_pixel_iff (P := fun x y e => t =
      { readAddr := s.params.src.toNat + e
        writeAddr := s.params.dst.toNat + swizzleOffset x y s.params.w
        data := none }))

/-- Settles O13, check by check. -/
theorem palpermStartsItsTransfers : Obligations.PalpermStartsItsTransfers := by
  rintro s l src dst rfl rfl rfl
  refine ⟨fun hb => ?_, fun t => mem_plan_iff⟩
  rw [exec_eq, command_idle _ hb, bodyOf, runPalperm_accept, startChecked_accept]
  rfl

end Sys2Proof.Machine

/-! # One bus answer, and who writes memory -/

namespace Sys2Proof.Machine

/-! ## Bytes outside a write -/

/-- The end of late writes to some bytes leaves the late writes of the others. -/
theorem valuesAt_cellsOutside {l : List Host.Cell} {a n c : Nat} (h : c < a ∨ a + n ≤ c) :
    valuesAt (cellsOutside l a n) c = valuesAt l c := by
  rw [valuesAt, valuesAt, cellsOutside, List.filter_filter]
  congr 1
  refine List.filter_congr fun x _ => ?_
  by_cases hx : x.1 = c
  · simp [hx]
    omega
  · simp [hx]

/-- What the landing of an element leaves as it was: memory, the older values, the racing bytes and the late writes
of every byte outside it. -/
theorem landWrite_outside {s : State} (h : s.mem.wf = true) {a : Nat} {bs : List Byte} (hle : a + bs.length ≤ 2 ^ 32)
    {c : Nat} (hc : c < a ∨ a + bs.length ≤ c) :
    (landWrite a bs s).mem.read c = s.mem.read c ∧ tracesAt (landWrite a bs s).stale c = tracesAt s.stale c ∧
      tracesAt (landWrite a bs s).written c = tracesAt s.written c ∧
      valuesAt (landWrite a bs s).late c = valuesAt s.late c := by
  refine ⟨read_writeBytes_outside h a bs hle hc, ?_, ?_, valuesAt_cellsOutside hc⟩
  · rw [landWrite_stale, tracesAt_append, tracesAt_tracesOf_outside (by rwa [length_readBytes]), List.nil_append]
  · rw [landWrite_written, tracesAt_append, tracesAt_tracesOf_outside hc, List.nil_append]

/-- What it leaves at each of its bytes: the byte, the one before it as an older value, and a race with the host. -/
theorem landWrite_inside {s : State} (h : s.mem.wf = true) {a : Nat} {bs : List Byte} (hle : a + bs.length ≤ 2 ^ 32)
    {k : Nat} (hk : k < bs.length) :
    (landWrite a bs s).mem.read (a + k) = bs[k] ∧
      tracesAt (landWrite a bs s).stale (a + k) = s.mem.read (a + k) :: tracesAt s.stale (a + k) ∧
      tracesAt (landWrite a bs s).written (a + k) = bs[k] :: tracesAt s.written (a + k) := by
  refine ⟨read_writeBytes_inside h a bs hle hk, ?_, ?_⟩
  · rw [landWrite_stale, tracesAt_append, tracesAt_tracesOf_inside _ _ (by rwa [length_readBytes])]
    simp [readBytes]
  · rw [landWrite_written, tracesAt_append, tracesAt_tracesOf_inside _ _ hk]
    rfl

/-- A transfer of the engine that the invariant describes carries data of the width of its access (R55). -/
theorem State.Inv.length_data {s : State} (h : s.Inv) {g : Engine} (hg : s.engine = some g) {t : Transfer}
    (ht : t ∈ g.todo) {bs : List Byte} (hd : t.data = some bs) : bs.length = g.op.accessBytes :=
  (h.engine g hg).data t ht bs hd

/-- Such a transfer, if the bus answers its write well, writes within the bus address space. -/
theorem State.Inv.write_le {s : State} (h : s.Inv) {g : Engine} (hg : s.engine = some g) {t : Transfer}
    (ht : t ∈ g.todo) {bs : List Byte} (hd : t.data = some bs)
    (hok : accessOK s.platform t.writeAddr g.op.accessBytes = true) : t.writeAddr + bs.length ≤ 2 ^ 32 := by
  rw [h.length_data hg ht hd]
  exact accessOK_le hok g.op.accessBytes_pos

/-! ## The frame of a bus answer -/

/-- A bus answer leaves the registers but STATUS and ERRADDR, and WBUSY in STATUS. -/
theorem busAnswer_registers (pick : Nat) (picks : List Nat) (s : State) :
    (busAnswer pick picks s).params = s.params ∧ (busAnswer pick picks s).irqEn = s.irqEn ∧
    (busAnswer pick picks s).result = s.result ∧ (busAnswer pick picks s).status.wbusy = s.status.wbusy ∧
    (busAnswer pick picks s).platform = s.platform ∧ (busAnswer pick picks s).readData = s.readData ∧
    (busAnswer pick picks s).agenda = s.agenda := by
  rcases busAnswer_cases pick picks s with ⟨-, hb⟩ | ⟨g, -, -, hb⟩ | ⟨g, x, -, -, -, -, hb⟩ |
    ⟨g, x, bs, -, -, -, -, hb⟩ | ⟨g, x, -, -, -, hb⟩ <;> rw [hb] <;> exact ⟨rfl, rfl, rfl, rfl, rfl, rfl, rfl⟩

/-- ERRADDR changes only as ERR rises (R42). -/
theorem busAnswer_errAddr {s : State} (hi : s.Inv) {pick : Nat} {picks : List Nat}
    (he : (busAnswer pick picks s).status.err = s.status.err) : (busAnswer pick picks s).errAddr = s.errAddr := by
  rcases busAnswer_cases pick picks s with ⟨-, hb⟩ | ⟨g, -, -, hb⟩ | ⟨g, x, -, -, -, -, hb⟩ |
    ⟨g, x, bs, -, -, -, -, hb⟩ | ⟨g, x, hg, -, -, hb⟩ <;> rw [hb] at he ⊢
  case inr.inr.inr.inr =>
    obtain ⟨-, herr, -, -⟩ := hi.clear_of_busy (hi.busy_of_engine hg)
    rw [herr] at he
    cases he
  all_goals rfl

/-- A bus answer lands a write, or leaves memory and all that is in question of it. -/
theorem busAnswer_buffers (pick : Nat) (picks : List Nat) (s : State) :
    ((busAnswer pick picks s).mem = s.mem ∧ (busAnswer pick picks s).stale = s.stale ∧
      (busAnswer pick picks s).written = s.written ∧ (busAnswer pick picks s).late = s.late) ∨
    ∃ (g : Engine) (t : Transfer) (bs : List Byte), s.engine = some g ∧ g.todo[pick % g.todo.length]? = some t ∧
      t.data = some bs ∧ accessOK s.platform t.writeAddr g.op.accessBytes = true ∧
      busAnswer pick picks s =
        { landWrite t.writeAddr bs s with engine := some { g with todo := g.todo.eraseIdx (pick % g.todo.length) } } := by
  rcases busAnswer_cases pick picks s with ⟨-, hb⟩ | ⟨g, -, -, hb⟩ | ⟨g, x, -, -, -, -, hb⟩ | h | ⟨g, x, -, -, -, hb⟩
  case inr.inr.inr.inl => exact .inr h
  all_goals rw [hb]; exact .inl ⟨rfl, rfl, rfl, rfl⟩

/-- Settles O17: only a write that lands changes more than registers, and it does so at its own bytes. -/
theorem engineAnswerFrame : Obligations.EngineAnswerFrame := by
  intro s pick picks hi
  obtain ⟨hp, hirq, hres, hwb, hpl, hrd, hag⟩ := busAnswer_registers pick picks s
  refine ⟨hp, hirq, hres, hwb, hpl, hrd, hag, busAnswer_errAddr hi, ?_⟩
  rcases busAnswer_buffers pick picks s with hsame | ⟨g, x, bs, hg, hx, hd, hok, hb⟩
  · have ⟨hm, hst, hw, hl⟩ := hsame
    refine ⟨fun g t _ _ => ⟨fun _ => hsame, fun a _ => ?_⟩, fun _ _ _ => hsame, fun hn => by simp [busAnswer, hn]⟩
    rw [hm, hst, hw, hl]
    exact ⟨rfl, rfl, rfl, rfl⟩
  · refine ⟨fun g' x' hg' hx' => ?_, fun g' hg' ht => ?_, fun hn => ?_⟩
    · cases hg.symm.trans hg'
      cases hx.symm.trans hx'
      have hmem := List.mem_of_getElem? hx
      rw [hb]
      refine ⟨by simp [hd], fun a ha => landWrite_outside hi.mem (hi.write_le hg hmem hd hok) ?_⟩
      rwa [hi.length_data hg hmem hd]
    · cases hg.symm.trans hg'
      simp [ht] at hx
    · cases hg.symm.trans hn

/-! ## The accesses of an element -/

/-- A free choice reaches each of its values, and nothing else. -/
theorem exists_choose_iff {first : Byte} {rest : List Byte} {b : Byte} :
    (∃ pick, choose first rest pick = b) ↔ b = first ∨ b ∈ rest := by
  rw [← List.mem_cons]
  constructor
  · rintro ⟨pick, rfl⟩
    exact choose_mem ..
  · intro h
    obtain ⟨i, hi, rfl⟩ := List.getElem_of_mem h
    exact ⟨i, by rw [choose, Nat.mod_eq_of_lt (by simpa using hi), List.getD_eq_getElem _ _ hi]⟩

/-- The data an element read may return: byte by byte memory's or an older value (R63). -/
theorem exists_engineRead_iff {g : Engine} {m : Memory} {a : Nat} {bs : List Byte} :
    (∃ picks, engineRead g m a picks = bs) ↔
      bs.length = g.op.accessBytes ∧
        ∀ k (hk : k < bs.length), bs[k] = m.read (a + k) ∨ bs[k] ∈ valuesAt g.oldSource (a + k) := by
  constructor
  · rintro ⟨picks, rfl⟩
    refine ⟨length_engineRead .., fun k hk => ?_⟩
    rw [← exists_choose_iff]
    exact ⟨picks.getD k 0, by simp [engineRead]⟩
  · rintro ⟨hlen, h⟩
    choose pick hpick using fun k hk => exists_choose_iff.2 (h k hk)
    refine ⟨List.ofFn fun k : Fin bs.length => pick k k.2, List.ext_getElem (by simp [hlen]) fun k _ hk => ?_⟩
    simp [engineRead, hk, hpick]

/-- A good read puts the data into its transfer and changes nothing else. -/
theorem busAnswer_read {s : State} {g : Engine} {t : Transfer} {pick : Nat} (hg : s.engine = some g)
    (ht : g.todo[pick % g.todo.length]? = some t) (hd : t.data = none)
    (hok : accessOK s.platform t.readAddr g.op.accessBytes = true) (picks : List Nat) :
    busAnswer pick picks s = { s with
      engine := some { g with
        todo := g.todo.set (pick % g.todo.length) { t with data := some (engineRead g s.mem t.readAddr picks) } } } := by
  simp only [busAnswer, hg, ht, answerTransfer, hd, hok, if_true]

/-- A good write lands the data of its transfer, which is then done. -/
theorem busAnswer_write {s : State} {g : Engine} {t : Transfer} {bs : List Byte} {pick : Nat} (hg : s.engine = some g)
    (ht : g.todo[pick % g.todo.length]? = some t) (hd : t.data = some bs)
    (hok : accessOK s.platform t.writeAddr g.op.accessBytes = true) (picks : List Nat) :
    busAnswer pick picks s =
      { landWrite t.writeAddr bs s with engine := some { g with todo := g.todo.eraseIdx (pick % g.todo.length) } } := by
  simp only [busAnswer, hg, ht, answerTransfer, hd, hok, if_true]

/-- An access that fails ends the command with BUS_ERROR at its first byte (R71). -/
theorem busAnswer_fail {s : State} {g : Engine} {t : Transfer} {pick : Nat} (hg : s.engine = some g)
    (ht : g.todo[pick % g.todo.length]? = some t)
    (hbad : accessOK s.platform (if t.data = none then t.readAddr else t.writeAddr) g.op.accessBytes = false)
    (picks : List Nat) :
    busAnswer pick picks s =
      raiseError .busError (BitVec.ofNat 32 (if t.data = none then t.readAddr else t.writeAddr)) s := by
  cases hd : t.data <;> simp_all [busAnswer, answerTransfer]

/-- Settles O18: a read answers exactly what `exists_engineRead_iff` says, and the write lands it. -/
theorem elementReadThenWrite : Obligations.ElementReadThenWrite := by
  intro s g t pick hi hg ht
  refine ⟨fun hd hok bs => ?_, fun hq hd hok picks => ?_, fun bs picks hd hok => ?_⟩
  · rw [← exists_engineRead_iff]
    refine exists_congr fun picks => ?_
    rw [busAnswer_read hg ht hd hok]
    refine ⟨fun h => by rw [h], fun h => ?_⟩
    have hlt := (List.getElem?_eq_some_iff.1 ht).1
    injection h with _ _ _ _ _ heng
    injection heng with heng
    injection heng with _ htodo
    have hx := congrArg (fun l : List Transfer => l[pick % g.todo.length]?) htodo
    simpa [List.getElem?_set_self hlt] using hx
  · rw [busAnswer_read hg ht hd hok, engineRead_of_quiet hq]
  · refine ⟨_, busAnswer_write hg ht hd hok picks, rfl, rfl, fun k hk => ?_⟩
    exact (landWrite_inside hi.mem (hi.write_le hg (List.mem_of_getElem? ht) hd hok) hk).1

/-- Settles O19: no access that fails is answered well, and the engine is empty afterwards. -/
theorem busErrorEndsTheCommand : Obligations.BusErrorEndsTheCommand := by
  rintro s g t pick picks hg ht _ rfl ⟨k, hk, hbad⟩
  have hfail : accessOK s.platform (if t.data = none then t.readAddr else t.writeAddr) g.op.accessBytes = false := by
    by_contra hok
    rw [accessOK_iff.1 (by simpa using hok) k hk] at hbad
    cases hbad
  rw [busAnswer_fail hg ht hfail]
  exact ⟨rfl, answerAll_idle rfl⟩

/-! ## Who writes memory -/

/-- No register write changes memory. -/
theorem writeReg_mem {r : Reg} {v : Word} {s t : State} (h : writeReg r v s = .next t) : t.mem = s.mem := by
  rcases writeReg_cases h with ⟨-, rfl⟩ | ⟨-, rfl⟩ | ⟨-, -, rfl⟩ | ⟨-, -, i, -, rfl⟩ | ⟨-, -, -, rfl⟩ |
    ⟨-, -, f, rfl⟩ | ⟨-, rfl⟩
  case inr.inr.inr.inl =>
    obtain ⟨-, -, -, -, -, -, hmem, -⟩ := bodyOf_frame i (accept s)
    exact hmem
  all_goals rfl

/-- No register read changes memory. -/
@[simp] theorem windowRead_mem (offset : Nat) (s : State) : (windowRead offset s).mem = s.mem := by
  obtain ⟨v, h | ⟨-, -, h⟩⟩ := windowRead_cases offset s
  · rw [h]
  · rw [h]; rfl

/-- Settles O47, event by event. -/
theorem memoryWriters : Obligations.MemoryWriters := by
  intro s t a h hne
  have same : t.mem ≠ s.mem := fun he => hne (by rw [he])
  rcases step_cases h with ⟨-, rfl⟩ | ⟨r, ⟨addr, v, wins, reg, -, -, -, hw⟩ | ⟨addr, v, wins, -, -, rfl⟩ |
    ⟨addr, w, v, wins, ha, -, htw, -⟩ | ⟨addr, w, picks, -, -, rfl⟩ | ⟨addr, w, picks, v, -, rfl⟩ |
    ⟨pick, picks, ha, -⟩ | ⟨pick, lands, ha, -⟩ | ⟨-, rfl⟩ | ⟨-, rfl⟩⟩
  · exact absurd rfl same
  · exact absurd (writeReg_mem hw) same
  · exact absurd rfl same
  · exact .inr (.inr ⟨addr, w, v, wins, by rw [ha]; rfl, htw⟩)
  · exact absurd (windowRead_mem _ _) same
  · exact absurd rfl same
  · exact .inl ⟨pick, picks, by rw [ha]; rfl⟩
  · exact .inr (.inl ⟨pick, lands, by rw [ha]; rfl⟩)
  · exact absurd rfl same
  · exact absurd rfl same

end Sys2Proof.Machine

/-! # Host accesses: the completion point and a write of one byte -/

namespace Sys2Proof.Machine

/-! ## What a host read of a byte may return -/

/-- With nothing older and nothing to come, a host read returns memory's byte. -/
theorem hostByte_settled {s : State} {a : Nat} (hs : tracesAt s.stale a = []) (hn : incoming s a = []) (pick : Nat) :
    hostByte s a pick = s.mem.read a := by
  rw [hostByte, hs, hn, List.append_nil, choose_nil]

/-- What a host read returns depends on memory, the older values and the values to come, at that byte. -/
theorem hostByte_congr {s t : State} {a : Nat} (hm : t.mem.read a = s.mem.read a)
    (hs : tracesAt t.stale a = tracesAt s.stale a) (hn : incoming t a = incoming s a) (pick : Nat) :
    hostByte t a pick = hostByte s a pick := by
  rw [hostByte, hostByte, hm, hs, hn]

/-- All that host reads of a byte may return. -/
theorem exists_hostByte_iff {s : State} {a : Nat} {b : Byte} :
    (∃ pick, hostByte s a pick = b) ↔ b = s.mem.read a ∨ b ∈ tracesAt s.stale a ∨ b ∈ incoming s a := by
  simp only [hostByte, exists_choose_iff, List.mem_append]

/-! ## The completion point -/

/-- A STATUS that shows an end is that of an idle block. -/
theorem State.Inv.engine_eq_none {s : State} (h : s.Inv) (he : s.status.showsEnd = true) : s.engine = none := by
  rw [h.idle]
  by_contra hb
  obtain ⟨hd, herr, -, -⟩ := h.clear_of_busy (by simpa using hb)
  rw [Status.showsEnd, hd, herr] at he
  cases he

/-- A STATUS read that shows an end observes it (R64). -/
theorem windowRead_showsEnd {s : State} (he : s.status.showsEnd = true) :
    windowRead 0x04 s = { observe s with readData := (readReg s .status).toNat } := by
  simp [windowRead, regAt, observeRead, he]

/-- A trace at a byte that the last accepted command has written is settled by that command's end. -/
theorem settles_of_written {s : State} {w t : Trace} (hw : w ∈ s.written) (hu : w.phase = .unseen)
    (ha : w.addr = t.addr) : settles s t = true := by
  rw [settles, Bool.or_eq_true, List.any_eq_true]
  exact .inr ⟨w, hw, by simp [hu, ha]⟩

/-- The bytes of the last accepted command, and those no other command left in question, are settled. -/
theorem settles_of_unseen {s : State} {l : List Trace} {a : Nat}
    (h : (∃ w ∈ s.written, w.phase = .unseen ∧ w.addr = a) ∨ ∀ t ∈ l, t.addr = a → t.phase = .unseen) :
    ∀ t ∈ l, t.addr = a → settles s t = true := by
  intro t ht ha
  rcases h with ⟨w, hw, hu, hwa⟩ | h
  · exact settles_of_written hw hu (hwa.trans ha.symm)
  · simp [settles, h t ht ha]

/-- An observed end leaves the older values readable on a platform that is not coherent. -/
theorem tracesAt_observe_incoherent {s : State} (hc : s.platform.coherent = false) (a : Nat) :
    tracesAt (observe s).stale a = tracesAt s.stale a := by
  rw [observe_stale, hc, if_neg (by decide)]
  induction s.stale with
  | nil => rfl
  | cons t l ih => rw [List.map_cons, tracesAt_cons, tracesAt_cons, ih]; split <;> rfl

/-- On such a platform they then wait for the maintenance. -/
theorem phase_observe_incoherent {s : State} (hc : s.platform.coherent = false) {a : Nat}
    (h : ∀ t ∈ s.stale, t.addr = a → settles s t = true) :
    ∀ t ∈ (observe s).stale, t.addr = a → t.phase = .shown := by
  rw [observe_stale, hc, if_neg (by decide)]
  intro t ht ha
  obtain ⟨u, hu, rfl⟩ := List.mem_map.1 ht
  by_cases hs : settles s u = true
  · rw [if_pos hs]
  · rw [if_neg hs] at ha
    exact absurd (h u hu ha) hs

theorem Trace.miss_of_shown {t : Trace} (h : t.phase = .shown) : t.miss = t := by simp [Trace.miss, h]

@[simp] theorem Trace.miss_addr (t : Trace) : t.miss.addr = t.addr := by unfold Trace.miss; split <;> rfl

/-- Another CMD write does not hinder the maintenance: it changes no memory, and what waits for it goes on waiting. -/
theorem writeCmd_shown (w : Word) {s : State} {a : Nat} (h : ∀ t ∈ s.stale, t.addr = a → t.phase = .shown) :
    ∃ t, writeCmd w s = .next t ∧ t.mem = s.mem ∧ t.agenda = s.agenda ∧
      ∀ x ∈ t.stale, x.addr = a → x.phase = .shown := by
  have hmiss : ∀ x ∈ (accept s).stale, x.addr = a → x.phase = .shown := by
    intro x hx ha
    obtain ⟨y, hy, rfl⟩ := List.mem_map.1 hx
    rw [Trace.miss_addr] at ha
    rw [Trace.miss_of_shown (h y hy ha)]
    exact h y hy ha
  rcases writeCmd_cases w s with ⟨i, -, hc⟩ | ⟨r, -, hc⟩ <;> refine ⟨_, hc, ?_⟩ <;> cases hb : s.status.busy
  · obtain ⟨-, -, -, hag, -, -, hm, hst, -⟩ := bodyOf_frame i (accept s)
    rw [command_idle _ hb, hst]
    exact ⟨hm, hag, hmiss⟩
  · rw [command_busy _ hb]
    exact ⟨rfl, rfl, h⟩
  · rw [command_idle _ hb]
    exact ⟨rfl, rfl, hmiss⟩
  · rw [command_busy _ hb]
    exact ⟨rfl, rfl, h⟩

/-- The maintenance ends what waits for it. -/
theorem tracesAt_maintain_shown {s : State} {a : Nat} (h : ∀ t ∈ s.stale, t.addr = a → t.phase = .shown) :
    tracesAt (maintain s).stale a = [] := by
  rw [maintain_stale, tracesAt_eq_nil]
  intro t ht ha
  simpa [h t (List.mem_of_mem_filter ht) ha] using (List.mem_filter.1 ht).2

/-- A step that reads a STATUS that shows an end observes it. -/
theorem step_statusRead {s : State} {picks : List Nat} {rest : List Event} (he : s.status.showsEnd = true)
    (ha : s.agenda = .hostRead (s.platform.base + 0x04) 4 picks :: rest) :
    step s = .next { observe s with agenda := rest, readData := (readReg s .status).toNat } := by
  rw [step_windowRead ha (by decide) (by decide)]
  exact congrArg _ (windowRead_showsEnd (s := { s with agenda := rest }) he)

/-- After it, another CMD write and the maintenance, nothing older is left where the end has settled it. -/
theorem run_cmdWrite_maintain {s : State} {a w : Nat} {rest : List Event}
    (h : ∀ t ∈ s.stale, t.addr = a → t.phase = .shown) (ha : s.agenda = cmdWrite s w :: .maintain :: rest) :
    ∃ t, core.run 2 s = .next t ∧ t.mem = s.mem ∧ tracesAt t.stale a = [] := by
  obtain ⟨t, hw, hm, hag, hsh⟩ := writeCmd_shown (BitVec.ofNat 32 w) (s := { s with agenda := .maintain :: rest }) h
  have hcmd : step s = .next t := (step_regWrite ha rfl (by decide) (by decide)).trans hw
  have hmaint : step t = .next (maintain { t with agenda := rest }) := step_cons hag
  exact ⟨_, (run_succ hcmd).trans (run_succ hmaint), hm, tracesAt_maintain_shown (s := { t with agenda := rest }) hsh⟩

/-- Settles O49: the read observes the end, which settles the byte. -/
theorem completionPointEndsTheRaces : Obligations.CompletionPointEndsTheRaces := by
  intro s a pick rest picks hi he
  have hidle := hi.engine_eq_none he
  refine ⟨fun hset => ⟨fun hc ha => ?_, fun hc ha => ?_, fun w hc ha => ?_⟩, fun hc ha => ?_, fun hset ha => ?_⟩
  · exact ⟨_, step_statusRead he ha, rfl, rfl,
      hostByte_settled (tracesAt_observe hc (settles_of_unseen hset)) (incoming_idle hidle a) pick⟩
  · exact ⟨maintain { observe s with agenda := rest, readData := (readReg s .status).toNat },
      run_succ (step_statusRead he ha), rfl,
      hostByte_settled (tracesAt_maintain_observe (settles_of_unseen hset)) (incoming_idle hidle a) pick⟩
  · obtain ⟨t, hrun, hm, hst⟩ := run_cmdWrite_maintain (phase_observe_incoherent hc (settles_of_unseen hset))
      (s := { observe s with
        agenda := cmdWrite s w :: .maintain :: rest, readData := (readReg s .status).toNat }) rfl
    refine ⟨t, (run_succ (step_statusRead he ha)).trans hrun, hm, fun hn => ?_⟩
    rw [hostByte_settled hst hn, hm]
    rfl
  · refine ⟨_, step_statusRead he ha, hostByte_congr ?_ ?_ ?_ pick⟩
    · rfl
    · exact tracesAt_observe_incoherent hc a
    · exact (incoming_idle hidle a).trans (incoming_idle hidle a).symm
  · exact ⟨_, step_statusRead he ha,
      racing_eq_false.2 ⟨incoming_idle hidle a, tracesAt_observe_written (settles_of_unseen hset)⟩⟩

/-! ## A host write of one byte -/

/-- The host write of one byte as an event outside the window. -/
theorem step_byteWrite {s : State} {addr : Word} {v : Nat} {wins : Bool} {rest : List Event}
    (ha : s.agenda = .hostWrite addr 1 v [wins] :: rest) (hout : 256 ≤ windowOffset s.platform addr)
    (hok : memOK s.platform addr.toNat = true) :
    step s = .next (hostWriteByte addr.toNat (BitVec.ofNat 8 v) wins { s with agenda := rest }) := by
  rw [step_cons ha]
  exact (deliver_byteWrite (s := { s with agenda := rest }) hout v [wins]).trans (if_pos hok)

/-- What the running command is to write at a byte does not depend on what the host wrote there, if it is nothing. -/
theorem incoming_hostWriteByte {s : State} {a : Nat} (h : incoming s a = []) (c : Nat) (b : Byte) (w : Bool) :
    incoming (hostWriteByte c b w s) a = [] := by
  obtain ⟨b', st, hw, -, -⟩ := hostWriteByte_frame c b w s
  rw [hw, incoming_eq_nil]
  intro g hg
  obtain ⟨g₀, hg₀, rfl⟩ := Option.map_eq_some_iff.1 hg
  exact incoming_eq_nil.1 h g₀ hg₀

/-- The byte that memory holds after a host write. -/
theorem hostWriteByte_read {s : State} (hi : s.Inv) {a : Nat} (b : Byte) (w : Bool) :
    (hostWriteByte a b w s).mem.read a =
      if racing s a = true ∧ w = false then (tracesAt s.written a).headD b else b := by
  cases hr : racing s a
  · rw [hostWriteByte_quiet hr, Memory.read_write hi.mem, if_pos rfl]
    rfl
  · rw [hostWriteByte_racing hr, Memory.read_write hi.mem, if_pos rfl]
    cases w <;> simp

/-- Settles O51: the byte by the cases of the race, the rest by the frame of a host write. -/
theorem quietHostWriteIsKept : Obligations.QuietHostWriteIsKept := by
  intro s addr v wins rest hi ha hout hok
  refine ⟨_, step_byteWrite ha hout hok, ?_⟩
  have hi' : State.Inv { s with agenda := rest } := hi.of_frame _ _ _ rest
  have hread := hostWriteByte_read hi' (a := addr.toNat) (BitVec.ofNat 8 v) wins
  refine ⟨fun h => ?_, fun c l hw hc => ?_, fun hr pick => ?_, ?_⟩
  · rw [hread]
    rcases h with h | h | h
    · exact if_neg fun hc => by rw [show racing { s with agenda := rest } addr.toNat = false from h] at hc; cases hc.1
    · simp [h]
    · simp [h]
  · have hr : racing { s with agenda := rest } addr.toNat = true := by simp [racing, hc]
    rw [hread, if_pos ⟨hr, hw⟩]
    simp [hc]
  · have hr : racing { s with agenda := rest } addr.toNat = false := hr
    rw [hostByte_settled _ (incoming_hostWriteByte (racing_eq_false.1 hr).1 ..), hread, if_neg (by simp [hr])]
    rw [hostWriteByte_quiet hr, tracesAt_eq_nil]
    intro t ht
    simpa using (List.mem_filter.1 ht).2
  · obtain ⟨b', st, hw, -, -⟩ := hostWriteByte_frame addr.toNat (BitVec.ofNat 8 v) wins { s with agenda := rest }
    rw [hw]
    refine ⟨fun a hne => ?_, fun c hc => ?_,
      fun g hg => ⟨noteOldSource addr.toNat (s.mem.read addr.toNat) g, ?_, rfl, ?_⟩⟩
    · exact (Memory.read_write hi.mem ..).trans (if_neg hne.symm)
    · have := (List.mem_filter.1 hc).2
      simp at this
      omega
    · simp [hg]
    · simp [noteOldSource, valuesAt]

end Sys2Proof.Machine

/-! # A bulk command under way: the bytes it may leave

The bytes of its buffers by element, and bounds on what memory holds that every answer of the bus keeps. -/

namespace Sys2Proof.Machine

/-! ## The bytes of the elements -/

/-- Byte `k` of the source of element `e`. -/
def BulkOp.sourceByte (op : BulkOp) (p : Params) (e k : Nat) : Nat := p.src.toNat + op.sourceOffset p e + k

/-- Byte `k` of the destination of element `e`. -/
def BulkOp.destByte (op : BulkOp) (p : Params) (e k : Nat) : Nat := p.dst.toNat + op.destOffset p e + k

section Legal
variable {op : BulkOp} {p : Params} (hl : op.legal p = true)
include hl

theorem BulkOp.inDest_destByte {e k : Nat} (he : e < op.elements p) (hk : k < op.accessBytes) :
    inDest op p (op.destByte p e k) := by
  obtain ⟨-, -, hle⟩ := everyByteMovesExactlyOnce op p hl
  have := (hle e he).2
  unfold inDest BulkOp.destByte
  omega

/-- The source of a legal command is no part of its destination (R61). -/
theorem BulkOp.not_inDest_source {j : Nat} (hj : j < op.length p) : ¬inDest op p (p.src.toNat + j) := by
  obtain ⟨-, -, hov⟩ := BulkOp.legal_iff.1 hl
  unfold inDest
  omega

theorem BulkOp.not_inDest_sourceByte {e k : Nat} (he : e < op.elements p) (hk : k < op.accessBytes) :
    ¬inDest op p (op.sourceByte p e k) := by
  obtain ⟨-, -, hle⟩ := everyByteMovesExactlyOnce op p hl
  have := (hle e he).1
  rw [BulkOp.sourceByte, Nat.add_assoc]
  exact BulkOp.not_inDest_source hl (by omega)

/-- A byte of the destination belongs to one element, as one byte of it (R57). -/
theorem BulkOp.destByte_injective {e e' k k' : Nat} (he : e < op.elements p) (hk : k < op.accessBytes)
    (he' : e' < op.elements p) (hk' : k' < op.accessBytes) (h : op.destByte p e k = op.destByte p e' k') :
    e = e' ∧ k = k' := by
  obtain ⟨-, hone, hle⟩ := everyByteMovesExactlyOnce op p hl
  have := (hle e he).2
  unfold BulkOp.destByte at h
  have heq : e = e' := (hone (op.destOffset p e + k) (by omega)).unique ⟨he, by omega⟩ ⟨he', by omega⟩
  subst heq
  exact ⟨rfl, by omega⟩

end Legal

/-- A transfer that the engine holds is that of an element. -/
theorem Engine.Fits.exists_element {g : Engine} {p : Params} (h : g.Fits p) {t : Transfer} (ht : t ∈ g.todo) :
    ∃ e < g.op.elements p, t.pair = g.op.transfer p e := by
  obtain ⟨e, he, heq⟩ := mem_plan_iff.1 (h.todo.subset (List.mem_map_of_mem ht))
  exact ⟨e, he, heq⟩

theorem Transfer.readAddr_of_pair {t : Transfer} {op : BulkOp} {p : Params} {e : Nat} (h : t.pair = op.transfer p e)
    (k : Nat) : t.readAddr + k = op.sourceByte p e k :=
  congrArg (fun x : Transfer => x.readAddr + k) h

theorem Transfer.writeAddr_of_pair {t : Transfer} {op : BulkOp} {p : Params} {e : Nat} (h : t.pair = op.transfer p e)
    (k : Nat) : t.writeAddr + k = op.destByte p e k :=
  congrArg (fun x : Transfer => x.writeAddr + k) h

/-! ## The acceptance of a bulk command -/

/-- An idle block starts a legal bulk command and ends an illegal one with an error. -/
theorem exec_bulk_cases {op : BulkOp} {s u : State} (hb : s.status.busy = false) (h : exec op.instr s = .next u) :
    (op.legal s.params = true ∧ u = afterStart op s) ∨ (op.legal s.params = false ∧ ∃ c, u = afterError c s) := by
  have hbusy := bodyOf_bulk_busy_iff (op := op) (s := accept s) hb
  obtain rfl := exec_next_iff.1 h
  rw [command_idle _ hb]
  cases hl : op.legal s.params
  · rcases body_cases op.instr (accept s) with ⟨r, -, hr⟩ | ⟨c, -, -, -, hbody⟩ | ⟨op', -, -, hbody⟩
    · rcases hr with ⟨hi, -⟩ | ⟨hi, -⟩ | ⟨hi, -⟩ <;> exact absurd (by simp [hi]) op.instr_not_immediate
    · exact .inr ⟨rfl, c, hbody⟩
    · rw [hbody] at hbusy
      simp [hl] at hbusy
  · exact .inl ⟨rfl, bodyOf_legal hl⟩

/-- A legal bulk command starts. -/
theorem exec_bulk_legal {op : BulkOp} {s u : State} (hb : s.status.busy = false) (h : exec op.instr s = .next u)
    (hl : op.legal s.params = true) : u = afterStart op s := by
  rcases exec_bulk_cases hb h with ⟨-, hu⟩ | ⟨hl', -⟩
  · exact hu
  · rw [hl] at hl'
    cases hl'

theorem State.Inv.exec {s u : State} (hi : s.Inv) (hb : s.status.busy = false) {i : Instr} (h : exec i s = .next u) :
    u.Inv := by
  rw [exec_next_iff.1 h, command_idle _ hb]
  exact hi.body hb i

/-- What an idle engine leaves to happen: no flag but WBUSY changes. -/
theorem Underway.idle {u t : State} (h : Underway u t) (hn : u.engine = none) :
    t.engine = none ∧ t.status.busy = u.status.busy ∧ t.status.done = u.status.done := by
  induction h with
  | start => exact ⟨hn, rfl, rfl⟩
  | answer pick picks _ ih =>
    rw [busAnswer, ih.1]
    exact ih
  | @poll offset t _ ih => obtain ⟨v, h | ⟨-, -, h⟩⟩ := windowRead_cases offset t <;> rw [h] <;> exact ih
  | read _ _ ih => exact ih
  | drop _ _ ih => exact ih

/-- An idle block has started the command that is under way, or has completed, after it. -/
theorem Underway.started {op : BulkOp} {s u t : State} (hb : s.status.busy = false) (h : exec op.instr s = .next u)
    (hu : Underway u t) (ht : t.status.busy = true ∨ t.status.done = true) :
    op.legal s.params = true ∧ u = afterStart op s := by
  rcases exec_bulk_cases hb h with hs | ⟨-, c, rfl⟩
  · exact hs
  · obtain ⟨-, hbusy, hdone⟩ := hu.idle rfl
    rw [hbusy, hdone] at ht
    rcases ht with ht | ht <;> cases ht

/-! ## Bounds on the bytes -/

/-- Bounds on bytes by address: what memory may hold, what the engine may read, and what commands may be noted to have
written. -/
structure Bounds where
  held : Nat → Byte → Prop
  read : Nat → Byte → Prop
  landed : Nat → Byte → Prop

/-- The bounds allow what a legal command moves. -/
structure Bounds.Closed (B : Bounds) (op : BulkOp) (p : Params) : Prop where
  read : ∀ a b, B.held a b → B.read a b
  move : op.legal p = true → ∀ e k b, e < op.elements p → k < op.accessBytes → B.read (op.sourceByte p e k) b →
    B.held (op.destByte p e k) b ∧ B.landed (op.destByte p e k) b

/-- The engine runs the command, and what it has read or may read lies within the bounds. -/
structure Bounds.EngineHold (B : Bounds) (op : BulkOp) (g : Engine) : Prop where
  op : g.op = op
  older : ∀ a, ∀ b ∈ valuesAt g.oldSource a, B.read a b
  data : ∀ x ∈ g.todo, ∀ bs, x.data = some bs → ∀ k (hk : k < bs.length), B.read (x.readAddr + k) bs[k]

/-- The bytes of a state lie within the bounds. -/
structure Bounds.Hold (B : Bounds) (op : BulkOp) (p : Params) (t : State) : Prop where
  inv : t.Inv
  params : t.params = p
  held : ∀ a, B.held a (t.mem.read a)
  landed : ∀ a, ∀ b ∈ tracesAt t.written a, B.landed a b
  engine : ∀ g, t.engine = some g → B.EngineHold op g

namespace Bounds.Hold

variable {B : Bounds} {op : BulkOp} {p : Params} {t : State}

/-- A change of other fields, or one that ends traces or the engine, keeps the bounds. -/
theorem of_frame (h : B.Hold op p t) {t' : State} (hi : t'.Inv) (hp : t'.params = t.params) (hm : t'.mem = t.mem)
    (hw : t'.written.Sublist t.written) (he : ∀ g, t'.engine = some g → t.engine = some g) : B.Hold op p t' where
  inv := hi
  params := hp.trans h.params
  held a := by rw [hm]; exact h.held a
  landed a b hb := h.landed a b (((hw.filter _).map _).subset hb)
  engine g hg := h.engine g (he g hg)

/-- What an element read returns lies within the bounds of reads. -/
theorem read_engineRead (h : B.Hold op p t) (hc : B.Closed op p) {g : Engine} (hg : t.engine = some g) {a : Nat}
    {picks : List Nat} {k : Nat} (hk : k < (engineRead g t.mem a picks).length) :
    B.read (a + k) (engineRead g t.mem a picks)[k] := by
  obtain ⟨-, hread⟩ := exists_engineRead_iff.1 ⟨picks, rfl⟩
  rcases hread k hk with hmem | hold
  · rw [hmem]
    exact hc.read _ _ (h.held _)
  · exact (h.engine g hg).older _ _ hold

/-- An element write stores bytes that the bounds allow. -/
theorem moved (h : B.Hold op p t) (hc : B.Closed op p) {g : Engine} (hg : t.engine = some g) {x : Transfer}
    (hx : x ∈ g.todo) {bs : List Byte} (hd : x.data = some bs) {k : Nat} (hk : k < bs.length) :
    B.held (x.writeAddr + k) bs[k] ∧ B.landed (x.writeAddr + k) bs[k] := by
  have hfits := h.inv.engine g hg
  have hread := (h.engine g hg).data x hx bs hd k hk
  have hk' := hk
  rw [h.inv.length_data hg hx hd] at hk'
  obtain ⟨e, he, hpair⟩ := hfits.exists_element hx
  obtain rfl := (h.engine g hg).op
  rw [h.params] at hfits he hpair
  rw [x.readAddr_of_pair hpair] at hread
  rw [x.writeAddr_of_pair hpair]
  exact hc.move hfits.legal e k _ he hk' hread

/-- The landing of an element keeps the bounds. -/
theorem land (h : B.Hold op p t) (hc : B.Closed op p) {g : Engine} (hg : t.engine = some g) {x : Transfer}
    (hx : x ∈ g.todo) {bs : List Byte} (hd : x.data = some bs)
    (hok : accessOK t.platform x.writeAddr g.op.accessBytes = true) (a : Nat) :
    B.held a ((landWrite x.writeAddr bs t).mem.read a) ∧
      ∀ b ∈ tracesAt (landWrite x.writeAddr bs t).written a, B.landed a b := by
  have hle := h.inv.write_le hg hx hd hok
  by_cases ha : a < x.writeAddr ∨ x.writeAddr + bs.length ≤ a
  · obtain ⟨hm, -, hw, -⟩ := landWrite_outside h.inv.mem hle ha
    rw [hm, hw]
    exact ⟨h.held a, h.landed a⟩
  · obtain ⟨k, rfl⟩ : ∃ k, a = x.writeAddr + k := ⟨a - x.writeAddr, by omega⟩
    have hk : k < bs.length := by omega
    obtain ⟨hm, -, hw⟩ := landWrite_inside h.inv.mem hle hk
    obtain ⟨hheld, hland⟩ := h.moved hc hg hx hd hk
    rw [hm, hw]
    refine ⟨hheld, fun b hb => ?_⟩
    rcases List.mem_cons.1 hb with rfl | hb
    · exact hland
    · exact h.landed _ b hb

theorem busAnswer (h : B.Hold op p t) (hc : B.Closed op p) (pick : Nat) (picks : List Nat) :
    B.Hold op p (busAnswer pick picks t) := by
  have hi := h.inv.busAnswer pick picks
  rcases busAnswer_cases pick picks t with ⟨-, hb⟩ | ⟨g, -, -, hb⟩ | ⟨g, x, hg, hx, -, -, hb⟩ |
    ⟨g, x, bs, hg, hx, hd, hok, hb⟩ | ⟨g, x, -, -, -, hb⟩ <;> rw [hb] at hi ⊢
  · exact h
  · exact h.of_frame hi rfl rfl (List.Sublist.refl _) nofun
  · obtain ⟨hop, holder, hdata⟩ := h.engine g hg
    refine ⟨hi, h.params, h.held, h.landed, ?_⟩
    rintro _ ⟨⟩
    refine ⟨hop, holder, fun y hy bs hbs k hk => ?_⟩
    rcases List.mem_or_eq_of_mem_set hy with hy | rfl
    · exact hdata y hy bs hbs k hk
    · cases hbs
      exact h.read_engineRead hc hg hk
  · have hmem := List.mem_of_getElem? hx
    obtain ⟨hop, holder, hdata⟩ := h.engine g hg
    refine ⟨hi, h.params, fun a => (h.land hc hg hmem hd hok a).1, fun a => (h.land hc hg hmem hd hok a).2, ?_⟩
    rintro _ ⟨⟩
    exact ⟨hop, holder, fun y hy => hdata y (List.mem_of_mem_eraseIdx hy)⟩
  · exact h.of_frame hi rfl rfl (List.Sublist.refl _) nofun

/-- Whatever the bus answers and the host reads or writes in vain, the bounds are kept. -/
theorem underway {u : State} (h : B.Hold op p u) (hc : B.Closed op p) (hu : Underway u t) : B.Hold op p t := by
  induction hu with
  | start => exact h
  | answer pick picks _ ih => exact ih.busAnswer hc pick picks
  | @poll offset t _ ih =>
    have hi := ih.inv.windowRead offset
    obtain ⟨v, hw | ⟨-, -, hw⟩⟩ := windowRead_cases offset t <;> rw [hw] at hi ⊢
    · exact ih.of_frame hi rfl rfl (List.Sublist.refl _) fun _ => id
    · exact ih.of_frame hi rfl rfl List.filter_sublist fun _ => id
  | read v _ ih => exact ih.of_frame (ih.inv.of_frame _ _ v _) rfl rfl (List.Sublist.refl _) fun _ => id
  | drop _ _ ih => exact ih.of_frame ih.inv.dropWrite rfl rfl (List.Sublist.refl _) fun _ => id

end Bounds.Hold

/-! ## The command alone -/

/-- The command, accepted at `s`, moves the byte `b` to address `a`. -/
def Moves (op : BulkOp) (s : State) (a : Nat) (b : Byte) : Prop :=
  op.legal s.params = true ∧ ∃ e k, e < op.elements s.params ∧ k < op.accessBytes ∧ a = op.destByte s.params e k ∧
    b = s.mem.read (op.sourceByte s.params e k)

theorem Moves.inDest {op : BulkOp} {s : State} {a : Nat} {b : Byte} (h : Moves op s a b) : inDest op s.params a := by
  obtain ⟨hl, e, k, he, hk, rfl, -⟩ := h
  exact BulkOp.inDest_destByte hl he hk

/-- It moves one byte to each byte of its destination. -/
theorem Moves.eq {op : BulkOp} {s : State} {e k : Nat} {b : Byte} (h : Moves op s (op.destByte s.params e k) b)
    (he : e < op.elements s.params) (hk : k < op.accessBytes) : b = s.mem.read (op.sourceByte s.params e k) := by
  obtain ⟨hl, e', k', he', hk', heq, rfl⟩ := h
  obtain ⟨rfl, rfl⟩ := BulkOp.destByte_injective hl he hk he' hk' heq
  rfl

/-- The bounds of a command that is left alone: each byte is the old one or the one moved there. -/
def oldOrMoved (op : BulkOp) (s : State) : Bounds where
  held a b := b = s.mem.read a ∨ Moves op s a b
  read a b := ¬inDest op s.params a → b = s.mem.read a
  landed a b := b ∈ tracesAt s.written a ∨ Moves op s a b

theorem oldOrMoved_closed (op : BulkOp) (s : State) : (oldOrMoved op s).Closed op s.params where
  read a b h ha := h.resolve_right fun hm => ha hm.inDest
  move hl e k b he hk h := by
    have hm : Moves op s (op.destByte s.params e k) b :=
      ⟨hl, e, k, he, hk, rfl, h (BulkOp.not_inDest_sourceByte hl he hk)⟩
    exact ⟨.inr hm, .inr hm⟩

/-- They hold from the acceptance of the command on. -/
theorem oldOrMoved_hold {op : BulkOp} {s u t : State} (hi : s.Inv) (hb : s.status.busy = false)
    (h : exec op.instr s = .next u) (hu : Underway u t) : (oldOrMoved op s).Hold op s.params t := by
  refine Bounds.Hold.underway ?_ (oldOrMoved_closed op s) hu
  have hinv := hi.exec hb h
  rcases exec_bulk_cases hb h with ⟨-, rfl⟩ | ⟨-, c, rfl⟩
  · refine ⟨hinv, rfl, fun a => .inl rfl, fun a b hb => .inl ?_, ?_⟩
    · rwa [← tracesAt_miss]
    · rintro _ ⟨⟩
      refine ⟨rfl, nofun, fun x hx bs hbs => ?_⟩
      rw [data_of_mem_plan hx] at hbs
      cases hbs
  · refine ⟨hinv, rfl, fun a => .inl rfl, fun a b hb => .inl ?_, nofun⟩
    rwa [← tracesAt_miss]

/-- Settles O25: the bytes stay within the bounds of a command that is left alone. -/
theorem partialCommandLeavesOldOrNew : Obligations.PartialCommandLeavesOldOrNew := by
  intro op s u t hi hb h hu
  have held := (oldOrMoved_hold hi hb h hu).held
  have outside : ∀ a, ¬inDest op s.params a → t.mem.read a = s.mem.read a := fun a ha =>
    (held a).resolve_right fun hm => ha hm.inDest
  refine ⟨?_, outside, fun hl k hk => outside _ (BulkOp.not_inDest_source hl hk)⟩
  rintro e k _ he hk rfl
  exact (held _).imp_right fun hm => hm.eq he hk

/-! ## A host write of one byte meanwhile -/

/-- What new bounds must allow when the host writes `b` at address `a`: the host's byte, and in a race a command's. -/
structure Bounds.Write (B B' : Bounds) (a : Nat) (b : Byte) : Prop where
  host : B'.held a b
  command : ∀ c, B.landed a c → B'.held a c
  others : ∀ c d, c ≠ a → B.held c d → B'.held c d
  read : ∀ c d, B.read c d → B'.read c d
  landed : ∀ c d, B.landed c d → B'.landed c d

theorem valuesAt_cons (c : Host.Cell) (l : List Host.Cell) (a : Nat) :
    valuesAt (c :: l) a = if c.1 = a then c.2 :: valuesAt l a else valuesAt l a := by
  simp only [valuesAt, List.filter_cons, beq_iff_eq]
  split <;> rfl

/-- A host write of a byte within the new bounds leaves every byte within them. -/
theorem Bounds.Hold.hostWriteByte {B B' : Bounds} {op : BulkOp} {p : Params} {t : State} (h : B.Hold op p t)
    (hc : B.Closed op p) {a : Nat} {b : Byte} (hw : B.Write B' a b) (wins : Bool)
    (hi : (hostWriteByte a b wins t).Inv) : B'.Hold op p (hostWriteByte a b wins t) := by
  obtain ⟨b', st, heq, hb', -⟩ := hostWriteByte_frame a b wins t
  rw [heq] at hi ⊢
  refine ⟨hi, h.params, fun c => ?_, fun c d hd => hw.landed c d (h.landed c d hd), fun g hg => ?_⟩
  · rw [Memory.read_write h.inv.mem]
    split
    · next hac =>
      subst hac
      rcases hb' with rfl | ⟨-, hmem⟩
      · exact hw.host
      · exact hw.command b' (h.landed a b' hmem)
    · next hac => exact hw.others c _ (Ne.symm hac) (h.held c)
  · obtain ⟨g₀, hg₀, rfl⟩ := Option.map_eq_some_iff.1 hg
    obtain ⟨hop, holder, hdata⟩ := h.engine g₀ hg₀
    refine ⟨hop, fun c d hd => hw.read c d ?_, fun x hx bs hbs k hk => hw.read _ _ (hdata x hx bs hbs k hk)⟩
    simp only [noteOldSource, valuesAt_cons] at hd
    split at hd
    · next hac =>
      rcases List.mem_cons.1 hd with rfl | hd
      · subst hac
        exact hc.read _ _ (h.held _)
      · exact holder c d hd
    · exact holder c d hd

/-- The host writes one byte of memory, which the bus takes. -/
theorem deliver_byteWrite_next {s t : State} {addr : Word} {n : Nat} {wins : Bool}
    (hout : 256 ≤ windowOffset s.platform addr) (h : deliver (.hostWrite addr 1 n [wins]) s = .next t) :
    t = Machine.hostWriteByte addr.toNat (BitVec.ofNat 8 n) wins s := by
  rw [deliver_byteWrite hout] at h
  split at h
  · exact (Host.Outcome.next.inj h).symm
  · cases h

theorem State.Inv.hostWriteByte {s : State} (h : s.Inv) (addr : Word) (n : Nat) (wins : Bool) :
    (hostWriteByte addr.toNat (BitVec.ofNat 8 n) wins s).Inv := by
  have := h.hostWriteBytes addr n [wins] [0]
  rwa [Machine.hostWriteBytes, byteAddr_zero, byteOf_zero] at this

/-- While a bulk command is under way, and after it, the platform is as at its acceptance. -/
theorem Underway.platform_eq {op : BulkOp} {s u t : State} (hb : s.status.busy = false)
    (h : exec op.instr s = .next u) (hu : Underway u t) : t.platform = s.platform := by
  obtain ⟨-, -, hp⟩ := hu.frame
  rcases exec_bulk_cases hb h with ⟨-, rfl⟩ | ⟨-, c, rfl⟩ <;> exact hp

/-- The bounds after the host has written `b` at address `a` of the destination: there the host's byte or the one
moved, elsewhere as before. -/
def destWritten (op : BulkOp) (s : State) (a : Nat) (b : Byte) : Bounds where
  held c d := Moves op s c d ∨ d = if c = a then b else s.mem.read c
  read := (oldOrMoved op s).read
  landed := (oldOrMoved op s).landed

theorem destWritten_closed {op : BulkOp} {s : State} {a : Nat} (ha : inDest op s.params a) (b : Byte) :
    (destWritten op s a b).Closed op s.params where
  read c d h hc := by
    rcases h with hm | rfl
    · exact absurd hm.inDest hc
    · exact if_neg fun h : c = a => hc (h ▸ ha)
  move hl e k d he hk h := by
    obtain ⟨-, hland⟩ := (oldOrMoved_closed op s).move hl e k d he hk h
    exact ⟨.inl ⟨hl, e, k, he, hk, rfl, h (BulkOp.not_inDest_sourceByte hl he hk)⟩, hland⟩

theorem destWritten_write {op : BulkOp} {s : State} {a : Nat} (hw : tracesAt s.written a = []) (b : Byte) :
    (oldOrMoved op s).Write (destWritten op s a b) a b where
  host := .inr (if_pos rfl).symm
  command c h := .inl (h.resolve_left (by simp [hw]))
  others c d hne h := by
    rcases h with rfl | hm
    · exact .inr (if_neg hne).symm
    · exact .inl hm
  read _ _ := id
  landed _ _ := id

/-- Settles O54: the host's byte and the command's are the bounds at the byte from the host's write on. -/
theorem racingWriteKeepsHostsOrCommands : Obligations.RacingWriteKeepsHostsOrCommands := by
  intro op s u t v w e k addr n wins hi hb h hl hut he hk ha hw hout hv hvw
  have ht := oldOrMoved_hold hi hb h hut
  obtain rfl := deliver_byteWrite_next (by rwa [hut.platform_eq hb h]) hv
  have ha : addr.toNat = op.destByte s.params e k := ha
  have hdest : inDest op s.params addr.toNat := ha ▸ BulkOp.inDest_destByte hl he hk
  have moved : ∀ b, Moves op s addr.toNat b → b = s.mem.read (op.sourceByte s.params e k) := fun b hm =>
    Moves.eq (by rwa [← ha]) he hk
  have held := ((ht.hostWriteByte (oldOrMoved_closed op s) (destWritten_write hw _) wins
    (ht.inv.hostWriteByte addr n wins)).underway (destWritten_closed hdest _) hvw).held
  refine ⟨?_, fun hne => ?_, fun a hne hout => ?_⟩
  · rcases held addr.toNat with hm | heq
    · exact .inr (moved _ hm)
    · exact .inl (heq.trans (if_pos rfl))
  · rw [hostWriteByte_read ht.inv]
    obtain ⟨c, l, hc⟩ := List.exists_cons_of_ne_nil hne
    have hm : Moves op s addr.toNat c := (ht.landed addr.toNat c (by simp [hc])).resolve_left (by simp [hw])
    cases wins
    · rw [if_pos ⟨by simp [racing, hc], rfl⟩, hc]
      exact (moved c hm).trans (if_neg (by decide)).symm
    · simp
  · exact ((held a).resolve_left fun hm => hout hm.inDest).trans (if_neg hne)

/-- The bounds after the host has written `b` at address `a` of the source: there the host's byte, and where that byte
moves to the old or the new one. -/
def sourceWritten (op : BulkOp) (s : State) (a : Nat) (b : Byte) : Bounds where
  held c d := if c = a then d = b else d = s.mem.read c ∨ ∃ e k, e < op.elements s.params ∧ k < op.accessBytes ∧
    c = op.destByte s.params e k ∧
    (d = s.mem.read (op.sourceByte s.params e k) ∨ (op.sourceByte s.params e k = a ∧ d = b))
  read c d := ¬inDest op s.params c → d = s.mem.read c ∨ (c = a ∧ d = b)
  landed _ _ := True

theorem sourceWritten_closed {op : BulkOp} {s : State} (hl : op.legal s.params = true) {a : Nat}
    (ha : ¬inDest op s.params a) (b : Byte) : (sourceWritten op s a b).Closed op s.params where
  read c d h hc := by
    simp only [sourceWritten] at h
    split at h
    · next heq => exact .inr ⟨heq, h⟩
    · rcases h with h | ⟨e, k, he, hk, rfl, -⟩
      · exact .inl h
      · exact absurd (BulkOp.inDest_destByte hl he hk) hc
  move _ e k d he hk h := by
    refine ⟨?_, trivial⟩
    have hne : op.destByte s.params e k ≠ a := fun heq => ha (heq ▸ BulkOp.inDest_destByte hl he hk)
    simp only [sourceWritten, if_neg hne]
    exact .inr ⟨e, k, he, hk, rfl, h (BulkOp.not_inDest_sourceByte hl he hk)⟩

theorem sourceWritten_write {op : BulkOp} {s : State} {a : Nat} (ha : ¬inDest op s.params a)
    (hw : tracesAt s.written a = []) (b : Byte) : (oldOrMoved op s).Write (sourceWritten op s a b) a b where
  host := by simp [sourceWritten]
  command c h := by
    rcases h with h | hm
    · simp [hw] at h
    · exact absurd hm.inDest ha
  others c d hne h := by
    simp only [sourceWritten, if_neg hne]
    refine h.imp_right fun ⟨_, e, k, he, hk, hc, hd⟩ => ⟨e, k, he, hk, hc, .inl hd⟩
  read c d h hc := .inl (h hc)
  landed _ _ _ := trivial

/-- Settles O55: from the host's write on, the bounds are the host's byte at its place and the old or the new byte
where it moves to. -/
theorem racingSourceWriteMovesOldOrNew : Obligations.RacingSourceWriteMovesOldOrNew := by
  intro op s u t v w addr n wins hi hb h hl hut hlo hhi hw hout hv hvw
  have ht := oldOrMoved_hold hi hb h hut
  obtain rfl := deliver_byteWrite_next (by rwa [hut.platform_eq hb h]) hv
  have hsrc : ¬inDest op s.params addr.toNat := by
    obtain ⟨j, hj⟩ := Nat.exists_eq_add_of_le hlo
    rw [hj]
    exact BulkOp.not_inDest_source hl (by omega)
  have held := ((ht.hostWriteByte (oldOrMoved_closed op s) (sourceWritten_write hsrc hw _) wins
    (ht.inv.hostWriteByte addr n wins)).underway (sourceWritten_closed hl hsrc _) hvw).held
  simp only [sourceWritten] at held
  refine ⟨by simpa using held addr.toNat, ?_⟩
  rintro e k _ _ he hk rfl rfl
  have hne : op.destByte s.params e k ≠ addr.toNat := fun heq => hsrc (heq ▸ BulkOp.inDest_destByte hl he hk)
  have hdest := held (op.destByte s.params e k)
  rw [if_neg hne] at hdest
  refine hdest.imp_right ?_
  rintro ⟨e', k', he', hk', heq, hd⟩
  obtain ⟨rfl, rfl⟩ := BulkOp.destByte_injective hl he hk he' hk' heq
  exact hd

end Sys2Proof.Machine

/-! # A bulk command under way: what each byte of its destination stands at

Until a STATUS read shows the end of a command, each byte of its destination is untouched or has been landed on, and
each element is still to do, landed, or given up with a bus error. -/

namespace Sys2Proof.Machine

/-! ## The transfers left -/

/-- The elements have transfers of their own. -/
theorem BulkOp.transfer_injective {op : BulkOp} {p : Params} (hl : op.legal p = true) {e e' : Nat}
    (he : e < op.elements p) (he' : e' < op.elements p) (h : op.transfer p e = op.transfer p e') : e = e' :=
  (BulkOp.destByte_injective hl he op.accessBytes_pos he' op.accessBytes_pos
    (congrArg (fun t : Transfer => t.writeAddr + 0) h)).1

theorem nodup_plan {op : BulkOp} {p : Params} (hl : op.legal p = true) : (plan op p).Nodup := by
  refine List.nodup_range.map_on fun e he e' he' h => ?_
  rw [List.mem_range] at he he'
  exact BulkOp.transfer_injective hl he he' h

/-- The pair of a transfer is left to do. -/
def Engine.holds (g : Engine) (t : Transfer) : Prop := t ∈ g.todo.map Transfer.pair

/-- A read that answers takes no pair away. -/
theorem Engine.holds_set {g : Engine} {i : Nat} {t : Transfer} (ht : g.todo[i]? = some t) (bs : List Byte)
    (x : Transfer) : Engine.holds { g with todo := g.todo.set i { t with data := some bs } } x ↔ g.holds x := by
  obtain ⟨hi, rfl⟩ := List.getElem?_eq_some_iff.1 ht
  have hself : (g.todo.set i { g.todo[i] with data := some bs }).map Transfer.pair = g.todo.map Transfer.pair := by
    rw [List.map_set, show ({ g.todo[i] with data := some bs } : Transfer).pair = (g.todo.map Transfer.pair)[i]'(by simpa)
      by simp [Transfer.pair], List.set_getElem_self]
  rw [Engine.holds, Engine.holds, hself]

/-- A write that answers takes away its own pair, and no other. -/
theorem Engine.Fits.holds_eraseIdx {g : Engine} {p : Params} (h : g.Fits p) {i : Nat} {t : Transfer}
    (ht : g.todo[i]? = some t) (x : Transfer) :
    Engine.holds { g with todo := g.todo.eraseIdx i } x ↔ x ≠ t.pair ∧ g.holds x := by
  obtain ⟨hi, rfl⟩ := List.getElem?_eq_some_iff.1 ht
  have hnodup := h.todo.nodup (nodup_plan h.legal)
  rw [Engine.holds, ← List.eraseIdx_map, ← hnodup.erase_getElem i (by simpa), hnodup.mem_erase_iff, List.getElem_map]
  rfl

/-! ## The bytes of the destination -/

/-- STATUS stands at one offset of the window (R22). -/
theorem regAt_status {offset : Nat} (h : regAt offset = some .status) : offset = 0x04 := by
  unfold regAt at h
  split at h <;> cases h
  rfl

/-- A byte is as it was in `old`; of the older values in `fresh` none is at it. -/
structure Untouched (old new : Memory) (fresh : List Trace) (a : Nat) : Prop where
  mem : new.read a = old.read a
  fresh : tracesAt fresh a = []

/-- The byte `b` has been written over that of `old`, which is now an older value, and races with the host until the
end of the command is shown. -/
structure Landed (old new : Memory) (fresh written : List Trace) (a : Nat) (b : Byte) : Prop where
  mem : new.read a = b
  fresh : tracesAt fresh a = [old.read a]
  written : ∃ w ∈ written, w.phase = .unseen ∧ w.addr = a

/-- What holds while no STATUS read has shown the end of the command accepted at `s`. The older values are those the
command has left, `fresh`, and those of before it that the host's maintenance, if `maintained` allows it, has kept. -/
structure Progress (maintained : Bool) (op : BulkOp) (s : State) (fresh : List Trace) (keep : Trace → Bool)
    (t : State) : Prop where
  inv : t.Inv
  params : t.params = s.params
  stale : t.stale = fresh ++ (s.stale.map Trace.miss).filter keep
  unseen : ∀ x ∈ fresh, x.phase = .unseen
  kept : ∀ x, keep x = true ∨ (maintained = true ∧ x.phase = .shown)
  outside : ∀ a, ¬inDest op s.params a → Untouched s.mem t.mem fresh a
  /-- What is left to do has not touched its destination, and what it has read is the source's. -/
  engine : ∀ g, t.engine = some g → g.op = op ∧ g.oldSource = [] ∧ ∀ x ∈ g.todo, ∀ k < op.accessBytes,
    Untouched s.mem t.mem fresh (x.writeAddr + k) ∧
      ∀ bs, x.data = some bs → bs[k]? = some (s.mem.read (x.readAddr + k))
  /-- Each element is left to do, or given up with BUS_ERROR, or done. -/
  element : ∀ e < op.elements s.params,
    (∃ g, t.engine = some g ∧ g.holds (op.transfer s.params e)) ∨
    (t.engine = none ∧ t.status.done = false ∧
      ∀ k < op.accessBytes, Untouched s.mem t.mem fresh (op.destByte s.params e k)) ∨
    ∀ k < op.accessBytes, Landed s.mem t.mem fresh t.written (op.destByte s.params e k)
      (s.mem.read (op.sourceByte s.params e k))

section Landing

variable {old : Memory} {t : State} {fresh : List Trace} {c : Nat} {bs : List Byte} (hm : t.mem.wf = true)
  (hle : c + bs.length ≤ 2 ^ 32)
include hm hle

theorem Untouched.land_outside {a : Nat} (h : Untouched old t.mem fresh a) (ha : a < c ∨ c + bs.length ≤ a) :
    Untouched old (landWrite c bs t).mem (tracesOf c (readBytes t.mem c bs.length) ++ fresh) a where
  mem := (landWrite_outside hm hle ha).1.trans h.mem
  fresh := by rw [tracesAt_append, tracesAt_tracesOf_outside (by rwa [length_readBytes]), h.fresh]; rfl

theorem Landed.land_outside {a : Nat} {b : Byte} (h : Landed old t.mem fresh t.written a b)
    (ha : a < c ∨ c + bs.length ≤ a) :
    Landed old (landWrite c bs t).mem (tracesOf c (readBytes t.mem c bs.length) ++ fresh)
      (landWrite c bs t).written a b where
  mem := (landWrite_outside hm hle ha).1.trans h.mem
  fresh := by rw [tracesAt_append, tracesAt_tracesOf_outside (by rwa [length_readBytes]), h.fresh]; rfl
  written := by
    obtain ⟨w, hw, hp⟩ := h.written
    exact ⟨w, List.mem_append_right _ hw, hp⟩

theorem Untouched.land_inside {k : Nat} (h : Untouched old t.mem fresh (c + k)) (hk : k < bs.length) :
    Landed old (landWrite c bs t).mem (tracesOf c (readBytes t.mem c bs.length) ++ fresh) (landWrite c bs t).written
      (c + k) bs[k] where
  mem := (landWrite_inside hm hle hk).1
  fresh := by
    rw [tracesAt_append, tracesAt_tracesOf_inside _ _ (by rwa [length_readBytes]), h.fresh]
    simp [readBytes, h.mem]
  written := by
    have hw : bs[k] ∈ tracesAt (tracesOf c bs) (c + k) := by simp [tracesAt_tracesOf_inside _ _ hk]
    obtain ⟨w, hw, ha, -⟩ := mem_tracesAt.1 hw
    exact ⟨w, List.mem_append_left _ hw, phase_of_mem_tracesOf hw, ha⟩

end Landing

namespace Progress

variable {m : Bool} {op : BulkOp} {s t : State} {fresh : List Trace} {keep : Trace → Bool}

/-- It holds at the start of the command. -/
theorem start (hi : (afterStart op s).Inv) :
    Progress m op s [] (fun _ => true) (afterStart op s) where
  inv := hi
  params := rfl
  stale := by simp [afterStart]
  unseen := nofun
  kept _ := .inl rfl
  outside _ _ := ⟨rfl, rfl⟩
  engine := by
    rintro _ ⟨⟩
    refine ⟨rfl, rfl, fun x hx k _ => ⟨⟨rfl, rfl⟩, fun bs hbs => ?_⟩⟩
    rw [data_of_mem_plan hx] at hbs
    cases hbs
  element e he := by
    refine .inl ⟨_, rfl, ?_⟩
    rw [Engine.holds, map_pair_plan]
    exact mem_plan_iff.2 ⟨e, he, rfl⟩

/-- A change of registers that sets no DONE keeps it. -/
theorem of_frame (h : Progress m op s fresh keep t) {t' : State} (hi : t'.Inv) (hp : t'.params = t.params)
    (hm : t'.mem = t.mem) (hst : t'.stale = t.stale) (hw : t'.written = t.written) (hg : t'.engine = t.engine)
    (hd : t.status.done = false → t'.status.done = false) : Progress m op s fresh keep t' where
  inv := hi
  params := hp.trans h.params
  stale := hst.trans h.stale
  unseen := h.unseen
  kept := h.kept
  outside := by rw [hm]; exact h.outside
  engine := by rw [hm, hg]; exact h.engine
  element e he := by
    rw [hm, hg, hw]
    exact (h.element e he).imp_right (Or.imp_left fun ⟨hn, hdone, hu⟩ => ⟨hn, hd hdone, hu⟩)

/-- The maintenance ends nothing that the command has left. -/
theorem maintain (h : Progress m op s fresh keep t) (hm : m = true) :
    Progress m op s fresh (fun x => keep x && decide (x.phase ≠ .shown)) (maintain t) where
  inv := h.inv.maintain
  params := h.params
  stale := by
    have hfresh : fresh.filter (fun x => decide (x.phase ≠ .shown)) = fresh :=
      List.filter_eq_self.2 fun x hx => by simp [h.unseen x hx]
    rw [maintain_stale, h.stale, List.filter_append, hfresh, List.filter_filter]
    simp only [Bool.and_comm]
  unseen := h.unseen
  kept x := by
    rcases h.kept x with hk | hk
    · by_cases hs : x.phase = .shown
      · exact .inr ⟨hm, hs⟩
      · exact .inl (by simp [hk, hs])
    · exact .inr hk
  outside := h.outside
  engine := h.engine
  element := h.element

/-- The transfer of an element that is left to do has not touched its destination. -/
theorem untouched_of_holds (h : Progress m op s fresh keep t) {g : Engine} (hg : t.engine = some g) {e k : Nat}
    (hh : g.holds (op.transfer s.params e)) (hk : k < op.accessBytes) :
    Untouched s.mem t.mem fresh (op.destByte s.params e k) := by
  obtain ⟨-, -, htodo⟩ := h.engine g hg
  obtain ⟨x, hx, hpair⟩ := List.mem_map.1 hh
  rw [← x.writeAddr_of_pair hpair]
  exact (htodo x hx k hk).1

/-- While the engine runs nothing is given up. -/
theorem holds_or_landed (h : Progress m op s fresh keep t) {g : Engine} (hg : t.engine = some g) {e : Nat}
    (he : e < op.elements s.params) :
    g.holds (op.transfer s.params e) ∨ ∀ k < op.accessBytes, Landed s.mem t.mem fresh t.written
      (op.destByte s.params e k) (s.mem.read (op.sourceByte s.params e k)) := by
  rcases h.element e he with ⟨g', hg', hh⟩ | ⟨hn, -⟩ | hl
  · cases hg.symm.trans hg'
    exact .inl hh
  · rw [hg] at hn
    cases hn
  · exact .inr hl

/-- With no transfer left the command completes with every element done. -/
theorem complete (h : Progress m op s fresh keep t) {g : Engine} (hg : t.engine = some g) (hn : g.todo = []) :
    Progress m op s fresh keep (complete t) where
  inv := h.inv.complete (h.inv.busy_of_engine hg)
  params := h.params
  stale := h.stale
  unseen := h.unseen
  kept := h.kept
  outside := h.outside
  engine := nofun
  element e he := .inr (.inr ((h.holds_or_landed hg he).resolve_left (by simp [Engine.holds, hn])))

/-- A bus error gives up what is left to do. -/
theorem fail (h : Progress m op s fresh keep t) {g : Engine} (hg : t.engine = some g) (a : Word) :
    Progress m op s fresh keep (raiseError .busError a t) where
  inv := h.inv.raiseError (by decide) (absurd rfl)
  params := h.params
  stale := h.stale
  unseen := h.unseen
  kept := h.kept
  outside := h.outside
  engine := nofun
  element e he := .inr ((h.holds_or_landed hg he).imp
    (fun hh => ⟨rfl, rfl, fun _ hk => h.untouched_of_holds hg hh hk⟩) id)

section Element

variable {g : Engine} {i : Nat} {x : Transfer} {bs : List Byte} (h : Progress m op s fresh keep t)
  (hg : t.engine = some g)
include h hg

/-- The element of a transfer that the engine holds. -/
theorem exists_element (hx : x ∈ g.todo) :
    op.legal s.params = true ∧ ∃ e < op.elements s.params, x.pair = op.transfer s.params e := by
  have hf := h.inv.engine g hg
  obtain ⟨rfl, -⟩ := h.engine g hg
  rw [h.params] at hf
  exact ⟨hf.legal, hf.exists_element hx⟩

/-- While a transfer is left to do, memory holds at its source what it held before the command. -/
theorem read_source (hx : x ∈ g.todo) {k : Nat} (hk : k < op.accessBytes) :
    t.mem.read (x.readAddr + k) = s.mem.read (x.readAddr + k) := by
  obtain ⟨hl, e, he, hpair⟩ := h.exists_element hg hx
  rw [x.readAddr_of_pair hpair]
  exact (h.outside _ (BulkOp.not_inDest_sourceByte hl he hk)).mem

/-- A read takes the bytes of the source. -/
theorem read (hx : g.todo[i]? = some x) (picks : List Nat) :
    Progress m op s fresh keep
      { t with
        engine := some { g with todo := g.todo.set i { x with data := some (engineRead g t.mem x.readAddr picks) } } } := by
  have hmem := List.mem_of_getElem? hx
  obtain ⟨hop, hold, htodo⟩ := h.engine g hg
  refine ⟨h.inv.advance hg ((h.inv.engine g hg).read hx (length_engineRead ..)), h.params, h.stale, h.unseen, h.kept,
    h.outside, ?_, fun e he => ?_⟩
  · rintro _ ⟨⟩
    refine ⟨hop, hold, fun y hy k hk => ?_⟩
    rcases List.mem_or_eq_of_mem_set hy with hy | rfl
    · exact htodo y hy k hk
    · refine ⟨(htodo x hmem k hk).1, fun bs hbs => ?_⟩
      cases hbs
      rw [engineRead_of_quiet hold, ← h.read_source hg hmem hk]
      simp [readBytes, hop, hk]
  · exact (h.holds_or_landed hg he).imp (fun hh => ⟨_, rfl, (Engine.holds_set hx _ _).2 hh⟩) .inr

/-- A byte that is none of the element's lies outside its write. -/
theorem outside_write (hx : x ∈ g.todo) (hd : x.data = some bs) {e a : Nat} (hpair : x.pair = op.transfer s.params e)
    (ha : ∀ k < op.accessBytes, a ≠ op.destByte s.params e k) : a < x.writeAddr ∨ x.writeAddr + bs.length ≤ a := by
  by_contra hin
  have hlen := h.inv.length_data hg hx hd
  rw [(h.engine g hg).1] at hlen
  refine ha (a - x.writeAddr) (by omega) ?_
  rw [← x.writeAddr_of_pair hpair]
  omega

/-- A write lands the bytes of the source at the element's destination, and touches no other byte. -/
theorem land (hx : g.todo[i]? = some x) (hd : x.data = some bs)
    (hok : accessOK t.platform x.writeAddr g.op.accessBytes = true) :
    Progress m op s (tracesOf x.writeAddr (readBytes t.mem x.writeAddr bs.length) ++ fresh) keep
      { landWrite x.writeAddr bs t with engine := some { g with todo := g.todo.eraseIdx i } } := by
  have hmem := List.mem_of_getElem? hx
  have hf := h.inv.engine g hg
  have hlen := h.inv.length_data hg hmem hd
  have hle := h.inv.write_le hg hmem hd hok
  have hwf := h.inv.mem
  obtain ⟨hl, e, he, hpair⟩ := h.exists_element hg hmem
  obtain ⟨hop, hold, htodo⟩ := h.engine g hg
  have other : ∀ e' k, e' < op.elements s.params → k < op.accessBytes → e' ≠ e →
      op.destByte s.params e' k < x.writeAddr ∨ x.writeAddr + bs.length ≤ op.destByte s.params e' k :=
    fun e' k he' hk hne => h.outside_write hg hmem hd hpair fun j hj heq =>
      hne (BulkOp.destByte_injective hl he' hk he hj heq).1
  refine
    { inv := ?_, params := h.params, stale := ?_, unseen := fun y hy => ?_, kept := h.kept, outside := fun a ha => ?_
      engine := ?_, element := fun e' he' => ?_ }
  · rw [← hlen] at hok
    exact (h.inv.landWrite hok (hlen ▸ g.op.accessBytes_pos)).advance hg (hf.erase _)
  · rw [List.append_assoc, ← h.stale]
    rfl
  · exact (List.mem_append.1 hy).elim phase_of_mem_tracesOf (h.unseen y)
  · exact (h.outside a ha).land_outside hwf hle (h.outside_write hg hmem hd hpair fun k hk heq =>
      ha (heq ▸ BulkOp.inDest_destByte hl he hk))
  · rintro _ ⟨⟩
    refine ⟨hop, hold, fun y hy k hk => ?_⟩
    have hy' := List.mem_of_mem_eraseIdx hy
    obtain ⟨hu, hdata⟩ := htodo y hy' k hk
    obtain ⟨-, e', he', hpair'⟩ := h.exists_element hg hy'
    have hne : e' ≠ e := by
      rintro rfl
      exact ((hf.holds_eraseIdx hx y.pair).1 (List.mem_map_of_mem hy)).1 (hpair'.trans hpair.symm)
    refine ⟨hu.land_outside hwf hle ?_, hdata⟩
    rw [y.writeAddr_of_pair hpair']
    exact other e' k he' hk hne
  · by_cases hee : e' = e
    · subst hee
      refine .inr (.inr fun k hk => ?_)
      obtain ⟨hu, hdata⟩ := htodo x hmem k hk
      have hk' : k < bs.length := by rw [hlen, hop]; exact hk
      have hland := hu.land_inside hwf hle hk'
      have hb := hdata bs hd
      rw [List.getElem?_eq_getElem hk', Option.some.injEq, x.readAddr_of_pair hpair] at hb
      rwa [x.writeAddr_of_pair hpair, hb] at hland
    · refine (h.holds_or_landed hg he').imp (fun hh => ⟨_, rfl, (hf.holds_eraseIdx hx _).2 ⟨fun heq => ?_, hh⟩⟩)
        fun hl' => .inr fun k hk => (hl' k hk).land_outside hwf hle (other e' k he' hk hee)
      exact hee (BulkOp.transfer_injective hl he' he (heq.trans hpair))

end Element

/-- A bus answer keeps it; the older values may become more. -/
theorem busAnswer (h : Progress m op s fresh keep t) (pick : Nat) (picks : List Nat) :
    ∃ fresh', Progress m op s fresh' keep (busAnswer pick picks t) := by
  rcases busAnswer_cases pick picks t with ⟨-, hb⟩ | ⟨g, hg, hn, hb⟩ | ⟨g, x, hg, hx, -, -, hb⟩ |
    ⟨g, x, bs, hg, hx, hd, hok, hb⟩ | ⟨g, x, hg, -, -, hb⟩ <;> rw [hb]
  · exact ⟨_, h⟩
  · exact ⟨_, h.complete hg hn⟩
  · exact ⟨_, h.read hg hx picks⟩
  · exact ⟨_, h.land hg hx hd hok⟩
  · exact ⟨_, h.fail hg _⟩

/-- It holds until a STATUS read shows the end of the command. -/
theorem of_unread (hi : (afterStart op s).Inv) (hu : Unread m (afterStart op s) t) :
    ∃ fresh keep, Progress m op s fresh keep t := by
  induction hu with
  | start => exact ⟨_, _, start hi⟩
  | answer pick picks _ ih =>
    obtain ⟨fresh, keep, h⟩ := ih
    obtain ⟨fresh', h⟩ := h.busAnswer pick picks
    exact ⟨fresh', keep, h⟩
  | @poll offset t _ hs ih =>
    obtain ⟨fresh, keep, h⟩ := ih
    refine ⟨fresh, keep, ?_⟩
    obtain ⟨v, hw | ⟨hr, he, -⟩⟩ := windowRead_cases offset t
    · have hinv := h.inv.windowRead offset
      rw [hw] at hinv ⊢
      exact h.of_frame hinv rfl rfl rfl rfl rfl id
    · rw [hs (regAt_status hr)] at he
      cases he
  | read v _ ih =>
    obtain ⟨fresh, keep, h⟩ := ih
    exact ⟨fresh, keep, h.of_frame (h.inv.of_frame _ _ v _) rfl rfl rfl rfl rfl id⟩
  | clear v _ ih =>
    obtain ⟨fresh, keep, h⟩ := ih
    exact ⟨fresh, keep, h.of_frame (h.inv.acknowledge ..) rfl rfl rfl rfl rfl fun hd => by simp [writeStatus, hd]⟩
  | drop _ _ ih =>
    obtain ⟨fresh, keep, h⟩ := ih
    exact ⟨fresh, keep, h.of_frame h.inv.dropWrite rfl rfl rfl rfl rfl id⟩
  | maintain _ hm ih =>
    obtain ⟨fresh, keep, h⟩ := ih
    exact ⟨fresh, _, h.maintain hm⟩

end Progress

end Sys2Proof.Machine

/-! # What host reads return until the end of a bulk command is shown, and after -/

namespace Sys2Proof.Machine

/-! ## Older values of before the command -/

/-- Acceptance and maintenance add no older value. -/
theorem tracesAt_filter_miss_subset (keep : Trace → Bool) (l : List Trace) (a : Nat) :
    tracesAt ((l.map Trace.miss).filter keep) a ⊆ tracesAt l a := by
  rw [← tracesAt_miss l a]
  exact ((List.filter_sublist.filter _).map _).subset

theorem Trace.miss_phase_shown {t : Trace} (h : t.miss.phase = .shown) : t.phase = .shown := by
  unfold Trace.miss at h
  split at h
  · cases h
  · exact h

/-- And they keep those that the maintenance does not end. -/
theorem tracesAt_filter_miss {keep : Trace → Bool} {m : Bool} {l : List Trace} {a : Nat}
    (hk : ∀ x, keep x = true ∨ (m = true ∧ x.phase = .shown))
    (h : m = true → ∀ x ∈ l, x.addr = a → x.phase ≠ .shown) :
    tracesAt ((l.map Trace.miss).filter keep) a = tracesAt l a := by
  rw [← tracesAt_miss l a, tracesAt, tracesAt, List.filter_filter]
  congr 1
  refine List.filter_congr fun y hy => ?_
  obtain ⟨x, hx, rfl⟩ := List.mem_map.1 hy
  by_cases ha : x.addr = a
  · have hkeep := (hk x.miss).resolve_right fun ⟨hm, hs⟩ => h hm x hx ha (Trace.miss_phase_shown hs)
    rw [hkeep, Bool.and_true]
  · simp [ha]

namespace Progress

variable {m : Bool} {op : BulkOp} {s t : State} {fresh : List Trace} {keep : Trace → Bool}

/-! ## The values to come -/

/-- What the command is still to write: the source's bytes, as they were. -/
theorem incoming_eq (h : Progress m op s fresh keep t) {g : Engine} (hg : t.engine = some g) (a : Nat) :
    incoming t a = (g.todo.filter fun x => x.covers op.accessBytes a).map fun x =>
      s.mem.read (x.readAddr + (a - x.writeAddr)) := by
  obtain ⟨rfl, hold, htodo⟩ := h.engine g hg
  simp only [incoming, hg, List.map_eq_flatMap]
  refine List.flatMap_congr fun x hx => ?_
  obtain ⟨hmem, hcov⟩ := List.mem_filter.1 hx
  simp only [Transfer.covers, Bool.and_eq_true, decide_eq_true_eq] at hcov
  have hk : a - x.writeAddr < g.op.accessBytes := by omega
  cases hd : x.data with
  | none => simp [hold, valuesAt, h.read_source hg hmem hk]
  | some bs => simp [List.getD, (htodo x hmem _ hk).2 bs hd]

/-- Byte by byte of the elements left to do. -/
theorem mem_incoming_iff (h : Progress m op s fresh keep t) {g : Engine} (hg : t.engine = some g) {a : Nat} {b : Byte} :
    b ∈ incoming t a ↔ ∃ e < op.elements s.params, ∃ k < op.accessBytes,
      g.holds (op.transfer s.params e) ∧ a = op.destByte s.params e k ∧
      b = s.mem.read (op.sourceByte s.params e k) := by
  simp only [h.incoming_eq hg, List.mem_map, List.mem_filter, Transfer.covers, Bool.and_eq_true, decide_eq_true_eq]
  constructor
  · rintro ⟨x, ⟨hx, hlo, hhi⟩, rfl⟩
    obtain ⟨-, e, he, hpair⟩ := h.exists_element hg hx
    refine ⟨e, he, a - x.writeAddr, by omega, ?_, ?_, ?_⟩
    · exact hpair ▸ List.mem_map_of_mem hx
    · rw [← x.writeAddr_of_pair hpair]
      omega
    · rw [← x.readAddr_of_pair hpair]
  · rintro ⟨e, he, k, hk, hh, rfl, rfl⟩
    obtain ⟨x, hx, hpair⟩ := List.mem_map.1 hh
    rw [← x.writeAddr_of_pair hpair, ← x.readAddr_of_pair hpair]
    exact ⟨x, ⟨hx, by omega, by omega⟩, by rw [Nat.add_sub_cancel_left]⟩

/-! ## Bytes outside the destination -/

/-- Nothing is to come outside the destination. -/
theorem incoming_outside (h : Progress m op s fresh keep t) {a : Nat} (ha : ¬inDest op s.params a) :
    incoming t a = [] := by
  cases hg : t.engine with
  | none => exact incoming_idle hg a
  | some g =>
    rw [List.eq_nil_iff_forall_not_mem]
    intro b hb
    obtain ⟨e, he, k, hk, hh, rfl, -⟩ := (h.mem_incoming_iff hg).1 hb
    obtain ⟨x, hx, -⟩ := List.mem_map.1 hh
    exact ha (BulkOp.inDest_destByte (h.exists_element hg hx).1 he hk)

theorem stale_outside (h : Progress m op s fresh keep t) {a : Nat} (ha : ¬inDest op s.params a) :
    tracesAt t.stale a = tracesAt ((s.stale.map Trace.miss).filter keep) a := by
  rw [h.stale, tracesAt_append, (h.outside a ha).fresh, List.nil_append]

/-- A host read outside the destination returns what it might have returned before the command. -/
theorem hostByte_outside (h : Progress m op s fresh keep t) {a : Nat} (ha : ¬inDest op s.params a) (pick : Nat) :
    ∃ pick', hostByte s a pick' = hostByte t a pick := by
  have hb : ∃ pick', hostByte t a pick' = hostByte t a pick := ⟨pick, rfl⟩
  rw [exists_hostByte_iff, h.incoming_outside ha, h.stale_outside ha, (h.outside a ha).mem] at hb
  rw [exists_hostByte_iff]
  exact hb.imp_right (Or.imp (fun hold => tracesAt_filter_miss_subset _ _ _ hold) nofun)

/-- And what it would have returned, if the host's maintenance has ended nothing there. -/
theorem hostByte_outside_eq (h : Progress m op s fresh keep t) (hn : s.engine = none) {a : Nat}
    (ha : ¬inDest op s.params a) (hsh : m = true → ∀ x ∈ s.stale, x.addr = a → x.phase ≠ .shown) (pick : Nat) :
    hostByte t a pick = hostByte s a pick := by
  refine hostByte_congr (h.outside a ha).mem ?_ ?_ pick
  · rw [h.stale_outside ha, tracesAt_filter_miss h.kept hsh]
  · rw [h.incoming_outside ha, incoming_idle hn]

/-! ## Bytes of the destination -/

section Dest

variable (h : Progress m op s fresh keep t) (hl : op.legal s.params = true) {e k : Nat}
  (he : e < op.elements s.params) (hk : k < op.accessBytes)
include h he hk

/-- A byte of the destination is untouched or has been landed on. -/
theorem untouched_or_landed :
    Untouched s.mem t.mem fresh (op.destByte s.params e k) ∨
    Landed s.mem t.mem fresh t.written (op.destByte s.params e k) (s.mem.read (op.sourceByte s.params e k)) := by
  rcases h.element e he with ⟨g, hg, hh⟩ | ⟨-, -, hu⟩ | hl
  · exact .inl (h.untouched_of_holds hg hh hk)
  · exact .inl (hu k hk)
  · exact .inr (hl k hk)

include hl in
/-- All that may come to it is the byte moved there. -/
theorem eq_of_mem_incoming {b : Byte} (hb : b ∈ incoming t (op.destByte s.params e k)) :
    b = s.mem.read (op.sourceByte s.params e k) := by
  cases hg : t.engine with
  | none =>
    rw [incoming_idle hg] at hb
    cases hb
  | some g =>
    obtain ⟨e', he', k', hk', -, heq, rfl⟩ := (h.mem_incoming_iff hg).1 hb
    obtain ⟨rfl, rfl⟩ := BulkOp.destByte_injective hl he hk he' hk' heq
    rfl

include hl in
/-- A host read of it returns what it might have returned before the command, or the byte moved there. -/
theorem hostByte_old_or_new {b : Byte} (hb : ∃ pick, hostByte t (op.destByte s.params e k) pick = b) :
    (∃ pick, hostByte s (op.destByte s.params e k) pick = b) ∨ b = s.mem.read (op.sourceByte s.params e k) := by
  rw [exists_hostByte_iff] at hb ⊢
  rw [h.stale, tracesAt_append, List.mem_append] at hb
  rcases hb with rfl | (hf | hold) | hin
  · exact (h.untouched_or_landed he hk).imp (fun hu => .inl hu.mem) fun hl => hl.mem
  · rcases h.untouched_or_landed he hk with hu | hl
    · simp [hu.fresh] at hf
    · rw [hl.fresh, List.mem_singleton] at hf
      exact .inl (.inl hf)
  · exact .inl (.inr (.inl (tracesAt_filter_miss_subset _ _ _ hold)))
  · exact .inr (h.eq_of_mem_incoming hl he hk hin)

/-- It may still return what it might have returned before, but for what the host's maintenance has ended. -/
theorem exists_hostByte_old (hn : s.engine = none)
    (hsh : m = true → ∀ x ∈ s.stale, x.addr = op.destByte s.params e k → x.phase ≠ .shown) {b : Byte}
    (hb : ∃ pick, hostByte s (op.destByte s.params e k) pick = b) :
    ∃ pick, hostByte t (op.destByte s.params e k) pick = b := by
  rw [exists_hostByte_iff, incoming_idle hn] at hb
  rw [exists_hostByte_iff, h.stale, tracesAt_append, List.mem_append, tracesAt_filter_miss h.kept hsh]
  rcases hb with rfl | hold | hnil
  · rcases h.untouched_or_landed he hk with hu | hl
    · exact .inl hu.mem.symm
    · exact .inr (.inl (.inl (by simp [hl.fresh])))
  · exact .inr (.inl (.inr hold))
  · cases hnil

/-- While BUSY or DONE is 1 it may return the byte moved there. -/
theorem exists_hostByte_new (hs : t.status.busy = true ∨ t.status.done = true) :
    ∃ pick, hostByte t (op.destByte s.params e k) pick = s.mem.read (op.sourceByte s.params e k) := by
  rw [exists_hostByte_iff]
  rcases h.element e he with ⟨g, hg, hh⟩ | ⟨hn, hd, -⟩ | hl
  · exact .inr (.inr ((h.mem_incoming_iff hg).2 ⟨e, he, k, hk, hh, rfl, rfl⟩))
  · rw [h.inv.idle.1 hn, hd] at hs
    simp at hs
  · exact .inl (hl k hk).mem.symm

end Dest

end Progress

/-- Settles O58, from what holds until the end of the command is shown. -/
theorem unreadEndKeepsTheRaces : Obligations.UnreadEndKeepsTheRaces := by
  intro m op s u t hi hb hx hl hu
  obtain rfl := exec_bulk_legal hb hx hl
  have hn : s.engine = none := hi.idle.2 hb
  obtain ⟨fresh, keep, h⟩ := Progress.of_unread (hi.exec hb hx) hu
  refine ⟨?_, fun a ha => ⟨fun pick => ?_, h.hostByte_outside_eq hn ha⟩⟩
  · rintro e k _ he hk rfl
    exact ⟨fun pick => h.hostByte_old_or_new hl he hk ⟨pick, rfl⟩,
      fun hsh pick => h.exists_hostByte_old he hk hn hsh ⟨pick, rfl⟩, h.exists_hostByte_new he hk⟩
  · obtain ⟨pick', hp⟩ := h.hostByte_outside ha pick
    exact ⟨pick', hp.symm⟩

/-! ## The end of a command that has been shown -/

@[simp] theorem windowRead_engine (offset : Nat) (s : State) : (windowRead offset s).engine = s.engine := by
  obtain ⟨v, h | ⟨-, -, h⟩⟩ := windowRead_cases offset s
  · rw [h]
  · rw [h]; rfl

@[simp] theorem windowRead_status (offset : Nat) (s : State) : (windowRead offset s).status = s.status :=
  congrArg Regs.status (windowRead_regs offset s)

/-- The command accepted at `s` has completed, and what host reads of its destination may still return besides memory's
byte waits for the host's maintenance alone. -/
def Visible (op : BulkOp) (s t : State) : Prop :=
  ∀ e k, e < op.elements s.params → k < op.accessBytes →
    t.mem.read (op.destByte s.params e k) = s.mem.read (op.sourceByte s.params e k) ∧
    ∀ x ∈ t.stale, x.addr = op.destByte s.params e k → x.phase = .shown

/-- An observed end leaves at a byte what was shown before, and what it settles. -/
theorem phase_of_mem_observe {s : State} {a : Nat}
    (h : ∀ x ∈ s.stale, x.addr = a → settles s x = true ∨ x.phase = .shown) :
    ∀ x ∈ (observe s).stale, x.addr = a → x.phase = .shown := by
  intro x hx ha
  rw [observe_stale] at hx
  split at hx
  · obtain ⟨hx, hs⟩ := List.mem_filter.1 hx
    exact (h x hx ha).resolve_left (by simpa using hs)
  · obtain ⟨y, hy, rfl⟩ := List.mem_map.1 hx
    split
    · rfl
    · next hs =>
      rw [if_neg hs] at ha
      exact (h y hy ha).resolve_left hs

theorem Visible.observe {op : BulkOp} {s t : State} (h : Visible op s t) : Visible op s (observe t) := fun e k he hk =>
  ⟨(h e k he hk).1, phase_of_mem_observe fun x hx ha => .inr ((h e k he hk).2 x hx ha)⟩

theorem Visible.windowRead {op : BulkOp} {s t : State} (h : Visible op s t) (offset : Nat) :
    Visible op s (windowRead offset t) := by
  obtain ⟨v, hw | ⟨-, -, hw⟩⟩ := windowRead_cases offset t
  · rw [hw]
    exact h
  · rw [hw]
    exact h.observe

/-- The STATUS read that shows a completion makes it visible. -/
theorem Progress.observe_visible {m : Bool} {op : BulkOp} {s t : State} {fresh : List Trace} {keep : Trace → Bool}
    (h : Progress m op s fresh keep t) (hd : t.status.done = true) : Visible op s (observe t) := by
  intro e k he hk
  have hn : t.engine = none := h.inv.engine_eq_none (by rw [Status.showsEnd, hd, Bool.true_or])
  rcases h.element e he with ⟨g, hg, -⟩ | ⟨-, hd', -⟩ | hl
  · rw [hn] at hg
    cases hg
  · rw [hd] at hd'
    cases hd'
  · obtain ⟨w, hw, hu, hwa⟩ := (hl k hk).written
    exact ⟨(hl k hk).mem, phase_of_mem_observe fun x hx ha => .inl (settles_of_written hw hu (hwa.trans ha.symm))⟩

/-- While a command is under way, and after it, either no STATUS read has shown its end, or it has ended, and if it has
completed that is visible. -/
theorem Underway.unread_or_visible {op : BulkOp} {s t : State} (hi : (afterStart op s).Inv)
    (hu : Underway (afterStart op s) t) :
    Unread false (afterStart op s) t ∨ t.engine = none ∧ (t.status.done = true → Visible op s t) := by
  induction hu with
  | start => exact .inl .start
  | answer pick picks _ ih =>
    refine ih.imp (Unread.answer pick picks) fun ⟨hn, hv⟩ => ?_
    rw [busAnswer, hn]
    exact ⟨hn, hv⟩
  | @poll offset t _ ih =>
    rcases ih with hr | ⟨hn, hv⟩
    · by_cases he : offset = 0x04 ∧ t.status.showsEnd = true
      · obtain ⟨rfl, he⟩ := he
        obtain ⟨fresh, keep, h⟩ := Progress.of_unread hi hr
        rw [windowRead_showsEnd he]
        exact .inr ⟨h.inv.engine_eq_none he, h.observe_visible⟩
      · exact .inl (hr.poll offset fun ho => by simpa [ho] using he)
    · rw [windowRead_engine, windowRead_status]
      exact .inr ⟨hn, fun hd => (hv hd).windowRead offset⟩
  | read v _ ih => exact ih.imp (Unread.read v) id
  | drop _ hb ih => exact ih.imp (fun hr => hr.drop hb) id

/-- Settles O48: while BUSY = 1 no STATUS read has shown the end. -/
theorem racingReadReturnsOldOrNew : Obligations.RacingReadReturnsOldOrNew := by
  intro op s u t hi hb hx hu hbusy
  obtain ⟨hl, rfl⟩ := hu.started hb hx (.inl hbusy)
  have hn : s.engine = none := hi.idle.2 hb
  have hinv := hi.exec hb hx
  have hr : Unread false (afterStart op s) t := by
    refine (hu.unread_or_visible hinv).resolve_right fun hend => ?_
    rw [(oldOrMoved_hold hi hb hx hu).inv.idle.1 hend.1] at hbusy
    cases hbusy
  obtain ⟨fresh, keep, h⟩ := Progress.of_unread hinv hr
  refine ⟨?_, fun a pick ha => h.hostByte_outside_eq hn ha (nofun) pick⟩
  rintro e k _ he hk rfl b
  refine ⟨h.hostByte_old_or_new hl he hk, ?_⟩
  rintro (hold | rfl)
  · exact h.exists_hostByte_old he hk hn (nofun) hold
  · exact h.exists_hostByte_new he hk (.inl hbusy)

/-- The STATUS read after a completion shows it, if none has before. -/
theorem Underway.visible {op : BulkOp} {s t : State} (hi : (afterStart op s).Inv) (hu : Underway (afterStart op s) t)
    (hd : t.status.done = true) : Visible op s (Machine.windowRead 0x04 t) := by
  rcases hu.unread_or_visible hi with hr | ⟨-, hv⟩
  · obtain ⟨fresh, keep, h⟩ := Progress.of_unread hi hr
    rw [windowRead_showsEnd (by rw [Status.showsEnd, hd, Bool.true_or])]
    exact h.observe_visible hd
  · exact (hv hd).windowRead 0x04

/-- Settles O56: the STATUS read shows the completion, and the maintenance ends what is left to end. -/
theorem completedCommandIsVisible : Obligations.CompletedCommandIsVisible := by
  rintro op s t e k _ pick hi ⟨hb, u, hx, hu, hd⟩ he hk rfl
  obtain ⟨-, rfl⟩ := hu.started hb hx (.inr hd)
  obtain ⟨hmem, hshown⟩ := hu.visible (hi.exec hb hx) hd e k he hk
  have hinv := (oldOrMoved_hold hi hb hx (hu.poll 0x04)).inv
  have hn : (windowRead 0x04 t).engine = none :=
    hinv.engine_eq_none (by rw [windowRead_status, Status.showsEnd, hd, Bool.true_or])
  refine ⟨fun hc => ?_, ?_⟩
  · rw [← (hu.poll 0x04).platform_eq hb hx] at hc
    refine (hostByte_settled (tracesAt_eq_nil.2 fun x hx ha => ?_) (incoming_idle hn _) pick).trans hmem
    exact hinv.stale hc x hx (hshown x hx ha)
  · exact (hostByte_settled (tracesAt_maintain_shown hshown) (incoming_idle hn _) pick).trans hmem

end Sys2Proof.Machine

/-! # The encoding of commands, and the words that are none -/

namespace Sys2Proof.Machine

/-! ## Decoder and encoder -/

/-- What `Laws.Coding` shows command by command, for any command. -/
theorem coding (i : Instr) : Laws.Coding.Statement i := by
  cases i
  case nop => exact Laws.Coding.nop
  case deswz8 => exact Laws.Coding.deswz8
  case swz8 => exact Laws.Coding.swz8
  case palperm => exact Laws.Coding.palperm
  case axlate => exact Laws.Coding.axlate
  case pxlate => exact Laws.Coding.pxlate

theorem instr_wf_eq_true (i : Instr) : i.wf = true := by
  obtain ⟨hwf, -, -, -⟩ := coding i
  exact hwf

theorem decode_encode (i : Instr) : decode (encode i) = .ok i := by
  obtain ⟨-, -, -, hdec⟩ := coding i
  exact hdec

/-- A decoder reads one command from a word, so no two commands share one. -/
theorem encode_injective : Function.Injective encode := fun i j h =>
  Except.ok.inj ((decode_encode i).symm.trans (h ▸ decode_encode j))

/-- A command's own word is the only one that decodes to it (R83, R85). -/
theorem decode_eq_ok_iff {w : Word} {i : Instr} : decode w = .ok i ↔ w = encode i :=
  ⟨fun h => (encode_of_decode h).symm, fun h => h ▸ decode_encode i⟩

/-- Settles O2: the encoder is a right inverse of the decoder, and a left inverse where the decoder answers a command. -/
theorem decodeEncodeAgree : Obligations.DecodeEncodeAgree :=
  ⟨fun i _ => decode_encode i, fun _ i h => ⟨instr_wf_eq_true i, encode_of_decode h⟩, fun _ _ h => encode_injective h⟩

/-! ## Illegal words -/

/-- The OP values of no command (R83, R84). -/
theorem decodeOp_isError_iff {op : BitVec 8} : (∃ r, decodeOp op = .error r) ↔ 0x06 ≤ op.toNat := by
  unfold decodeOp
  split
  case h_7 => exact iff_of_true ⟨_, rfl⟩ (by simp only [imp_false] at *; omega)
  all_goals
    next hop => simp [hop]

theorem decode_of_rsvField_eq_zero {w : Word} (h : rsvField w = 0) : decode w = decodeOp (opField w) := if_pos h

theorem decode_of_rsvField_ne_zero {w : Word} (h : rsvField w ≠ 0) : decode w = .error .reservedBits := if_neg h

/-- The words of no command: by RSV, or by OP where RSV is zero (R84). -/
theorem decode_isError_iff {w : Word} :
    (∃ r, decode w = .error r) ↔ rsvField w ≠ 0 ∨ 0x06 ≤ (opField w).toNat := by
  by_cases h : rsvField w = 0
  · rw [decode_of_rsvField_eq_zero h, decodeOp_isError_iff, or_iff_right (not_not_intro h)]
  · exact iff_of_true ⟨_, decode_of_rsvField_ne_zero h⟩ (.inl h)

/-- Settles O1: each of the six words is its command's, and the rest are the illegal ones. -/
theorem opcodeMapIsSixWords : Obligations.OpcodeMapIsSixWords := fun _ =>
  ⟨decode_eq_ok_iff, decode_eq_ok_iff, decode_eq_ok_iff, decode_eq_ok_iff, decode_eq_ok_iff, decode_eq_ok_iff,
    decode_isError_iff⟩

/-- An illegal word is accepted while BUSY = 0 and ends with its error at once (R84, R151, R162). -/
theorem illegalWord_idle {s : State} (hb : s.status.busy = false) : illegalWord s = afterError .illegalCmd s := by
  rw [illegalWord, command_idle _ hb]
  rfl

/-- Settles O5: the step is the CMD write of a word that the decoder rejects. -/
theorem illegalWordEndsWithIllegalCmd : Obligations.IllegalWordEndsWithIllegalCmd := by
  intro s w wins rest ha hb hw
  obtain ⟨r, hd⟩ := decode_isError_iff.2 hw
  rw [step_regWrite ha rfl (by decide) (by decide), BitVec.ofNat_toNat, BitVec.setWidth_eq, writeReg, writeCmd, hd]
  exact congrArg Host.Outcome.next (illegalWord_idle hb)

end Sys2Proof.Machine

/-! # The swizzle: A as a formula and as a bijection, AXLATE, and the round trip

A bulk command undoes another when it takes each element back to where it came from. -/

namespace Sys2Proof.Machine

/-! ## The address function A -/

/-- Adding 4 modulo 8 flips bit 2 (R104). -/
theorem mod_eight_xor_four (x : Nat) : (x % 8) ^^^ 4 = (x + 4) % 8 := by
  rw [← Nat.mod_add_mod]
  have hr : x % 8 < 8 := Nat.mod_lt _ (by decide)
  generalize x % 8 = r at hr
  interval_cases r <;> rfl

/-- The swap of R101, by adding and by exclusive or. -/
theorem mod_eight_xor_swap (x : Nat) {s : Nat} (hs : s < 2) : (x % 8) ^^^ (4 * s) = (x + 4 * s) % 8 := by
  obtain rfl | rfl : s = 0 ∨ s = 1 := by omega
  · exact Nat.xor_zero _
  · exact mod_eight_xor_four x

/-- Settles O31: with masks and shifts read as remainders and quotients, the exclusive or is the sum, and the two terms
in `W` are one column. -/
theorem swizzleClosedForm : Obligations.SwizzleClosedForm := by
  intro x y w
  have and_seven : ∀ n : Nat, n &&& 7 = n % 8 := fun n => Nat.and_two_pow_sub_one_eq_mod n 3
  have and_three : ∀ n : Nat, n &&& 3 = n % 4 := fun n => Nat.and_two_pow_sub_one_eq_mod n 2
  have hswap := mod_eight_xor_swap x (s := (y + 2) / 4 % 2) (Nat.mod_lt _ (by decide))
  have hcol : 2 * (y / 4) + y % 2 = 8 * (y / 16) + (2 * (y / 4 % 4) + y % 2) := by omega
  simp only [and_seven, and_three, Nat.and_one_is_mod, Nat.shiftRight_eq_div_pow, Nat.reducePow]
  rw [hswap, swizzleOffset_eq, hcol]
  ring

/-- Every offset of an image is a pixel's (R103). -/
theorem exists_swizzleOffset_eq {w h k : Nat} (hd : dimOK w h = true) (hk : k < w * h) :
    ∃ x y, x < w ∧ y < h ∧ swizzleOffset x y w = k := by
  obtain ⟨hw, -, hw16, -⟩ := dimOK_iff.1 hd
  have hx : ∀ e, e % w < w := fun e => Nat.mod_lt _ hw
  have hlt : ∀ e < w * h, swizzleOffset (e % w) (e / w) w < w * h := fun e he =>
    swizzleOffset_lt hd (hx e) (Nat.div_lt_of_lt_mul he)
  have hinj : ∀ e < w * h, ∀ e' < w * h,
      swizzleOffset (e % w) (e / w) w = swizzleOffset (e' % w) (e' / w) w → e = e' := by
    intro e _ e' _ heq
    obtain ⟨hmod, hdiv⟩ := swizzleOffset_injective hw16 (hx e) (hx e') heq
    rw [← Nat.div_add_mod e w, ← Nat.div_add_mod e' w, hmod, hdiv]
  obtain ⟨e, he, -⟩ := existsUnique_lt_of_injOn hlt hinj hk
  exact (exists_pixel_iff (P := fun x y _ => swizzleOffset x y w = k)).1 ⟨e, he⟩

/-- Settles O30: A keeps to the image, tells its pixels apart, and so takes every offset of it. -/
theorem swizzleIsBijective : Obligations.SwizzleIsBijective := by
  intro w h hd
  obtain ⟨-, -, hw16, -⟩ := dimOK_iff.1 hd
  exact ⟨fun _ _ => swizzleOffset_lt hd, fun _ _ _ _ hx _ hx' _ => swizzleOffset_injective hw16 hx hx',
    fun _ => exists_swizzleOffset_eq hd⟩

/-! ## AXLATE -/

theorem Params.x_eq_mod (p : Params) : p.x = p.coord.toNat % 2 ^ 16 := by
  rw [Params.x, BitVec.extractLsb'_toNat, Nat.shiftRight_zero]

theorem Params.y_eq_div (p : Params) : p.y = p.coord.toNat / 2 ^ 16 := by
  rw [Params.y, BitVec.extractLsb'_toNat, Nat.shiftRight_eq_div_pow]
  exact Nat.mod_eq_of_lt (Nat.div_lt_of_lt_mul p.coord.isLt)

/-- An immediate command that ends well while the block is idle (R151, R153). -/
theorem finish_accept {s : State} (hb : s.status.busy = false) : finish (accept s) = afterDone s := by
  simp [finish, accept, afterDone, hb]

/-- AXLATE checks its dimensions, then its coordinates (R100, R106, R164). -/
theorem exec_axlate_idle {s : State} (hb : s.status.busy = false) :
    exec .axlate s = .next (
      if ¬(1 ≤ s.params.w ∧ s.params.w ≤ 4096 ∧ s.params.w % 16 = 0 ∧
          1 ≤ s.params.h ∧ s.params.h ≤ 4096 ∧ s.params.h % 4 = 0) then afterError .badDim s
      else if s.params.w ≤ s.params.x ∨ s.params.h ≤ s.params.y then afterError .coordRange s
      else { afterDone s with
        result := BitVec.ofNat 32 (swizzleOffset s.params.x s.params.y s.params.w) }) := by
  rw [exec_eq, command_idle _ hb, bodyOf, ← finish_accept hb]
  simp only [runAxlate, accept_params, Bool.not_eq_true', ← Bool.not_eq_true, dimOK_iff]
  rfl

/-- Settles O9, check by check. -/
theorem axlateComputesTiledOffset : Obligations.AxlateComputesTiledOffset := by
  refine ⟨by decide, ?_, by decide⟩
  rintro s _ _ _ _ hb rfl rfl rfl rfl
  rw [exec_axlate_idle hb, ← s.params.x_eq_mod, ← s.params.y_eq_div]
  refine ⟨fun hd => ?_, fun hd => ⟨fun hc => ?_, fun hx hy => ⟨?_, ?_, ?_⟩⟩⟩
  · exact congrArg _ (if_pos hd)
  · exact congrArg _ ((if_neg (not_not_intro hd)).trans (if_pos hc))
  · exact congrArg _ ((if_neg (not_not_intro hd)).trans (if_neg (not_or.2 ⟨hx.not_ge, hy.not_ge⟩)))
  · exact Nat.le_sub_one_of_lt (swizzleOffset_lt (dimOK_iff.2 hd) hx hy)
  · exact Nat.sub_le_sub_right (dimOK_area_le (dimOK_iff.2 hd)) 1

/-! ## The round trip -/

/-- A command that has completed without error was legal and has moved the bytes of all its elements (R57, R154). -/
theorem runsTo.moved {op : BulkOp} {s t : State} (h : runsTo op s t) (hi : s.Inv) :
    op.legal s.params = true ∧ ∀ e k, e < op.elements s.params → k < op.accessBytes →
      t.mem.read (op.destByte s.params e k) = s.mem.read (op.sourceByte s.params e k) := by
  obtain ⟨hb, u, hx, hu, hd⟩ := h
  obtain ⟨hl, rfl⟩ := hu.started hb hx (.inr hd)
  have hv := hu.visible (hi.exec hb hx) hd
  refine ⟨hl, fun e k he hk => ?_⟩
  rw [← (hv e k he hk).1, windowRead_mem]

/-- Two commands of which the second reads what the first has written: a byte that element `e` takes from the first
source and element `e'` from the place it went to ends where `e'` goes. -/
theorem runsTo.compose {first second : BulkOp} {s t s' t' : State} (h : runsTo first s t) (h' : runsTo second s' t')
    (hi : s.Inv) (hi' : s'.Inv)
    (heq : ∀ k < first.length s.params, s'.mem.read (s'.params.src.toNat + k) = t.mem.read (s.params.dst.toNat + k))
    {e e' k : Nat} (he : e < first.elements s.params) (hk : k < first.accessBytes)
    (he' : e' < second.elements s'.params) (hk' : k < second.accessBytes)
    (hmid : second.sourceOffset s'.params e' = first.destOffset s.params e) :
    t'.mem.read (second.destByte s'.params e' k) = s.mem.read (first.sourceByte s.params e k) := by
  obtain ⟨hl, hmoved⟩ := h.moved hi
  obtain ⟨-, hmoved'⟩ := h'.moved hi'
  obtain ⟨-, -, hle⟩ := everyByteMovesExactlyOnce first s.params hl
  have hlt : first.destOffset s.params e + k < first.length s.params :=
    (Nat.add_lt_add_left hk _).trans_le (hle e he).2
  calc t'.mem.read (second.destByte s'.params e' k)
      = s'.mem.read (s'.params.src.toNat + (first.destOffset s.params e + k)) := by
        rw [hmoved' e' k he' hk', BulkOp.sourceByte, hmid, Nat.add_assoc]
    _ = t.mem.read (first.destByte s.params e k) := by rw [heq _ hlt, BulkOp.destByte, Nat.add_assoc]
    _ = s.mem.read (first.sourceByte s.params e k) := hmoved e k he hk

/-- The second command takes each element back from where the first put it, to where it came from. -/
structure BulkOp.Undoes (second first : BulkOp) (p p' : Params) : Prop where
  elements : second.elements p' = first.elements p
  accessBytes : second.accessBytes = first.accessBytes
  back : ∀ e < first.elements p, ∃ e' < first.elements p,
    second.sourceOffset p' e' = first.destOffset p e ∧ second.destOffset p' e' = first.sourceOffset p e

/-- A command that undoes another gives its source back, byte by byte. -/
theorem runsTo.undo {first second : BulkOp} {s t s' t' : State} (h : runsTo first s t) (h' : runsTo second s' t')
    (hi : s.Inv) (hi' : s'.Inv) (hundo : second.Undoes first s.params s'.params)
    (heq : ∀ k < first.length s.params, s'.mem.read (s'.params.src.toNat + k) = t.mem.read (s.params.dst.toNat + k))
    {k : Nat} (hk : k < first.length s.params) :
    t'.mem.read (s'.params.dst.toNat + k) = s.mem.read (s.params.src.toNat + k) := by
  obtain ⟨hl, -⟩ := h.moved hi
  obtain ⟨hone, -⟩ := everyByteMovesExactlyOnce first s.params hl
  obtain ⟨e, ⟨he, hlo, hhi⟩, -⟩ := hone k hk
  obtain ⟨j, rfl⟩ := Nat.exists_eq_add_of_le hlo
  obtain ⟨e', he', hsrc, hdst⟩ := hundo.back e he
  have hj : j < first.accessBytes := by omega
  have := h.compose h' hi hi' heq he hj (hundo.elements ▸ he') (hundo.accessBytes ▸ hj) hsrc
  rwa [BulkOp.destByte, hdst, BulkOp.sourceByte, Nat.add_assoc, Nat.add_assoc] at this

/-- Over the same dimensions, each of DESWZ8 and SWZ8 reads where the other writes (R107, R108). -/
theorem image_undoes {first second : BulkOp} {p p' : Params}
    (hop : (first = .deswz8 ∧ second = .swz8) ∨ (first = .swz8 ∧ second = .deswz8))
    (hw : p'.width = p.width) (hh : p'.height = p.height) : second.Undoes first p p' := by
  have hw' : p'.w = p.w := congrArg BitVec.toNat hw
  have hh' : p'.h = p.h := congrArg BitVec.toNat hh
  rcases hop with ⟨rfl, rfl⟩ | ⟨rfl, rfl⟩ <;>
    exact ⟨by simp [BulkOp.elements, hw', hh'], rfl,
      fun e he => ⟨e, he, by simp [BulkOp.sourceOffset, BulkOp.destOffset, hw']⟩⟩

/-- Settles O28: each of the two commands undoes the other. -/
theorem swizzleRoundTrip : Obligations.SwizzleRoundTrip := by
  intro first second s t s' t' hop hi hi' h h' hw hh heq k hk
  have hlen : first.length s.params = s.params.w * s.params.h := by
    rcases hop with ⟨rfl, -⟩ | ⟨rfl, -⟩ <;> exact Nat.one_mul _
  rw [← hlen] at heq hk
  exact h.undo h' hi hi' (image_undoes hop hw hh) heq hk

end Sys2Proof.Machine

/-! # The palette: P as a loop nest, as an exchange of two bits and as an involution, PXLATE, and the round trip -/

namespace Sys2Proof.Machine

/-! ## The index function P -/

/-- Settles O32: the four counters of the loop nest are the digits that P reads from a position. -/
theorem paletteLoopNest : Obligations.PaletteLoopNest := by
  intro part block stripe color hblock hstripe hcolor
  simp only [paletteIndex]
  omega

/-- P keeps the aligned group of 32 (R133). -/
theorem paletteIndex_div (o : Nat) : paletteIndex o / 32 = o / 32 := by
  simp only [paletteIndex]
  omega

/-- P moves a position within its group alone (R132). -/
theorem paletteIndex_group (g : Nat) {r : Nat} (hr : r < 2 ^ 5) :
    paletteIndex (2 ^ 5 * g + r) = 2 ^ 5 * g + paletteIndex r := by
  simp only [paletteIndex]
  omega

/-- P exchanges bits 3 and 4 (R132): it does so to the 32 places of a group, and the bits from 5 on number the group. -/
theorem testBit_paletteIndex (o k : Nat) : (paletteIndex o).testBit k = o.testBit (Equiv.swap 3 4 k) := by
  have places : ∀ r < 2 ^ 5, paletteIndex r < 2 ^ 5 ∧
      ∀ k < 5, Equiv.swap 3 4 k < 5 ∧ (paletteIndex r).testBit k = r.testBit (Equiv.swap 3 4 k) := by decide
  rw [← Nat.div_add_mod o (2 ^ 5)]
  have hr : o % 2 ^ 5 < 2 ^ 5 := Nat.mod_lt _ (by decide)
  generalize o / 2 ^ 5 = g, o % 2 ^ 5 = r at hr
  obtain ⟨hlt, hbits⟩ := places r hr
  rw [paletteIndex_group g hr, Nat.testBit_two_pow_mul_add _ hlt, Nat.testBit_two_pow_mul_add _ hr]
  by_cases hk : k < 5
  · obtain ⟨hswap, hbit⟩ := hbits k hk
    rw [if_pos hk, if_pos hswap, hbit]
  · rw [Equiv.swap_apply_of_ne_of_ne (by omega) (by omega), if_neg hk, if_neg hk]

/-- P is its own inverse, as the exchange of two bits is (R133). -/
@[simp] theorem paletteIndex_paletteIndex (o : Nat) : paletteIndex (paletteIndex o) = o :=
  Nat.eq_of_testBit_eq fun k => by rw [testBit_paletteIndex, testBit_paletteIndex, Equiv.swap_apply_self]

/-- Settles O34: an involution that keeps the positions below `l` takes each of them at its own image. -/
theorem paletteIsInvolution : Obligations.PaletteIsInvolution :=
  ⟨paletteIndex_paletteIndex, paletteIndex_div, fun _ hl =>
    ⟨fun _ => paletteIndex_lt hl, fun _ _ => paletteIndex_injective,
      fun k hk => ⟨paletteIndex k, paletteIndex_lt hl hk, paletteIndex_paletteIndex k⟩⟩⟩

/-- Clearing the bits of 0x18 leaves the group and the color (R132). -/
theorem sub_and_0x18 (o : Nat) : o - (o &&& 0x18) = 2 ^ 5 * (o / 2 ^ 5) + o % 2 ^ 3 := by
  have hand : o &&& 0x18 = o % 2 ^ 5 &&& 0x18 := by
    rw [← Nat.mod_eq_of_lt (Nat.and_lt_two_pow o (y := 0x18) (n := 5) (by decide)), Nat.and_mod_two_pow]
  have hplaces : ∀ r < 2 ^ 5, (r &&& 0x18) + r % 2 ^ 3 = r := by decide
  have := hplaces (o % 2 ^ 5) (Nat.mod_lt _ (by decide))
  omega

theorem testBit_sub_and_0x18 (o k : Nat) :
    (o - (o &&& 0x18)).testBit k = (decide (k ≠ 3 ∧ k ≠ 4) && o.testBit k) := by
  have hlt : o % 2 ^ 3 < 2 ^ 5 := (Nat.mod_lt o (by decide)).trans (by decide)
  rw [sub_and_0x18, Nat.testBit_two_pow_mul_add _ hlt, Nat.testBit_mod_two_pow, Nat.testBit_div_two_pow]
  split_ifs with hk
  · have hlow : k < 3 ↔ k ≠ 3 ∧ k ≠ 4 := by omega
    rw [decide_eq_decide.2 hlow]
  · rw [Nat.sub_add_cancel (by omega), decide_eq_true (by omega : k ≠ 3 ∧ k ≠ 4), Bool.true_and]

/-- Bit `i`, moved to place `j`. -/
theorem testBit_and_one_shiftLeft (o i j k : Nat) :
    (((o >>> i) &&& 1) <<< j).testBit k = (decide (k = j) && o.testBit i) := by
  have hk : (j ≤ k ∧ k - j = 0) ↔ k = j := by omega
  rw [Nat.and_one_is_mod, Nat.shiftRight_eq_div_pow, ← Nat.toNat_testBit, Nat.testBit_shiftLeft,
    Nat.testBit_bool_toNat, ← Bool.and_assoc, ← Bool.decide_and, decide_eq_decide.2 hk]

/-- The formula of R132 is P bit by bit: bit 4 is its second term, bit 3 its third, and the others are in its first. -/
theorem paletteIndex_eq_or (o : Nat) :
    paletteIndex o = (o - (o &&& 0x18)) ||| (((o >>> 3) &&& 1) <<< 4) ||| (((o >>> 4) &&& 1) <<< 3) := by
  refine Nat.eq_of_testBit_eq fun k => ?_
  rw [testBit_paletteIndex, Nat.testBit_or, Nat.testBit_or, testBit_sub_and_0x18, testBit_and_one_shiftLeft,
    testBit_and_one_shiftLeft, Equiv.swap_apply_def]
  split_ifs with h3 h4
  · simp [h3]
  · simp [h4]
  · simp [h3, h4]

/-- Settles O33: the formula and the bits are one exchange, and the runs of 8 are turns of the loop nest. -/
theorem paletteClosedForm : Obligations.PaletteClosedForm := by
  refine ⟨paletteIndex_eq_or, fun o k => ?_, fun g j hj => ⟨?_, ?_, ?_, ?_⟩, by decide⟩
  · rw [testBit_paletteIndex, Equiv.swap_apply_def]
  · simpa [Nat.mul_comm] using paletteLoopNest g 0 0 j (by decide) (by decide) hj
  · simpa [Nat.mul_comm] using paletteLoopNest g 0 1 j (by decide) (by decide) hj
  · simpa [Nat.mul_comm] using paletteLoopNest g 1 0 j (by decide) (by decide) hj
  · simpa [Nat.mul_comm, Nat.add_assoc] using paletteLoopNest g 1 1 j (by decide) (by decide) hj

/-! ## PXLATE -/

/-- PXLATE checks its length, then its index (R130, R135, R164). -/
theorem exec_pxlate_idle {s : State} (hb : s.status.busy = false) :
    exec .pxlate s = .next (
      if ¬(32 ≤ s.params.l ∧ s.params.l ≤ 256 ∧ s.params.l % 32 = 0) then afterError .badPallen s
      else if s.params.l ≤ s.params.i then afterError .coordRange s
      else { afterDone s with result := BitVec.ofNat 32 (paletteIndex s.params.i) }) := by
  rw [exec_eq, command_idle _ hb, bodyOf, ← finish_accept hb]
  simp only [runPxlate, accept_params, Bool.not_eq_true', ← Bool.not_eq_true, palLenOK_iff]
  rfl

/-- Settles O10, check by check. -/
theorem pxlateComputesSourceIndex : Obligations.PxlateComputesSourceIndex := by
  refine ⟨by decide, ?_, by decide, by decide⟩
  rintro s _ _ hb rfl rfl
  rw [exec_pxlate_idle hb]
  refine ⟨fun hl => ?_, fun hl => ⟨fun hc => ?_, fun hi => ⟨?_, paletteIndex_lt (palLenOK_iff.2 hl) hi⟩⟩⟩
  · exact congrArg _ (if_pos hl)
  · exact congrArg _ ((if_neg (not_not_intro hl)).trans (if_pos hc))
  · exact congrArg _ ((if_neg (not_not_intro hl)).trans (if_neg hi.not_ge))

/-! ## The round trip -/

/-- Over the same length, PALPERM takes entry `e` back from its place as position `P(e)` (R136, R137). -/
theorem palperm_undoes {p p' : Params} (hl : BulkOp.palperm.legal p = true) (hp : p'.palLen = p.palLen) :
    BulkOp.palperm.Undoes .palperm p p' where
  elements := congrArg BitVec.toNat hp
  accessBytes := rfl
  back e he := by
    obtain ⟨hkeep, -⟩ := BulkOp.permutes_sourceIndex hl
    exact ⟨paletteIndex e, hkeep e he, congrArg (4 * ·) (paletteIndex_paletteIndex e), rfl⟩

/-- Settles O29: PALPERM undoes itself. -/
theorem paletteRoundTrip : Obligations.PaletteRoundTrip := by
  intro s t s' t' hi hi' h h' hp heq k hk
  obtain ⟨hl, -⟩ := h.moved hi
  exact h.undo h' hi hi' (palperm_undoes hl hp) heq hk

end Sys2Proof.Machine

/-! # NOP, and the run of a bulk command from its CMD write to its completion

While a bulk command runs on memory that answers well, each bus answer takes one access off those left, whichever it is,
and polls and dropped writes take none. -/

namespace Sys2Proof.Machine

/-! ## NOP -/

/-- Settles O8: an accepted NOP is `finish` after `accept`, and RSV alone rejects the word. -/
theorem nopCompletes : Obligations.NopCompletes := by
  refine ⟨rfl, fun s hb => ⟨?_, ?_⟩, fun w _ => decode_of_rsvField_ne_zero, fun s hs => ?_⟩
  · rw [exec_eq, command_idle _ hb, bodyOf, finish_accept hb]
  · rw [State.irq, afterDone, Bool.true_or, Bool.and_true]
  · have hst : (afterDone s).status =
        { busy := false, done := true, err := false, wbusy := false, code := .none } := by rw [afterDone, hs]
    rw [readReg, hst]
    decide

/-! ## The accesses left -/

/-- The bus answers every access of the engine without error. -/
def Engine.Answered (g : Engine) (p : Platform) : Prop :=
  ∀ x ∈ g.todo, accessOK p x.readAddr g.op.accessBytes = true ∧ accessOK p x.writeAddr g.op.accessBytes = true

/-- One bus answer, on memory that answers well, completes the command if no transfer is left, and else takes one of the
accesses left (R62, R154). -/
theorem Engine.Answered.busAnswer {t : State} {g : Engine} (hok : g.Answered t.platform) (hg : t.engine = some g)
    (pick : Nat) (picks : List Nat) :
    (g.todo = [] ∧ busAnswer pick picks t = complete t) ∨
    ((busAnswer pick picks t).status = t.status ∧ ∃ g', (busAnswer pick picks t).engine = some g' ∧
      g'.Answered t.platform ∧ accessesLeft g'.todo + 1 = accessesLeft g.todo) := by
  rcases busAnswer_cases pick picks t with ⟨hn, -⟩ | ⟨g', hg', hn, hb⟩ | ⟨g', x, hg', hx, hd, -, hb⟩ |
    ⟨g', x, bs, hg', hx, hd, -, hb⟩ | ⟨g', x, hg', hx, hbad, -⟩
  · cases hn.symm.trans hg
  · cases hg'.symm.trans hg
    exact .inl ⟨hn, hb⟩
  · cases hg'.symm.trans hg
    rw [hb]
    refine .inr ⟨rfl, _, rfl, fun y hy => ?_, accessesLeft_set hx (by simp [Transfer.left, hd])⟩
    rcases List.mem_or_eq_of_mem_set hy with hy | rfl
    · exact hok y hy
    · exact hok x (List.mem_of_getElem? hx)
  · cases hg'.symm.trans hg
    have hleft := accessesLeft_eraseIdx hx
    rw [Transfer.left, hd] at hleft
    rw [hb]
    exact .inr ⟨rfl, _, rfl, fun y hy => hok y (List.mem_of_mem_eraseIdx hy), hleft⟩
  · cases hg'.symm.trans hg
    obtain ⟨hread, hwrite⟩ := hok x (List.mem_of_getElem? hx)
    split at hbad
    · cases hread.symm.trans hbad
    · cases hwrite.symm.trans hbad

/-- A legal command over buffers that answer well starts with such an engine (R71). -/
theorem plan_answered {op : BulkOp} {s : State} (hl : op.legal s.params = true) (hbuf : buffersOK op s) :
    Engine.Answered { op := op, todo := plan op s.params, oldSource := [] } s.platform := by
  intro x hx
  obtain ⟨e, he, rfl⟩ := mem_plan_iff.1 hx
  obtain ⟨-, -, hle⟩ := everyByteMovesExactlyOnce op s.params hl
  obtain ⟨hsrc, hdst⟩ := hle e he
  simp only [accessOK_iff, BulkOp.transfer, Nat.add_assoc]
  exact ⟨fun k hk => (hbuf _ (by omega)).1, fun k hk => (hbuf _ (by omega)).2⟩

/-! ## The events between acceptance and completion -/

/-- A read of the window neither reads nor changes the agenda. -/
theorem windowRead_agenda (offset : Nat) (s : State) (rest : List Event) :
    windowRead offset { s with agenda := rest } = { windowRead offset s with agenda := rest } := by
  unfold windowRead
  cases regAt offset with
  | none => rfl
  | some r =>
    cases r
    case status =>
      simp only [observeRead]
      cases s.status.showsEnd <;> rfl
    all_goals rfl

/-- The events that leave the buffers alone, by what each does while BUSY = 1. -/
theorem step_quiet {t : State} {e : Event} (hq : e.isQuiet t.platform = true) (hb : t.status.busy = true)
    (rest : List Event) :
    ∃ t', step { t with agenda := e :: rest } = .next { t' with agenda := rest } ∧
      ((e.isAnswer = true ∧ e.isDropped t.platform = false ∧ ∃ pick picks, t' = busAnswer pick picks t) ∨
       (e.isAnswer = false ∧ e.isDropped t.platform = false ∧ ∃ offset, t' = windowRead offset t) ∨
       (e.isAnswer = false ∧ e.isDropped t.platform = true ∧ t' = dropWrite t)) := by
  cases e with
  | busAnswer pick picks =>
    exact ⟨_, congrArg _ (busAnswer_agenda pick picks t rest), .inl ⟨rfl, rfl, pick, picks, rfl⟩⟩
  | hostRead addr width picks =>
    have hacc : registerAccess t.platform addr width = true := by
      simpa [Event.isQuiet, Event.isAnswer, Event.isPoll, Event.isDropped] using hq
    refine ⟨windowRead (windowOffset t.platform addr) t, ?_, .inr (.inl ⟨rfl, rfl, _, rfl⟩)⟩
    rw [← windowRead_agenda]
    exact if_pos hacc
  | hostWrite addr width v wins =>
    have hdrop : Event.isDropped t.platform (.hostWrite addr width v wins) = true := by
      simpa [Event.isQuiet, Event.isAnswer, Event.isPoll] using hq
    refine ⟨dropWrite t, ?_, .inr (.inr ⟨rfl, hdrop, rfl⟩)⟩
    simp only [Event.isDropped, Bool.and_eq_true] at hdrop
    obtain ⟨hacc, hreg⟩ := hdrop
    split at hreg
    · next r hr =>
      rw [step_cons rfl]
      simp only [deliver, hostWrite, hacc, if_true, windowWrite, hr]
      exact writeReg_busy (s := { t with agenda := rest }) hb (by simpa using hreg) _
    · cases hreg
  | lateWrite | maintain | reset => cases hq

/-- The command that `u` has started is under way at `t` and nothing has failed: `n` accesses are left, and the bus
answers all of them without error. -/
structure Serving (u : State) (n : Nat) (wbusy : Bool) (t : State) : Prop where
  underway : Underway u t
  status : t.status = { busy := true, done := false, err := false, wbusy := wbusy, code := .none }
  engine : ∃ g, t.engine = some g ∧ g.Answered t.platform ∧ accessesLeft g.todo = n

namespace Serving

variable {u t : State} {n : Nat} {wbusy : Bool}

/-- A bus answer takes one of the accesses left. -/
theorem busAnswer (h : Serving u (n + 1) wbusy t) (pick : Nat) (picks : List Nat) :
    Serving u n wbusy (busAnswer pick picks t) := by
  obtain ⟨g, hg, hok, hn⟩ := h.engine
  rcases hok.busAnswer hg pick picks with ⟨hnil, -⟩ | ⟨hst, g', hg', hok', hn'⟩
  · rw [hnil] at hn
    cases hn
  · obtain ⟨-, -, -, -, hp, -⟩ := busAnswer_registers pick picks t
    exact ⟨h.underway.answer pick picks, hst.trans h.status, g', hg', by rwa [hp], by omega⟩

/-- The bus answer after the last of them completes the command (log entry 17). -/
theorem busAnswer_last (h : Serving u 0 wbusy t) (pick : Nat) (picks : List Nat) :
    Machine.busAnswer pick picks t = complete t := by
  obtain ⟨g, hg, hok, hn⟩ := h.engine
  rcases hok.busAnswer hg pick picks with ⟨-, hb⟩ | ⟨-, g', -, -, hn'⟩
  · exact hb
  · omega

theorem windowRead (h : Serving u n wbusy t) (offset : Nat) : Serving u n wbusy (windowRead offset t) := by
  obtain ⟨-, -, hp⟩ := (Underway.start.poll offset : Underway t _).frame
  refine ⟨h.underway.poll offset, (windowRead_status offset t).trans h.status, ?_⟩
  rw [windowRead_engine, hp]
  exact h.engine

theorem dropWrite (h : Serving u n wbusy t) : Serving u n true (dropWrite t) :=
  ⟨h.underway.drop (by rw [h.status]), by rw [dropWrite_status, h.status], h.engine⟩

/-- One of the events between: an answer takes an access, a dropped write sets WBUSY. -/
theorem step_quiet (h : Serving u n wbusy t) {e : Event} (hq : e.isQuiet u.platform = true) (rest : List Event)
    {m : Nat} (hn : n = m + if e.isAnswer then 1 else 0) :
    ∃ t', step { t with agenda := e :: rest } = .next { t' with agenda := rest } ∧
      Serving u m (wbusy || e.isDropped u.platform) t' := by
  obtain ⟨-, -, hp⟩ := h.underway.frame
  rw [← hp] at hq ⊢
  obtain ⟨t', hstep, hcase⟩ := Machine.step_quiet hq (by rw [h.status]) rest
  refine ⟨t', hstep, ?_⟩
  subst hn
  rcases hcase with ⟨ha, hd, pick, picks, rfl⟩ | ⟨ha, hd, offset, rfl⟩ | ⟨ha, hd, rfl⟩ <;> rw [ha] at h
  · rw [hd, Bool.or_false]
    exact h.busAnswer pick picks
  · rw [hd, Bool.or_false]
    exact h.windowRead offset
  · rw [hd, Bool.or_true]
    exact h.dropWrite

/-- All of them, with as many answers among them as accesses are left. -/
theorem run_quiet {evs : List Event} (h : Serving u n wbusy t) (hq : ∀ e ∈ evs, e.isQuiet u.platform = true)
    (hn : evs.countP Event.isAnswer = n) (k : Nat) (rest : List Event) :
    ∃ t', core.run (evs.length + k) { t with agenda := evs ++ rest } = core.run k { t' with agenda := rest } ∧
      Serving u 0 (wbusy || evs.any (Event.isDropped u.platform)) t' := by
  induction evs generalizing t n wbusy with
  | nil =>
    subst hn
    exact ⟨t, by rw [List.length_nil, Nat.zero_add, List.nil_append], by simpa using h⟩
  | cons e evs ih =>
    obtain ⟨he, hevs⟩ := List.forall_mem_cons.1 hq
    obtain ⟨t₁, hstep, h₁⟩ := h.step_quiet he (evs ++ rest) (hn.symm.trans List.countP_cons)
    obtain ⟨t', hrun, h'⟩ := ih h₁ hevs rfl
    refine ⟨t', ?_, by rwa [List.any_cons, ← Bool.or_assoc]⟩
    rw [List.length_cons, Nat.add_right_comm, List.cons_append, run_succ hstep, hrun]

end Serving

/-! ## The whole command -/

/-- The bulk command `op`, accepted at `s`, has ended well at `t`: its registers, and its bytes moved. -/
structure Completed (op : BulkOp) (s : State) (wbusy : Bool) (t : State) : Prop where
  status : t.status = { busy := false, done := true, err := false, wbusy := wbusy, code := .none }
  errAddr : t.errAddr = 0
  engine : t.engine = none
  params : t.params = s.params
  irqEn : t.irqEn = s.irqEn
  result : t.result = s.result
  moved : ∀ e k, e < op.elements s.params → k < op.accessBytes →
    t.mem.read (op.destByte s.params e k) = s.mem.read (op.sourceByte s.params e k)
  outside : ∀ a, ¬inDest op s.params a → t.mem.read a = s.mem.read a

/-- What may happen while a command runs leaves RESULT (R41). -/
theorem Underway.result {u t : State} (h : Underway u t) : t.result = u.result := by
  induction h with
  | start => rfl
  | answer pick picks _ ih =>
    obtain ⟨-, -, hr, -⟩ := busAnswer_registers pick picks _
    exact hr.trans ih
  | poll offset _ ih => exact (congrArg Regs.result (windowRead_regs offset _)).trans ih
  | read _ _ ih => exact ih
  | drop _ _ ih => exact ih

/-- An idle block starts a legal bulk command (R150, R154). -/
theorem exec_legal {op : BulkOp} {s : State} (hb : s.status.busy = false) (hl : op.legal s.params = true) :
    exec op.instr s = .next (afterStart op s) := by
  rw [exec_eq]
  exact congrArg _ (exec_bulk_legal hb (exec_eq _ _) hl)

/-- It starts with two accesses for each of its elements. -/
theorem afterStart_serving {op : BulkOp} {s : State} (hl : op.legal s.params = true) (hbuf : buffersOK op s) :
    Serving (afterStart op s) (2 * op.elements s.params) s.status.wbusy (afterStart op s) :=
  ⟨.start, rfl, _, rfl, plan_answered hl hbuf, accessesLeft_plan op s.params⟩

/-- With no access left, one bus answer more ends the command well. -/
theorem Serving.completed {op : BulkOp} {s t : State} {wbusy : Bool} (h : Serving (afterStart op s) 0 wbusy t)
    (hi : s.Inv) (hb : s.status.busy = false) (hl : op.legal s.params = true) (pick : Nat) (picks : List Nat) :
    Completed op s wbusy (Machine.busAnswer pick picks t) := by
  have hx := exec_legal hb hl
  have hu := h.underway.answer pick picks
  obtain ⟨hp, hirq, -⟩ := hu.frame
  have hst : (Machine.busAnswer pick picks t).status =
      { busy := false, done := true, err := false, wbusy := wbusy, code := .none } := by
    rw [h.busAnswer_last, complete_status, h.status]
  have hinv := (oldOrMoved_hold hi hb hx hu).inv
  obtain ⟨-, hmoved⟩ := runsTo.moved ⟨hb, _, hx, hu, by rw [hst]⟩ hi
  obtain ⟨-, houtside, -⟩ := partialCommandLeavesOldOrNew op s _ _ hi hb hx hu
  exact
    { status := hst
      errAddr := hinv.errAddr (.inr (.inl (by rw [hst])))
      engine := hinv.idle.2 (by rw [hst])
      params := hp
      irqEn := hirq
      result := hu.result
      moved := hmoved
      outside := houtside }

/-- A legal bulk command, with good memory and as many bus answers as it has accesses among the events that follow, ends
well with the next answer (R154, R62). -/
theorem run_bulk {op : BulkOp} {s : State} {w : Nat} {evs : List Event} {pick : Nat} {picks : List Nat}
    {rest : List Event} (hi : s.Inv) (hb : s.status.busy = false)
    (ha : s.agenda = cmdWrite s w :: (evs ++ .busAnswer pick picks :: rest))
    (hw : decode (BitVec.ofNat 32 w) = .ok op.instr) (hl : op.legal s.params = true) (hbuf : buffersOK op s)
    (hq : ∀ e ∈ evs, e.isQuiet s.platform = true)
    (hn : (evs.filter Event.isAnswer).length = 2 * op.elements s.params) :
    ∃ t, core.run (evs.length + 2) s = .next { t with agenda := rest } ∧
      Completed op s (s.status.wbusy || evs.any (Event.isDropped s.platform)) t := by
  have hstart : step s = .next { afterStart op s with agenda := evs ++ .busAnswer pick picks :: rest } :=
    (stepRunsDecodedCommand.1 s w _ [] _ ha hw).trans (exec_legal (s := { s with agenda := _ }) hb hl)
  obtain ⟨t, hrun, ht⟩ := (afterStart_serving hl hbuf).run_quiet hq (List.countP_eq_length_filter.trans hn) 1
    (.busAnswer pick picks :: rest)
  have hlast : step { t with agenda := .busAnswer pick picks :: rest } =
      .next { Machine.busAnswer pick picks t with agenda := rest } := congrArg _ (busAnswer_agenda pick picks t rest)
  refine ⟨_, ?_, ht.completed hi hb hl pick picks⟩
  rw [run_succ hstart, hrun, run_succ hlast]
  rfl

/-- Pixel (x, y) is element `y*W + x` of an image. -/
theorem pixel_element {w h x y : Nat} (hx : x < w) (hy : y < h) :
    y * w + x < w * h ∧ (y * w + x) % w = x ∧ (y * w + x) / w = y := by
  obtain ⟨e, he, rfl, hmod, hdiv⟩ := (exists_pixel_iff (w := w) (h := h)
    (P := fun x' y' e => e = y * w + x ∧ x' = x ∧ y' = y)).2 ⟨x, y, hx, hy, rfl, rfl, rfl⟩
  exact ⟨he, hmod, hdiv⟩

/-- Settles O22: element `y*W + x` goes to its place from A(x, y, W). -/
theorem deswz8CompletesInEveryOrder : Obligations.Deswz8CompletesInEveryOrder := by
  intro s evs pick picks rest hi hb ha hl hbuf hq hn
  obtain ⟨t, hrun, h⟩ := run_bulk (op := .deswz8) hi hb ha decode_deswz8 hl hbuf hq hn
  refine ⟨_, hrun, h.status, h.errAddr, h.engine, h.params, h.irqEn, h.result, rfl, fun x y hx hy => ?_, h.outside⟩
  obtain ⟨he, hmod, hdiv⟩ := pixel_element hx hy
  have := h.moved _ 0 he Nat.one_pos
  rwa [BulkOp.sourceByte, BulkOp.sourceOffset, hmod, hdiv] at this

/-- Settles O23: element `y*W + x` goes from its place to A(x, y, W). -/
theorem swz8CompletesInEveryOrder : Obligations.Swz8CompletesInEveryOrder := by
  intro s evs pick picks rest hi hb ha hl hbuf hq hn
  obtain ⟨t, hrun, h⟩ := run_bulk (op := .swz8) hi hb ha decode_swz8 hl hbuf hq hn
  refine ⟨_, hrun, h.status, h.errAddr, h.engine, h.params, h.irqEn, h.result, rfl, fun x y hx hy => ?_, h.outside⟩
  obtain ⟨he, hmod, hdiv⟩ := pixel_element hx hy
  have := h.moved _ 0 he Nat.one_pos
  rwa [BulkOp.destByte, BulkOp.destOffset, hmod, hdiv] at this

/-- Settles O24: an element is an entry, of four bytes. -/
theorem palpermCompletesInEveryOrder : Obligations.PalpermCompletesInEveryOrder := by
  intro s evs pick picks rest hi hb ha hl hbuf hq hn
  obtain ⟨t, hrun, h⟩ := run_bulk (op := .palperm) hi hb ha decode_palperm hl hbuf hq hn
  exact ⟨_, hrun, h.status, h.errAddr, h.engine, h.params, h.irqEn, h.result, rfl, h.moved, h.outside⟩

end Sys2Proof.Machine

/-! # The error codes of each command (R163), and the errors of acceptance (R165)

Every failing check is `raiseError` with a code of the command's row on the state just accepted, so both the code and
what stays as it was are read off that one form. -/

namespace Sys2Proof.Machine

/-! ## The checks that fail -/

/-- The error codes that the acceptance of a command can raise: its row of R163 without the engine's BUS_ERROR. -/
def errorCodes : Instr → List ErrCode
  | .nop => []
  | .deswz8 => [.badDim, .addrRange, .overlap]
  | .swz8 => [.badDim, .addrRange, .overlap]
  | .palperm => [.badPallen, .misaligned, .addrRange, .overlap]
  | .axlate => [.badDim, .coordRange]
  | .pxlate => [.badPallen, .coordRange]

/-- No row of a command holds NONE, and BUS_ERROR is the engine's alone. -/
theorem ne_of_mem_errorCodes {i : Instr} {c : ErrCode} (h : c ∈ errorCodes i) : c ≠ .none ∧ c ≠ .busError := by
  constructor <;> rintro rfl <;> cases i <;> simp [errorCodes] at h

section Failed

variable {s : State} (h₀ : s.status.err = false)
include h₀

/-- The shared checks of the bulk commands fail with ADDR_RANGE or OVERLAP (R60, R61). -/
theorem startChecked_failed {op : BulkOp} (h : (startChecked op s).status.err = true) :
    ∃ c ∈ [ErrCode.addrRange, .overlap], startChecked op s = raiseError c 0 s := by
  rcases startChecked_cases op s with ⟨-, hr⟩ | ⟨-, -, hr⟩ | ⟨-, -, hr⟩
  · exact ⟨.addrRange, by decide, hr⟩
  · exact ⟨.overlap, by decide, hr⟩
  · simp [hr, h₀] at h

/-- DESWZ8 and SWZ8 check their dimensions before that (R107, R108). -/
theorem runImage_failed {op : BulkOp} (h : (runImage op s).status.err = true) :
    ∃ c ∈ [ErrCode.badDim, .addrRange, .overlap], runImage op s = raiseError c 0 s := by
  rcases runImage_cases op s with ⟨-, hr⟩ | ⟨-, hr⟩
  · exact ⟨.badDim, by decide, hr⟩
  · rw [hr] at h ⊢
    obtain ⟨c, hc, hr'⟩ := startChecked_failed h₀ h
    exact ⟨c, List.mem_cons_of_mem _ hc, hr'⟩

/-- The own part of a command fails only by a check, with a code of the command's row (R163). -/
theorem bodyOf_failed {i : Instr} (h : (bodyOf i s).status.err = true) :
    ∃ c ∈ errorCodes i, bodyOf i s = raiseError c 0 s := by
  cases i with
  | nop => simp [bodyOf, h₀] at h
  | deswz8 => exact runImage_failed h₀ h
  | swz8 => exact runImage_failed h₀ h
  | palperm =>
    rw [bodyOf] at h ⊢
    rcases runPalperm_cases s with ⟨-, hr⟩ | ⟨-, -, hr⟩ | ⟨-, -, hr⟩
    · exact ⟨.badPallen, by decide, hr⟩
    · exact ⟨.misaligned, by decide, hr⟩
    · rw [hr] at h ⊢
      obtain ⟨c, hc, hr'⟩ := startChecked_failed h₀ h
      exact ⟨c, List.mem_cons_of_mem _ (List.mem_cons_of_mem _ hc), hr'⟩
  | axlate =>
    rw [bodyOf] at h ⊢
    rcases runAxlate_cases s with ⟨-, hr⟩ | ⟨-, -, hr⟩ | ⟨-, -, -, hr⟩
    · exact ⟨.badDim, by decide, hr⟩
    · exact ⟨.coordRange, by decide, hr⟩
    · simp [hr, h₀] at h
  | pxlate =>
    rw [bodyOf] at h ⊢
    rcases runPxlate_cases s with ⟨-, hr⟩ | ⟨-, -, hr⟩ | ⟨-, -, hr⟩
    · exact ⟨.badPallen, by decide, hr⟩
    · exact ⟨.coordRange, by decide, hr⟩
    · simp [hr, h₀] at h

/-- A bus answer raises ERR with BUS_ERROR alone (R71). -/
theorem busAnswer_failed {pick : Nat} {picks : List Nat} (h : (busAnswer pick picks s).status.err = true) :
    (busAnswer pick picks s).status.code = .busError := by
  rcases busAnswer_cases pick picks s with ⟨-, hb⟩ | ⟨g, -, -, hb⟩ | ⟨g, t, -, -, -, -, hb⟩ |
    ⟨g, t, bs, -, -, -, -, hb⟩ | ⟨g, t, -, -, -, hb⟩
  case inr.inr.inr.inr => rw [hb]; rfl
  all_goals simp [hb, h₀] at h

end Failed

/-- An accepted command that fails is the error outcome of a code of its row, on the state just accepted. -/
theorem exec_failed {i : Instr} {s t : State} (hb : s.status.busy = false) (h : exec i s = .next t)
    (he : t.status.err = true) : ∃ c ∈ errorCodes i, t = raiseError c 0 (accept s) := by
  rw [exec_next_iff, command_idle _ hb] at h
  subst h
  exact bodyOf_failed rfl he

/-- Settles O14: a command's own part by its checks, the engine by its answers, an illegal word by its one outcome. -/
theorem commandsRaiseOnlyTheirCodes : Obligations.CommandsRaiseOnlyTheirCodes := by
  refine ⟨fun i s t hb h he => ?_, fun s pick picks hi hb he => ?_, fun s t w r hb hd h => ?_⟩
  · obtain ⟨c, hc, rfl⟩ := exec_failed hb h he
    cases i
    case nop => cases hc
    all_goals simpa [errorCodes] using hc
  · obtain ⟨-, herr, -, -⟩ := hi.clear_of_busy hb
    exact busAnswer_failed herr he
  · rw [writeCmd, hd] at h
    cases h
    rw [illegalWord_idle hb]
    rfl

/-! ## The errors of acceptance -/

/-- A CMD write that ends with ERR, of a command or of an illegal word, is the error outcome of a check on the state just
accepted, with no address (R161, R162). -/
theorem writeCmd_failed {w : Word} {s t : State} (hb : s.status.busy = false) (h : writeCmd w s = .next t)
    (he : t.status.err = true) : ∃ c, c ≠ .none ∧ c ≠ .busError ∧ t = raiseError c 0 (accept s) := by
  rcases writeCmd_cases w s with ⟨i, -, hw⟩ | ⟨r, -, hw⟩ <;> rw [hw] at h
  · obtain ⟨c, hc, ht⟩ := exec_failed hb ((exec_eq i s).trans h) he
    obtain ⟨hnone, hbus⟩ := ne_of_mem_errorCodes hc
    exact ⟨c, hnone, hbus, ht⟩
  · cases h
    exact ⟨.illegalCmd, by decide, by decide, command_idle _ hb⟩

/-- Settles O15: the error outcome of a check changes no memory, empties the engine and lowers BUSY. -/
theorem acceptanceErrorsTouchNoMemory : Obligations.AcceptanceErrorsTouchNoMemory := by
  intro w s t hb h he
  obtain ⟨c, hnone, hbus, rfl⟩ := writeCmd_failed hb h he
  exact ⟨rfl, rfl, rfl, rfl, hnone, hbus⟩

end Sys2Proof.Machine

/-! # A bus that does not answer: BUSY stays until reset -/

namespace Sys2Proof.Machine

/-! ## Steps that answer nothing while a command runs -/

/-- A delivered event is the next step of the machine with that event first. -/
theorem deliver_eq_step (e : Event) (s : State) : deliver e s = step { s with agenda := e :: s.agenda } := rfl

/-- The next event is a bus answer exactly if it is one of the events that `Event.isAnswer` names. -/
theorem busAnswers_iff {s : State} : busAnswers s ↔ ∃ e, s.agenda.head? = some e ∧ e.isAnswer = true := by
  refine ⟨fun ⟨pick, picks, h⟩ => ⟨_, h, rfl⟩, fun ⟨e, h, ha⟩ => ?_⟩
  cases e with
  | busAnswer pick picks => exact ⟨pick, picks, h⟩
  | _ => cases ha

/-- A register write leaves the agenda. -/
theorem writeReg_agenda {r : Reg} {v : Word} {s t : State} (h : writeReg r v s = .next t) : t.agenda = s.agenda := by
  rcases writeReg_cases h with ⟨-, rfl⟩ | ⟨-, rfl⟩ | ⟨-, -, rfl⟩ | ⟨-, -, i, -, rfl⟩ | ⟨-, -, -, rfl⟩ |
    ⟨-, -, f, rfl⟩ | ⟨-, rfl⟩
  case inr.inr.inr.inl =>
    obtain ⟨-, -, -, hag, -⟩ := bodyOf_frame i (accept s)
    exact hag
  all_goals rfl

/-- While BUSY = 1 no register write reaches the engine (R43). -/
theorem writeReg_engine {r : Reg} {v : Word} {s t : State} (hb : s.status.busy = true)
    (h : writeReg r v s = .next t) : t.engine = s.engine := by
  rcases writeReg_cases h with ⟨-, rfl⟩ | ⟨-, rfl⟩ | ⟨-, -, rfl⟩ | ⟨-, hb', -⟩ | ⟨-, hb', -⟩ |
    ⟨-, hb', -⟩ | ⟨-, rfl⟩
  case inr.inr.inr.inl | inr.inr.inr.inr.inl | inr.inr.inr.inr.inr.inl => cases hb.symm.trans hb'
  all_goals rfl

/-- A step takes the next event off the agenda. -/
theorem step_agenda {s t : State} (h : step s = .next t) : t.agenda = s.agenda.tail := by
  rcases step_cases h with ⟨ha, rfl⟩ | ⟨r, ⟨addr, v, wins, reg, ha, -, -, hw⟩ | ⟨addr, v, wins, ha, -, rfl⟩ |
    ⟨addr, w, v, wins, ha, -, -, rfl⟩ | ⟨addr, w, picks, ha, -, rfl⟩ | ⟨addr, w, picks, v, ha, rfl⟩ |
    ⟨pick, picks, ha, rfl⟩ | ⟨pick, lands, ha, rfl⟩ | ⟨ha, rfl⟩ | ⟨ha, rfl⟩⟩ <;> rw [ha]
  · rfl
  · exact writeReg_agenda hw
  · rfl
  · obtain ⟨m, st, lt, old, hw, -, -⟩ := hostWriteBytes_frame addr v wins (List.range w) { s with agenda := r }
    rw [hw]
    rfl
  · rw [windowRead_agenda]
    rfl
  · rfl
  · rw [busAnswer_agenda]
    rfl
  · rcases lateWrite_cases pick lands { s with agenda := r } with hl | ⟨i, c, -, hl | ⟨-, hl⟩⟩ <;> rw [hl] <;> rfl
  · rfl
  · rfl

/-- While a command runs, a step that is neither a bus answer nor a reset leaves BUSY at 1 (R27). -/
theorem step_busy {s t : State} (h : step s = .next t) (hb : s.status.busy = true) (ha : ¬busAnswers s)
    (hr : ¬resets s) : t.status.busy = true := by
  by_contra hn
  exact ((step_effect h).busy_falls hb (Bool.eq_false_of_not_eq_true hn)).elim (fun hans => ha hans.1) hr

/-- And it leaves the engine its transfers. -/
theorem step_todo {s t : State} (h : step s = .next t) (hb : s.status.busy = true) (ha : ¬busAnswers s)
    (hr : ¬resets s) {g : Engine} (hg : s.engine = some g) : ∃ g', t.engine = some g' ∧ g'.todo = g.todo := by
  rcases step_cases h with ⟨-, rfl⟩ | ⟨r, ⟨addr, v, wins, reg, -, -, -, hw⟩ | ⟨addr, v, wins, -, -, rfl⟩ |
    ⟨addr, w, v, wins, -, -, -, rfl⟩ | ⟨addr, w, picks, -, -, rfl⟩ | ⟨addr, w, picks, v, -, rfl⟩ |
    ⟨pick, picks, hans, -⟩ | ⟨pick, lands, -, rfl⟩ | ⟨-, rfl⟩ | ⟨hres, -⟩⟩
  · exact ⟨g, hg, rfl⟩
  · exact ⟨g, (writeReg_engine (s := { s with agenda := r }) hb hw).trans hg, rfl⟩
  · exact ⟨g, hg, rfl⟩
  · obtain ⟨m, st, lt, old, hw, -, -⟩ := hostWriteBytes_frame addr v wins (List.range w) { s with agenda := r }
    rw [hw]
    exact ⟨_, Option.map_eq_some_iff.2 ⟨g, hg, rfl⟩, rfl⟩
  · exact ⟨g, (windowRead_engine _ _).trans hg, rfl⟩
  · exact ⟨g, hg, rfl⟩
  · exact absurd ⟨pick, picks, by rw [hans]; rfl⟩ ha
  · rcases lateWrite_cases pick lands { s with agenda := r } with hl | ⟨i, c, -, hl | ⟨-, hl⟩⟩ <;> rw [hl] <;>
      exact ⟨g, hg, rfl⟩
  · exact ⟨g, hg, rfl⟩
  · exact absurd (by rw [resets, hres]; rfl) hr

/-! ## One access withheld -/

/-- Transfers that differ stand at different places of a list. -/
theorem exists_place_ne {l : List Transfer} {i : Nat} {t t' : Transfer} (ht : t ∈ l) (hi : l[i]? = some t')
    (hne : t' ≠ t) : ∃ j, j ≠ i ∧ l[j]? = some t := by
  obtain ⟨j, hj⟩ := List.getElem?_of_mem ht
  refine ⟨j, ?_, hj⟩
  rintro rfl
  exact hne (Option.some.inj (hi.symm.trans hj))

/-- A good answer to another transfer's access leaves BUSY at 1 and the transfer with the engine. -/
theorem busAnswer_other {s : State} {g : Engine} {t t' : Transfer} {pick : Nat} (hg : s.engine = some g)
    (ht : t ∈ g.todo) (ht' : g.todo[pick % g.todo.length]? = some t') (hne : t' ≠ t)
    (hok : nextAccessOK g t' s = true) (picks : List Nat) :
    (busAnswer pick picks s).status = s.status ∧ ∃ g', (busAnswer pick picks s).engine = some g' ∧ t ∈ g'.todo := by
  obtain ⟨j, hji, hj⟩ := exists_place_ne ht ht' hne
  cases hd : t'.data with
  | none =>
    rw [busAnswer_read hg ht' hd (by simpa [nextAccessOK, hd] using hok)]
    exact ⟨rfl, _, rfl, List.mem_of_getElem? ((List.getElem?_set_ne hji.symm).trans hj)⟩
  | some bs =>
    rw [busAnswer_write hg ht' hd (by simpa [nextAccessOK, hd] using hok)]
    exact ⟨rfl, _, rfl, List.mem_eraseIdx_iff_getElem?.2 ⟨j, hji, hj⟩⟩

/-- While the access of a transfer is withheld, BUSY stays 1 and the transfer stays with the engine. -/
theorem Withheld.running {t : Transfer} {u v : State} (h : Withheld t u v) (hb : u.status.busy = true)
    (ht : ∃ g, u.engine = some g ∧ t ∈ g.todo) : v.status.busy = true ∧ ∃ g, v.engine = some g ∧ t ∈ g.todo := by
  induction h with
  | start => exact ⟨hb, ht⟩
  | answer pick picks g t' _ hg ht' hne hok ih =>
    obtain ⟨hbusy, g₀, hg₀, hmem⟩ := ih
    cases hg₀.symm.trans hg
    obtain ⟨hst, hstay⟩ := busAnswer_other hg hmem ht' hne hok picks
    exact ⟨by rw [hst]; exact hbusy, hstay⟩
  | @other e v w _ ha hr hd ih =>
    obtain ⟨hbusy, g, hg, hmem⟩ := ih
    rw [deliver_eq_step] at hd
    have hans : ¬busAnswers { v with agenda := e :: v.agenda } := fun h => by
      obtain ⟨e', he, ha'⟩ := busAnswers_iff.1 h
      cases he
      cases ha.symm.trans ha'
    have hres : ¬resets { v with agenda := e :: v.agenda } := fun h => hr (Option.some.inj h)
    obtain ⟨g', hg', htodo⟩ := step_todo hd hbusy hans hres hg
    exact ⟨step_busy hd hbusy hans hres, g', hg', by rwa [htodo]⟩

/-! ## No answer at all -/

/-- A run of one step more that ends in a state has taken its first step. -/
theorem exists_step_of_run {k : Nat} {s t : State} (h : core.run (k + 1) s = .next t) :
    ∃ s', step s = .next s' ∧ core.run k s' = .next t := by
  simp only [Host.Core.run] at h
  split at h
  · next s' hs' => exact ⟨s', hs', h⟩
  all_goals cases h

/-- With no answer and no reset to come, BUSY is 1 after any number of steps. -/
theorem run_busy {k : Nat} {s t : State} (hb : s.status.busy = true)
    (ha : ∀ e ∈ s.agenda, e ≠ .reset ∧ e.isAnswer = false) (h : core.run k s = .next t) : t.status.busy = true := by
  induction k generalizing s with
  | zero =>
    cases h
    exact hb
  | succ k ih =>
    obtain ⟨s', hs, h⟩ := exists_step_of_run h
    refine ih (step_busy hs hb (fun hans => ?_) fun hres => ?_) (fun e he => ha e ?_) h
    · obtain ⟨e, he, hans⟩ := busAnswers_iff.1 hans
      obtain ⟨-, hno⟩ := ha e (List.mem_of_mem_head? he)
      cases hno.symm.trans hans
    · exact (ha _ (List.mem_of_mem_head? hres)).1 rfl
    · rw [step_agenda hs] at he
      exact List.mem_of_mem_tail he

/-- Settles O21: neither a good answer to another transfer nor any other event but a reset takes the withheld one. -/
theorem silentBusHangsTheBlock : Obligations.SilentBusHangsTheBlock := by
  obtain ⟨-, -, -, hreset, -⟩ := busyLifetime
  exact ⟨fun u v g t hg ht hb h => h.running hb ⟨g, hg, ht⟩, fun k s t hb ha h => run_busy hb ha h, hreset⟩

end Sys2Proof.Machine

/-! # After a reset: the writes it leaves behind

A reset keeps memory and leaves the writes under way to end later or never; a byte that the host has rewritten since is
out of their reach. -/

namespace Sys2Proof.Machine

/-! ## Late writes -/

theorem mem_cellsOf {a : Nat} {bs : List Byte} {c : Host.Cell} :
    c ∈ cellsOf a bs ↔ ∃ (k : Nat) (hk : k < bs.length), c = (a + k, bs[k]) := by
  induction bs generalizing a with
  | nil => simp [cellsOf]
  | cons b bs ih =>
    rw [cellsOf, List.mem_cons, ih]
    constructor
    · rintro (rfl | ⟨k, hk, rfl⟩)
      · exact ⟨0, by simp, rfl⟩
      · exact ⟨k + 1, by simpa using hk, by rw [List.getElem_cons_succ, Nat.add_assoc, Nat.add_comm 1]⟩
    · rintro ⟨_ | k, hk, rfl⟩
      · exact .inl rfl
      · exact .inr ⟨k, by simpa using hk, by rw [List.getElem_cons_succ, Nat.add_assoc, Nat.add_comm 1]⟩

theorem mem_valuesAt {l : List Host.Cell} {a : Nat} {b : Byte} : b ∈ valuesAt l a ↔ (a, b) ∈ l := by
  simp [valuesAt]

/-- A write that counts as issued is that of a transfer whose read has answered (R55, log entry 9). -/
theorem exists_of_mem_issuedCells {s : State} {c : Host.Cell} (h : c ∈ issuedCells s) :
    ∃ (g : Engine) (x : Transfer) (bs : List Byte), s.engine = some g ∧ x ∈ g.todo ∧ x.data = some bs ∧
      ∃ (k : Nat) (hk : k < bs.length), c = (x.writeAddr + k, bs[k]) := by
  unfold issuedCells at h
  split at h
  · cases h
  · next g hg =>
    obtain ⟨x, hx, hc⟩ := List.mem_flatMap.1 h
    split at hc
    · cases hc
    · next bs hd =>
      split at hc
      · exact ⟨g, x, bs, hg, hx, hd, mem_cellsOf.1 hc⟩
      · cases hc

/-- What the end of one late write keeps, the ends of any number of them keep. -/
theorem endLate_induction {P : State → Prop} (h : ∀ pick lands s, P s → P (lateWrite pick lands s)) {s : State}
    (hs : P s) (l : List (Nat × Bool)) : P (endLate l s) := by
  induction l generalizing s with
  | nil => exact hs
  | cons c l ih => exact ih (h c.1 c.2 s hs)

/-- While a bulk command is under way, and after it, no late write is new: an element that lands ends some (R191). -/
theorem Underway.late_subset {op : BulkOp} {s u t : State} (hb : s.status.busy = false)
    (h : exec op.instr s = .next u) (hu : Underway u t) : t.late ⊆ s.late := by
  induction hu with
  | start => rcases exec_bulk_cases hb h with ⟨-, rfl⟩ | ⟨-, c, rfl⟩ <;> exact List.Subset.refl _
  | @answer pick picks t _ ih =>
    rcases busAnswer_buffers pick picks t with ⟨-, -, -, hl⟩ | ⟨g, x, bs, -, -, -, -, ha⟩
    · rwa [hl]
    · rw [ha]
      exact fun c hc => ih (List.mem_of_mem_filter hc)
  | @poll offset t _ ih => obtain ⟨v, hw | ⟨-, -, hw⟩⟩ := windowRead_cases offset t <;> rw [hw] <;> exact ih
  | read _ _ ih => exact ih
  | drop _ _ ih => exact ih

/-! ## A reset in the middle of a bulk command -/

/-- Memory, and each late write still to end, hold bytes that `P` allows at their addresses. -/
structure Settling (P : Nat → Byte → Prop) (s : State) : Prop where
  wf : s.mem.wf = true
  held : ∀ a, P a (s.mem.read a)
  late : ∀ c ∈ s.late, P c.1 c.2

/-- However a late write ends, memory stays within what is allowed. -/
theorem Settling.lateWrite {P : Nat → Byte → Prop} (pick : Nat) (lands : Bool) (s : State) (h : Settling P s) :
    Settling P (lateWrite pick lands s) := by
  have rest : ∀ i, ∀ c ∈ s.late.eraseIdx i, P c.1 c.2 := fun i c hc => h.late c (List.mem_of_mem_eraseIdx hc)
  have hwf := lateWrite_wf h.wf pick lands
  rcases lateWrite_cases pick lands s with hl | ⟨i, c, hc, hl | ⟨-, hl⟩⟩ <;> rw [hl] at hwf ⊢
  · exact h
  · exact ⟨hwf, h.held, rest i⟩
  · refine ⟨hwf, fun a => ?_, rest i⟩
    rw [Memory.read_write h.wf]
    split
    · next ha => exact ha ▸ h.late c (List.mem_of_getElem? hc)
    · exact h.held a

/-- The bytes that may stand at an address after a reset of the command accepted at `s`: those of the command alone, and
those of the writes left over from before it. -/
def leftByReset (op : BulkOp) (s : State) (a : Nat) (b : Byte) : Prop :=
  b ∈ valuesAt s.late a ∨ (oldOrMoved op s).held a b

/-- A reset leaves only such bytes, in memory and under way: a write under way moves a byte of the command. -/
theorem settling_resetBlock {op : BulkOp} {s u t : State} (hi : s.Inv) (hb : s.status.busy = false)
    (h : exec op.instr s = .next u) (hu : Underway u t) : Settling (leftByReset op s) (resetBlock t) := by
  have hold := oldOrMoved_hold hi hb h hu
  refine ⟨hold.inv.mem, fun a => .inr (hold.held a), fun c hc => ?_⟩
  rcases List.mem_append.1 hc with hc | hc
  · obtain ⟨g, x, bs, hg, hx, hd, k, hk, rfl⟩ := exists_of_mem_issuedCells hc
    obtain ⟨hheld, -⟩ := hold.moved (oldOrMoved_closed op s) hg hx hd hk
    exact .inr hheld
  · exact .inl (mem_valuesAt.2 (hu.late_subset hb h hc))

/-- Settles O26: late writes keep memory within what the reset has left. -/
theorem resetLeavesOldOrNew : Obligations.ResetLeavesOldOrNew := by
  intro op s u t late hi hb h hu
  have hset := endLate_induction Settling.lateWrite (settling_resetBlock hi hb h hu) late
  have held : ∀ a, valuesAt s.late a = [] → (oldOrMoved op s).held a ((endLate late (resetBlock t)).mem.read a) :=
    fun a hl => (hset.held a).resolve_left (by simp [hl])
  refine ⟨rfl, ?_, fun a ha hl => (held a hl).resolve_right fun hm => ha hm.inDest⟩
  rintro e k _ he hk rfl hl
  exact (held _ hl).imp_right fun hm => hm.eq he hk

/-! ## A byte rewritten after a reset -/

/-- The block is idle, and nothing is in question at address `a`: memory holds `b` there, a host read can return
nothing older, and no late write reaches it. -/
structure Rewritten (a : Nat) (b : Byte) (s : State) : Prop where
  inv : s.Inv
  idle : s.engine = none
  mem : s.mem.read a = b
  stale : tracesAt s.stale a = []
  late : ∀ c ∈ s.late, c.1 ≠ a

namespace Rewritten

variable {a : Nat} {b : Byte} {s : State}

/-- A host read returns the byte. -/
theorem hostByte (h : Rewritten a b s) (pick : Nat) : hostByte s a pick = b :=
  (hostByte_settled h.stale (incoming_idle h.idle a) pick).trans h.mem

/-- The parameter registers do not matter to it. -/
theorem params (h : Rewritten a b s) (p : Params) : Rewritten a b { s with params := p } :=
  ⟨h.inv.params (h.inv.idle.1 h.idle) p, h.idle, h.mem, h.stale, h.late⟩

/-- A late write ends elsewhere. -/
theorem lateWrite (pick : Nat) (lands : Bool) (s : State) (h : Rewritten a b s) :
    Rewritten a b (lateWrite pick lands s) := by
  have rest : ∀ i, ∀ c ∈ s.late.eraseIdx i, c.1 ≠ a := fun i c hc => h.late c (List.mem_of_mem_eraseIdx hc)
  have hi := h.inv.lateWrite pick lands
  rcases lateWrite_cases pick lands s with hl | ⟨i, c, hc, hl | ⟨-, hl⟩⟩ <;> rw [hl] at hi ⊢
  · exact h
  · exact ⟨hi, h.idle, h.mem, h.stale, rest i⟩
  · have hne := h.late c (List.mem_of_getElem? hc)
    refine ⟨hi, h.idle, ?_, ?_, rest i⟩
    · rw [Memory.read_write h.inv.mem, if_neg hne, h.mem]
    · rw [tracesAt_cons, if_neg hne, h.stale]

end Rewritten

/-- A host write of a byte that an idle block does not race for rewrites it (R191). -/
theorem rewritten_hostWriteByte {s : State} (hi : s.Inv) (hn : s.engine = none) (addr : Word)
    (hw : tracesAt s.written addr.toNat = []) (n : Nat) (wins : Bool) :
    Rewritten addr.toNat (BitVec.ofNat 8 n) (hostWriteByte addr.toNat (BitVec.ofNat 8 n) wins s) := by
  have hinv := hi.hostWriteByte addr n wins
  rw [hostWriteByte_quiet (racing_eq_false.2 ⟨incoming_idle hn _, hw⟩)] at hinv ⊢
  refine ⟨hinv, by rw [hn]; rfl, ?_, tracesAt_eq_nil.2 fun t ht => ?_, fun c hc heq => ?_⟩
  · rw [Memory.read_write hi.mem, if_pos rfl]
  · simpa using (List.mem_filter.1 ht).2
  · simpa [heq] using (List.mem_filter.1 hc).2

/-! ## A new bulk command elsewhere -/

/-- A transfer of the engine writes within the destination (R51). -/
theorem State.Inv.inDest_write {t : State} (h : t.Inv) {g : Engine} (hg : t.engine = some g) {x : Transfer}
    (hx : x ∈ g.todo) {k : Nat} (hk : k < g.op.accessBytes) : inDest g.op t.params (x.writeAddr + k) := by
  have hfits := h.engine g hg
  obtain ⟨e, he, hpair⟩ := hfits.exists_element hx
  rw [x.writeAddr_of_pair hpair]
  exact BulkOp.inDest_destByte hfits.legal he hk

/-- An address outside the destination of the running command is outside every transfer of it. -/
theorem Bounds.Hold.outside_write {B : Bounds} {op : BulkOp} {p : Params} {t : State} (h : B.Hold op p t) {g : Engine}
    (hg : t.engine = some g) {x : Transfer} (hx : x ∈ g.todo) {a : Nat} (ha : ¬inDest op p a) :
    a < x.writeAddr ∨ x.writeAddr + g.op.accessBytes ≤ a := by
  by_contra hin
  have hdest := h.inv.inDest_write hg hx (k := a - x.writeAddr) (by omega)
  rw [(h.engine g hg).op, h.params, show x.writeAddr + (a - x.writeAddr) = a by omega] at hdest
  exact ha hdest

/-- Nothing of the running command is to come outside its destination. -/
theorem Bounds.Hold.incoming_outside {B : Bounds} {op : BulkOp} {p : Params} {t : State} (h : B.Hold op p t) {a : Nat}
    (ha : ¬inDest op p a) : incoming t a = [] := by
  refine incoming_eq_nil.2 fun g hg x hx => ?_
  have := h.outside_write hg hx ha
  simp only [Transfer.covers, Bool.and_eq_false_iff, decide_eq_false_iff_not]
  omega

theorem tracesAt_observe_subset (s : State) (a : Nat) : tracesAt (observe s).stale a ⊆ tracesAt s.stale a := by
  cases hc : s.platform.coherent
  · rw [tracesAt_observe_incoherent hc]
    exact List.Subset.refl _
  · rw [observe_stale, if_pos hc]
    exact ((List.filter_sublist.filter _).map _).subset

/-- While a bulk command is under way, and after it, no older value is new at a byte outside its destination. -/
theorem Underway.stale_outside {op : BulkOp} {s u t : State} (hi : s.Inv) (hb : s.status.busy = false)
    (h : exec op.instr s = .next u) (hu : Underway u t) {a : Nat} (ha : ¬inDest op s.params a) :
    tracesAt t.stale a ⊆ tracesAt s.stale a := by
  induction hu with
  | start =>
    rw [← tracesAt_miss s.stale]
    rcases exec_bulk_cases hb h with ⟨-, rfl⟩ | ⟨-, c, rfl⟩ <;> exact List.Subset.refl _
  | @answer pick picks t hut ih =>
    have hold := oldOrMoved_hold hi hb h hut
    rcases busAnswer_buffers pick picks t with ⟨-, hst, -, -⟩ | ⟨g, x, bs, hg, hx, hd, hok, hans⟩
    · rwa [hst]
    · have hmem := List.mem_of_getElem? hx
      have hout := hold.outside_write hg hmem ha
      rw [← hold.inv.length_data hg hmem hd] at hout
      obtain ⟨-, hst, -, -⟩ := landWrite_outside hold.inv.mem (hold.inv.write_le hg hmem hd hok) hout
      rw [hans]
      rwa [hst]
  | @poll offset t _ ih =>
    obtain ⟨v, hw | ⟨-, -, hw⟩⟩ := windowRead_cases offset t <;> rw [hw]
    · exact ih
    · exact List.Subset.trans (tracesAt_observe_subset t a) ih
  | read _ _ ih => exact ih
  | drop _ _ ih => exact ih

/-- A new bulk command leaves a rewritten byte outside its destination as it is to the host. -/
theorem Rewritten.hostByte_underway {a : Nat} {b : Byte} {op : BulkOp} {s u t : State} (h : Rewritten a b s)
    (hx : exec op.instr s = .next u) (hu : Underway u t) (ha : ¬inDest op s.params a) (pick : Nat) :
    Machine.hostByte t a pick = b := by
  have hb : s.status.busy = false := h.inv.idle.1 h.idle
  have hold := oldOrMoved_hold h.inv hb hx hu
  have hst : tracesAt t.stale a = [] := List.subset_nil.1 (h.stale ▸ hu.stale_outside h.inv hb hx ha)
  have hm : t.mem.read a = s.mem.read a := (hold.held a).resolve_right fun hm => ha hm.inDest
  exact (hostByte_settled hst (hold.incoming_outside ha) pick).trans (hm.trans h.mem)

/-- Settles O57: late writes leave the byte rewritten, and so does a command whose destination does not hold it. -/
theorem rewrittenByteIsReliableAfterReset : Obligations.RewrittenByteIsReliableAfterReset := by
  intro s t v addr n wins late hi hr hs hout hv
  obtain ⟨rest, hs'⟩ := step_of_resets hr
  cases hs.symm.trans hs'
  obtain rfl := deliver_byteWrite_next (s := resetBlock { s with agenda := rest }) hout hv
  have hreset : (resetBlock { s with agenda := rest }).Inv := (hi.of_frame _ _ _ rest).resetBlock
  have hre := endLate_induction Rewritten.lateWrite (rewritten_hostWriteByte hreset rfl addr rfl n wins) late
  exact ⟨hre.hostByte, fun op p u w hx hu ha => (hre.params p).hostByte_underway hx hu ha⟩

end Sys2Proof.Machine

/-! # The sample words of V-C1 -/

namespace Sys2Proof.Machine

/-- The decoder's reason where RSV is zero and OP is past the opcode map (R84). -/
theorem decode_eq_reservedOpcode {w : Word} (hrsv : rsvField w = 0) (hop : 0x06 ≤ (opField w).toNat) :
    decode w = .error .reservedOpcode := by
  rw [decode_of_rsvField_eq_zero hrsv, decodeOp]
  split
  case h_7 => rfl
  all_goals omega

/-- Settles O3: each word is a command's own, has its OP past the opcode map, or has a reserved bit set. -/
theorem sampleWordsDecode : Obligations.SampleWordsDecode :=
  ⟨decode_encode .nop, decode_encode .deswz8, decode_encode .palperm, decode_encode .pxlate,
    decode_eq_reservedOpcode (by decide) (by decide), decode_eq_reservedOpcode (by decide) (by decide),
    decode_of_rsvField_ne_zero (by decide), decode_of_rsvField_ne_zero (by decide),
    decode_of_rsvField_ne_zero (by decide)⟩

end Sys2Proof.Machine
